-- ==== Sys2Proof/Word.lean ====
section
/-! DEFINITION. The byte, the one width of the data path (`00_scope.md` R14 `DATA_W`, `20_memory.md` R51). -/

namespace Sys2Proof

/-- A byte: bits 7 (weight 128) down to 0 (`00_scope.md` R15). -/
abbrev Byte := BitVec 8

end Sys2Proof
end

