-- ==== Sys2Proof/Config.lean ====
section
/-! DEFINITION. What an implementation fixes: the constants of `00_scope.md` R13 and R14, and the control register
`CFG` (`10_state.md` R32). The spec leaves no value open, so there is no free value here. -/

namespace Sys2Proof

/-- The three policy bits (`00_scope.md` R14, `10_state.md` R32). Constant for a run; written by `RESET` only. -/
structure Cfg where
  /-- Bit 0, `AFC00_REJECT`: a packet with `afc = 0b00` is a decode error. -/
  afc00Reject : Bool
  /-- Bit 1, `RESYNC`: after a per-packet decode error the block seeks the next sync byte. -/
  resync : Bool
  /-- Bit 2, `CHECK_SYNC`: `DECODE` fails with `BadSync` when byte 0 is not 0x47. -/
  checkSync : Bool
  deriving DecidableEq, Repr

/-- The recommended values of R14, one for each bit. -/
def Cfg.recommended : Cfg := ⟨true, true, true⟩

namespace Config

/-- `PACKET_LEN` (R13): bytes in one transport packet. -/
abbrev packetLen : Nat := 188

/-- `SYNC_BYTE` (R13, `30_encoding.md` R72). -/
abbrev syncByte : Byte := 0x47#8

/-- `PID_MAX` (R13). -/
abbrev pidMax : Nat := 0x1FFF

/-- `AF_LEN_OFFSET` (R13): window offset of the adaptation-field length byte. -/
abbrev afLenOffset : Nat := 4

/-- `AF_FLAGS_OFFSET` (R13): window offset of the adaptation-field flag byte. -/
abbrev afFlagsOffset : Nat := 5

/-- `AF_LEN_MAX_WITH_PAYLOAD` (R13). -/
abbrev afLenMaxWithPayload : Byte := 182#8

/-- `AF_LEN_NO_PAYLOAD` (R13): the only legal length when the packet carries no payload. -/
abbrev afLenNoPayload : Byte := 183#8

/-- The position counter has `POS_W = 64` bits (R14); a stream of `2 ^ 64` bytes or more is outside the spec and the
model refuses it (`10_state.md` R22, `92_eei_decisions.md` D18). -/
abbrev streamLimit : Nat := 2 ^ 64

end Config

end Sys2Proof
end

