-- ==== Sys2Proof/Syntax.lean ====
section
/-! DEFINITION. The state names that are the contexts of the opcode table, the fields of a packet prefix, and the ONE
inductive of instructions: one constructor per row of `spec/opcode_table.json`. -/

namespace Sys2Proof

/-- `ST`, the state of the state machine (`10_state.md` R24). Code 7 is unused and ill-formed, so it has no name here
(log 5). -/
inductive St where
  | seeking
  | decoding
  | yield
  | decodeFailed
  | seekFailed
  | terminated
  | fatal
  deriving DecidableEq, Repr

/-- The header fields of a packet prefix that every packet row carries as operands, `adaptation_field_control` apart,
which (but for `TS_BAD_SYNC`) the row fixes (`30_encoding.md` R73). -/
structure HdrFields where
  tei : Bool
  pusi : Bool
  tp : Bool
  pid : BitVec 13
  tsc : BitVec 2
  cc : BitVec 4
  deriving DecidableEq, Repr

/-- One constructor per row of `spec/opcode_table.json`. The arguments are the fields of the row's word that its mask
leaves open, don't-care fields included, so that no bit of a word is lost. -/
inductive Instr where
  /-- `SCAN_IOERR`: `1 - --------` in SEEKING, with the side value `in_cause` (R78, R104). -/
  | scanIoerr (inEos : Bool) (inData inCause : Byte)
  /-- `SCAN_EOS`: `0 1 --------` in SEEKING (R78, R103). -/
  | scanEos (inData : Byte)
  /-- `SCAN_HIT`: `0 0 01000111` in SEEKING (R78, R101). -/
  | scanHit
  /-- `SCAN_SKIP`: `0 0 dddddddd`, `d ≠ 0x47`, in SEEKING (R78, R102). -/
  | scanSkip (inData : Byte)
  /-- `FILL_IOERR`: `1 - --------` in DECODING, with the side value `in_cause` (R79, R167). -/
  | fillIoerr (inEos : Bool) (inData inCause : Byte)
  /-- `FILL_EOS`: `0 1 --------` in DECODING (R79, R166). -/
  | fillEos (inData : Byte)
  /-- `FILL`: `0 0 dddddddd` in DECODING (R79, R164, R165). -/
  | fill (inData : Byte)
  /-- `TS_BAD_SYNC`: byte 0 is not 0x47 and `cfg.check_sync = 1` (R80, R123). -/
  | tsBadSync (sync : Byte) (hdr : HdrFields) (afc : BitVec 2) (afLength afFlags : Byte)
  /-- `TS_RESERVED`: `afc = 0b00` (R80, R126). -/
  | tsReserved (sync : Byte) (hdr : HdrFields) (afLength afFlags : Byte)
  /-- `TS_PAYLOAD`: `afc = 0b01` (R80, R127). -/
  | tsPayload (sync : Byte) (hdr : HdrFields) (afLength afFlags : Byte)
  /-- `TS_AF_ONLY`: `afc = 0b10`, `L = 183` (R80, R146). -/
  | tsAfOnly (sync : Byte) (hdr : HdrFields) (afFlags : Byte)
  /-- `TS_AF_ONLY_BADLEN`: `afc = 0b10`, `L ≠ 183` (R80, R144). -/
  | tsAfOnlyBadlen (sync : Byte) (hdr : HdrFields) (afLength afFlags : Byte)
  /-- `TS_AF_PAYLOAD_EMPTY`: `afc = 0b11`, `L = 0` (R80, R147). -/
  | tsAfPayloadEmpty (sync : Byte) (hdr : HdrFields) (afFlags : Byte)
  /-- `TS_AF_PAYLOAD`: `afc = 0b11`, `1 ≤ L ≤ 182` (R80, R148). -/
  | tsAfPayload (sync : Byte) (hdr : HdrFields) (afLength afFlags : Byte)
  /-- `TS_AF_PAYLOAD_BADLEN`: `afc = 0b11`, `L ≥ 183` (R80, R144). -/
  | tsAfPayloadBadlen (sync : Byte) (hdr : HdrFields) (afLength afFlags : Byte)
  /-- `RESET`: event word `1 - -`, with the side value of the three `cfg_*` pins (R93, R220). -/
  | reset (outFire inFire : Bool) (cfg : Cfg)
  /-- `OUT`: event word `0 1 0` (R93, R168). -/
  | out
  /-- `FIND_SYNC`: contract-level, not selected by bits (R90, R100). -/
  | findSync
  /-- `DECODE`: contract-level, not selected by bits (R90, R120). -/
  | decode
  /-- `NEXT`: contract-level, not selected by bits (R90, R162). -/
  | next
  /-- `IS_PAT`: accessor, not selected by bits (R90, R130). -/
  | isPat
  /-- `HAS_AF`: accessor, not selected by bits (R90, R131). -/
  | hasAf
  /-- `HAS_PAYLOAD`: accessor, not selected by bits (R90, R132). -/
  | hasPayload
  deriving DecidableEq, Repr

end Sys2Proof
end

