-- ==== Sys2Proof/WellFormed.lean ====
section
/-! DEFINITION. The constraints of the opcode table that a row's mask cannot express (`30_encoding.md` R93), as a check
on instructions, and the configuration in which a packet form can be selected (R80). -/

namespace Sys2Proof

/-- The row's constraint on its own operands (the `constraint` column of `spec/opcode_table.json`). -/
def Instr.wf : Instr → Bool
  | .scanIoerr _ _ _ => true
  | .scanEos _ => true
  | .scanHit => true
  | .scanSkip inData => inData != Config.syncByte
  | .fillIoerr _ _ _ => true
  | .fillEos _ => true
  | .fill _ => true
  | .tsBadSync sync _ _ _ _ => sync != Config.syncByte
  | .tsReserved _ _ _ _ => true
  | .tsPayload _ _ _ _ => true
  | .tsAfOnly _ _ _ => true
  | .tsAfOnlyBadlen _ _ afLength _ => afLength != Config.afLenNoPayload
  | .tsAfPayloadEmpty _ _ _ => true
  | .tsAfPayload _ _ afLength _ => decide (1#8 ≤ afLength) && decide (afLength ≤ Config.afLenMaxWithPayload)
  | .tsAfPayloadBadlen _ _ afLength _ => decide (Config.afLenNoPayload ≤ afLength)
  | .reset _ _ _ => true
  | .out => true
  | .findSync => true
  | .decode => true
  | .next => true
  | .isPat => true
  | .hasAf => true
  | .hasPayload => true

/-- A packet form other than `TS_BAD_SYNC` is reached only past the sync check, `TS_BAD_SYNC` only by it (R80: rows are
tried top to bottom; R123). -/
def passesSyncCheck (cfg : Cfg) (sync : Byte) : Bool := !cfg.checkSync || sync == Config.syncByte

/-- The context column of the table: in which state and configuration the row's word is looked at. The contract-level
rows have none: a decoder never selects them (R93). -/
def Instr.inContext (st : St) (cfg : Cfg) : Instr → Bool
  | .scanIoerr _ _ _ => st == .seeking
  | .scanEos _ => st == .seeking
  | .scanHit => st == .seeking
  | .scanSkip _ => st == .seeking
  | .fillIoerr _ _ _ => st == .decoding
  | .fillEos _ => st == .decoding
  | .fill _ => st == .decoding
  | .tsBadSync _ _ _ _ _ => st == .decoding && cfg.checkSync
  | .tsReserved sync _ _ _ => st == .decoding && passesSyncCheck cfg sync
  | .tsPayload sync _ _ _ => st == .decoding && passesSyncCheck cfg sync
  | .tsAfOnly sync _ _ => st == .decoding && passesSyncCheck cfg sync
  | .tsAfOnlyBadlen sync _ _ _ => st == .decoding && passesSyncCheck cfg sync
  | .tsAfPayloadEmpty sync _ _ => st == .decoding && passesSyncCheck cfg sync
  | .tsAfPayload sync _ _ _ => st == .decoding && passesSyncCheck cfg sync
  | .tsAfPayloadBadlen sync _ _ _ => st == .decoding && passesSyncCheck cfg sync
  | .reset _ _ _ => true
  | .out => st == .yield || st == .decodeFailed || st == .seekFailed
  | .findSync => false
  | .decode => false
  | .next => false
  | .isPat => false
  | .hasAf => false
  | .hasPayload => false

end Sys2Proof
end

