-- ==== Sys2Proof/Decode.lean ====
section
/-! DEFINITION. The words of the three formats (`30_encoding.md` R70, R71, R93), the decoder from words to instructions
(R78, R79, R80), the encoder, the rows of the opcode table as masks and patterns, and the table word of the host. -/

namespace Sys2Proof

/-- `v` placed in a word of `w` bits with its bit 0 at bit `k`. -/
def place (w k : Nat) {n : Nat} (v : BitVec n) : BitVec w := v.setWidth w <<< k

/-- A word the decoder is given: an event word with the `cfg_*` pins of its edge, a beat word with its side value
`in_cause`, or a packet prefix. -/
inductive Word where
  /-- `{rst, out_fire, in_fire}` (R93) and the three `cfg_*` pins, which `RESET` samples (`10_state.md` R32). -/
  | event (w : BitVec 3) (cfgPins : Cfg)
  /-- `{in_err, in_eos, in_data[7:0]}` and `in_cause[7:0]` (R70). -/
  | beat (w : BitVec 10) (inCause : Byte)
  /-- `P = {W[0], ..., W[5]}`, `W[0]` in bits 47:40 (R71). -/
  | packet (p : BitVec 48)
  deriving DecidableEq, Repr

/-- Why a word selects no instruction. -/
inductive Reject where
  /-- Event word `0 0 0`: a clock edge on which no event happens (`70_reset_and_hazards.md` R232). -/
  | noEvent
  /-- Event word `0 0 1`: an `IN` event; its beat word, not the event word, selects the row. -/
  | beatEvent
  /-- Event word `0 1 1`: `OUT` and `IN` together, which never happens (`43_stream_iterator.md` R160). -/
  | bothFire
  /-- `OUT` in a state that holds no result (R160). -/
  | outNotEnabled
  /-- A beat in a state that accepts none (R160). -/
  | beatNotAccepted
  /-- A packet prefix in a state other than DECODING, in which no window completes (R165). -/
  | noWindow
  deriving DecidableEq, Repr

/-! ## Beats -/

/-- The three kinds of beat (R70, `20_memory.md` R50). -/
inductive Beat where
  | data (b : Byte)
  | eos
  | ioerr (cause : Byte)
  deriving DecidableEq, Repr

/-- `in_err`, bit 9 of the beat word (R70). -/
def beatErr (w : BitVec 10) : Bool := w.getLsbD 9

/-- `in_eos`, bit 8 of the beat word (R70). -/
def beatEos (w : BitVec 10) : Bool := w.getLsbD 8

/-- `in_data`, bits 7:0 of the beat word (R70). -/
def beatData (w : BitVec 10) : Byte := w.extractLsb' 0 8

/-- The beat a word stands for: `in_err` wins over `in_eos` wins over data (R70). -/
def Beat.ofWord (w : BitVec 10) (inCause : Byte) : Beat :=
  if beatErr w then .ioerr inCause else if beatEos w then .eos else .data (beatData w)

/-- The beat word of three pins (R70). -/
def beatWord (inErr inEos : Bool) (inData : Byte) : BitVec 10 :=
  place 10 9 (BitVec.ofBool inErr) ||| place 10 8 (BitVec.ofBool inEos) ||| place 10 0 inData

/-- The rows of R78: a beat in SEEKING. -/
def decodeScan (w : BitVec 10) (inCause : Byte) : Instr :=
  match Beat.ofWord w inCause with
  | .ioerr c => .scanIoerr (beatEos w) (beatData w) c
  | .eos => .scanEos (beatData w)
  | .data b => if b = Config.syncByte then .scanHit else .scanSkip b

/-- The rows of R79: a beat in DECODING; the data byte is not inspected. -/
def decodeFill (w : BitVec 10) (inCause : Byte) : Instr :=
  match Beat.ofWord w inCause with
  | .ioerr c => .fillIoerr (beatEos w) (beatData w) c
  | .eos => .fillEos (beatData w)
  | .data b => .fill b

/-- A beat in a state: only SEEKING and DECODING accept one (R160). -/
def decodeBeat (st : St) (w : BitVec 10) (inCause : Byte) : Except Reject Instr :=
  match st with
  | .seeking => .ok (decodeScan w inCause)
  | .decoding => .ok (decodeFill w inCause)
  | .yield => .error .beatNotAccepted
  | .decodeFailed => .error .beatNotAccepted
  | .seekFailed => .error .beatNotAccepted
  | .terminated => .error .beatNotAccepted
  | .fatal => .error .beatNotAccepted

/-! ## Events -/

/-- The event word of three conditions (R93). -/
def eventWord (rst outFire inFire : Bool) : BitVec 3 :=
  place 3 2 (BitVec.ofBool rst) ||| place 3 1 (BitVec.ofBool outFire) ||| place 3 0 (BitVec.ofBool inFire)

/-- The states that hold a result, in which `out_valid = 1` (`10_state.md` R43). -/
def St.holding (st : St) : Bool := st == .yield || st == .decodeFailed || st == .seekFailed

/-- `RESET` wins over everything (priority 0), then `OUT` (priority 1), never together with an `IN` (R93, R160). -/
def decodeEvent (st : St) (w : BitVec 3) (cfgPins : Cfg) : Except Reject Instr :=
  if w.getLsbD 2 then .ok (.reset (w.getLsbD 1) (w.getLsbD 0) cfgPins)
  else if w.getLsbD 1 then
    if w.getLsbD 0 then .error .bothFire else if st.holding then .ok .out else .error .outNotEnabled
  else if w.getLsbD 0 then .error .beatEvent
  else .error .noEvent

/-! ## Packet forms -/

/-- The packet prefix of the first six bytes of a window (R71). -/
def prefixOf (b0 b1 b2 b3 b4 b5 : Byte) : BitVec 48 :=
  place 48 40 b0 ||| place 48 32 b1 ||| place 48 24 b2 ||| place 48 16 b3 ||| place 48 8 b4 ||| place 48 0 b5

/-- `P[47:40]`, byte 0 (R72). -/
def prefixSync (p : BitVec 48) : Byte := p.extractLsb' 40 8

/-- `P[21:20]`, `adaptation_field_control` (R73: bits 5:4 of `W[3]`). -/
def prefixAfc (p : BitVec 48) : BitVec 2 := p.extractLsb' 20 2

/-- `P[15:8]`, `W[4]` (R75). -/
def prefixLen (p : BitVec 48) : Byte := p.extractLsb' 8 8

/-- `P[7:0]`, `W[5]` (R76). -/
def prefixFlags (p : BitVec 48) : Byte := p.extractLsb' 0 8

/-- The other header fields at their positions (R73). -/
def prefixHdr (p : BitVec 48) : HdrFields :=
  { tei := p.getLsbD 39
    pusi := p.getLsbD 38
    tp := p.getLsbD 37
    pid := p.extractLsb' 24 13
    tsc := p.extractLsb' 22 2
    cc := p.extractLsb' 16 4 }

/-- The form a full window's prefix selects: the rows of R80 from top to bottom, the first that matches. -/
def decodePacket (cfg : Cfg) (p : BitVec 48) : Instr :=
  if cfg.checkSync && prefixSync p != Config.syncByte then
    .tsBadSync (prefixSync p) (prefixHdr p) (prefixAfc p) (prefixLen p) (prefixFlags p)
  else if prefixAfc p = 0b00#2 then
    .tsReserved (prefixSync p) (prefixHdr p) (prefixLen p) (prefixFlags p)
  else if prefixAfc p = 0b01#2 then
    .tsPayload (prefixSync p) (prefixHdr p) (prefixLen p) (prefixFlags p)
  else if prefixAfc p = 0b10#2 then
    if prefixLen p = Config.afLenNoPayload then .tsAfOnly (prefixSync p) (prefixHdr p) (prefixFlags p)
    else .tsAfOnlyBadlen (prefixSync p) (prefixHdr p) (prefixLen p) (prefixFlags p)
  else
    if prefixLen p = 0#8 then .tsAfPayloadEmpty (prefixSync p) (prefixHdr p) (prefixFlags p)
    else if prefixLen p ≤ Config.afLenMaxWithPayload then
      .tsAfPayload (prefixSync p) (prefixHdr p) (prefixLen p) (prefixFlags p)
    else .tsAfPayloadBadlen (prefixSync p) (prefixHdr p) (prefixLen p) (prefixFlags p)

/-! ## The decoder -/

/-- The decoder: total on every word in every state and configuration (`60_exceptions.md` R214), rejecting by name. -/
def decodeWord (st : St) (cfg : Cfg) : Word → Except Reject Instr
  | .event w cfgPins => decodeEvent st w cfgPins
  | .beat w inCause => decodeBeat st w inCause
  | .packet p => if st = .decoding then .ok (decodePacket cfg p) else .error .noWindow

/-! ## The encoder -/

/-- `pack_header` of `30_encoding.md` R84: bytes 1 to 3 of a packet from its fields. -/
def packHeader (h : HdrFields) (afc : BitVec 2) : Byte × Byte × Byte :=
  ( place 8 7 (BitVec.ofBool h.tei) ||| place 8 6 (BitVec.ofBool h.pusi) ||| place 8 5 (BitVec.ofBool h.tp)
      ||| place 8 0 (h.pid.extractLsb' 8 5),
    h.pid.extractLsb' 0 8,
    place 8 6 h.tsc ||| place 8 4 afc ||| place 8 0 h.cc )

/-- The prefix of a packet with the given fields (R71, R84). -/
def packPrefix (sync : Byte) (h : HdrFields) (afc : BitVec 2) (afLength afFlags : Byte) : BitVec 48 :=
  prefixOf sync (packHeader h afc).1 (packHeader h afc).2.1 (packHeader h afc).2.2 afLength afFlags

/-- The word of an instruction; none for the contract-level rows, which no word selects (R93). -/
def encode : Instr → Option Word
  | .scanIoerr inEos inData inCause => some (.beat (beatWord true inEos inData) inCause)
  | .scanEos inData => some (.beat (beatWord false true inData) 0#8)
  | .scanHit => some (.beat (beatWord false false Config.syncByte) 0#8)
  | .scanSkip inData => some (.beat (beatWord false false inData) 0#8)
  | .fillIoerr inEos inData inCause => some (.beat (beatWord true inEos inData) inCause)
  | .fillEos inData => some (.beat (beatWord false true inData) 0#8)
  | .fill inData => some (.beat (beatWord false false inData) 0#8)
  | .tsBadSync sync h afc l f => some (.packet (packPrefix sync h afc l f))
  | .tsReserved sync h l f => some (.packet (packPrefix sync h 0b00#2 l f))
  | .tsPayload sync h l f => some (.packet (packPrefix sync h 0b01#2 l f))
  | .tsAfOnly sync h f => some (.packet (packPrefix sync h 0b10#2 Config.afLenNoPayload f))
  | .tsAfOnlyBadlen sync h l f => some (.packet (packPrefix sync h 0b10#2 l f))
  | .tsAfPayloadEmpty sync h f => some (.packet (packPrefix sync h 0b11#2 0#8 f))
  | .tsAfPayload sync h l f => some (.packet (packPrefix sync h 0b11#2 l f))
  | .tsAfPayloadBadlen sync h l f => some (.packet (packPrefix sync h 0b11#2 l f))
  | .reset outFire inFire cfg => some (.event (eventWord true outFire inFire) cfg)
  | .out => some (.event (eventWord false true false) Cfg.recommended)
  | .findSync => none
  | .decode => none
  | .next => none
  | .isPat => none
  | .hasAf => none
  | .hasPayload => none

/-! ## The opcode table as rows -/

/-- The constraint column: what a row's mask cannot express (R93). -/
inductive Side where
  | always
  /-- `in_data != 0x47` -/
  | dataNotSync
  /-- `P[47:40] != 0x47 and cfg.check_sync == 1` -/
  | badSyncChecked
  /-- `P[15:8] != 183` -/
  | lenNot183
  /-- `1 <= P[15:8] <= 182` -/
  | len1To182
  /-- `P[15:8] >= 183` -/
  | lenFrom183
  /-- `out_fire` never together with `in_fire` -/
  | notInFire
  /-- not selected by bits -/
  | never
  deriving DecidableEq, Repr

/-- One row of `spec/opcode_table.json`; the word is read as one number of at most 48 bits. -/
structure Row where
  mnemonic : String
  pattern : BitVec 48
  mask : BitVec 48
  side : Side
  deriving DecidableEq, Repr

def Side.holds (cfg : Cfg) (w : BitVec 48) : Side → Bool
  | .always => true
  | .dataNotSync => prefixFlags w != Config.syncByte
  | .badSyncChecked => prefixSync w != Config.syncByte && cfg.checkSync
  | .lenNot183 => prefixLen w != 183#8
  | .len1To182 => decide (1#8 ≤ prefixLen w) && decide (prefixLen w ≤ 182#8)
  | .lenFrom183 => decide (183#8 ≤ prefixLen w)
  | .notInFire => !w.getLsbD 0
  | .never => false

/-- "A word `w` matches a row when `(w & mask) == match` and the constraint holds" (R93). -/
def Row.applies (cfg : Cfg) (w : BitVec 48) (r : Row) : Bool := w &&& r.mask == r.pattern && r.side.holds cfg w

/-- The row of an instruction, copied from `spec/opcode_table.json`. -/
def Instr.row : Instr → Row
  | .scanIoerr _ _ _ => ⟨"SCAN_IOERR", 0x200, 0x200, .always⟩
  | .scanEos _ => ⟨"SCAN_EOS", 0x100, 0x300, .always⟩
  | .scanHit => ⟨"SCAN_HIT", 0x047, 0x3FF, .always⟩
  | .scanSkip _ => ⟨"SCAN_SKIP", 0x000, 0x300, .dataNotSync⟩
  | .fillIoerr _ _ _ => ⟨"FILL_IOERR", 0x200, 0x200, .always⟩
  | .fillEos _ => ⟨"FILL_EOS", 0x100, 0x300, .always⟩
  | .fill _ => ⟨"FILL", 0x000, 0x300, .always⟩
  | .tsBadSync _ _ _ _ _ => ⟨"TS_BAD_SYNC", 0x000000000000, 0x000000000000, .badSyncChecked⟩
  | .tsReserved _ _ _ _ => ⟨"TS_RESERVED", 0x000000000000, 0x000000300000, .always⟩
  | .tsPayload _ _ _ _ => ⟨"TS_PAYLOAD", 0x000000100000, 0x000000300000, .always⟩
  | .tsAfOnly _ _ _ => ⟨"TS_AF_ONLY", 0x00000020B700, 0x00000030FF00, .always⟩
  | .tsAfOnlyBadlen _ _ _ _ => ⟨"TS_AF_ONLY_BADLEN", 0x000000200000, 0x000000300000, .lenNot183⟩
  | .tsAfPayloadEmpty _ _ _ => ⟨"TS_AF_PAYLOAD_EMPTY", 0x000000300000, 0x00000030FF00, .always⟩
  | .tsAfPayload _ _ _ _ => ⟨"TS_AF_PAYLOAD", 0x000000300000, 0x000000300000, .len1To182⟩
  | .tsAfPayloadBadlen _ _ _ _ => ⟨"TS_AF_PAYLOAD_BADLEN", 0x000000300000, 0x000000300000, .lenFrom183⟩
  | .reset _ _ _ => ⟨"RESET", 0x4, 0x4, .always⟩
  | .out => ⟨"OUT", 0x2, 0x6, .notInFire⟩
  | .findSync => ⟨"FIND_SYNC", 0x0, 0x0, .never⟩
  | .decode => ⟨"DECODE", 0x0, 0x0, .never⟩
  | .next => ⟨"NEXT", 0x0, 0x0, .never⟩
  | .isPat => ⟨"IS_PAT", 0x0, 0x0, .never⟩
  | .hasAf => ⟨"HAS_AF", 0x0, 0x0, .never⟩
  | .hasPayload => ⟨"HAS_PAYLOAD", 0x0, 0x0, .never⟩

/-- Any header fields, to name a row without its operands. -/
def HdrFields.zero : HdrFields := ⟨false, false, false, 0, 0, 0⟩

/-- The event rows whose context is the state, in priority order (R93): `RESET` in any state, `OUT` in a holding one. -/
def eventRows (st : St) : List Row :=
  if st.holding then [(Instr.reset false false Cfg.recommended).row, Instr.out.row]
  else [(Instr.reset false false Cfg.recommended).row]

/-- The rows of context SEEKING in priority order (R78). -/
def scanRows : List Row :=
  [(Instr.scanIoerr false 0 0).row, (Instr.scanEos 0).row, Instr.scanHit.row, (Instr.scanSkip 0).row]

/-- The rows of context DECODING in priority order (R79). -/
def fillRows : List Row := [(Instr.fillIoerr false 0 0).row, (Instr.fillEos 0).row, (Instr.fill 0).row]

/-- The rows of a full window in priority order (R80). -/
def packetRows : List Row :=
  [(Instr.tsBadSync 0 .zero 0 0 0).row, (Instr.tsReserved 0 .zero 0 0).row, (Instr.tsPayload 0 .zero 0 0).row,
   (Instr.tsAfOnly 0 .zero 0).row, (Instr.tsAfOnlyBadlen 0 .zero 0 0).row, (Instr.tsAfPayloadEmpty 0 .zero 0).row,
   (Instr.tsAfPayload 0 .zero 0 0).row, (Instr.tsAfPayloadBadlen 0 .zero 0 0).row]

/-- The bits of a word, read as one number (R93). -/
def Word.bits : Word → BitVec 48
  | .event w _ => w.setWidth 48
  | .beat w _ => w.setWidth 48
  | .packet p => p

/-! ## The table word -/

/-- Which of the three formats a word of `nbits` table bits has: an event word has 3 bits, a beat word 10, a packet
prefix 48 of which a row names at least bits 21:20 (R93). The table gives a word no context, so one is chosen (log 14):
the reset state SEEKING for beats (the words of the DECODING rows are the same words), YIELD for `OUT`, DECODING
with `cfg.check_sync = 0` for packet forms (the rows leave the sync byte open, and it is 0 in the word asked). -/
def tableWord (nbits w : Nat) : Option Word :=
  if nbits ≤ 8 then if w < 2 ^ 3 then some (.event (BitVec.ofNat 3 w) Cfg.recommended) else none
  else if nbits ≤ 16 then if w < 2 ^ 10 then some (.beat (BitVec.ofNat 10 w) 0#8) else none
  else if w < 2 ^ 48 then some (.packet (BitVec.ofNat 48 w)) else none

/-- The state in which a table word is looked at (log 14). -/
def tableContext : Word → St
  | .event _ _ => .yield
  | .beat _ _ => .seeking
  | .packet _ => .decoding

/-- The configuration in which a table word is looked at (log 14). -/
def tableCfg : Cfg := { Cfg.recommended with checkSync := false }

/-- The instruction the decoder reads from a word of the opcode table, in the context of log 14. -/
def decodeTableWord (nbits w : Nat) : Option Instr :=
  match tableWord nbits w with
  | none => none
  | some word =>
    match decodeWord (tableContext word) tableCfg word with
    | .ok i => some i
    | .error _ => none

end Sys2Proof
end

