-- ==== Sys2Proof/Machine/State.lean ====
section
/-! DEFINITION. The state of the machine as plain data, the results it delivers, the pins of a clock edge, the reasons
a step stops, and the state after reset. -/

namespace Sys2Proof.Machine

/-! ## Results -/

/-- The header fields of a decoded packet (`10_state.md` R27). -/
structure Header where
  tei : Bool
  pusi : Bool
  tp : Bool
  /-- 16 bits, the top three hardwired to zero by the one operation that makes it (`30_encoding.md` R74). -/
  pid : BitVec 16
  tsc : BitVec 2
  afc : BitVec 2
  cc : BitVec 4
  deriving DecidableEq, Repr

/-- The eight independent flags of an adaptation field (R28). -/
structure AfFlags where
  di : Bool
  rai : Bool
  espi : Bool
  pcr : Bool
  opcr : Bool
  sp : Bool
  tpd : Bool
  afe : Bool
  deriving DecidableEq, Repr

/-- An adaptation field: its length byte, and its flags iff the length is not 0 (R28). -/
structure AdaptationField where
  length : Byte
  header : Option AfFlags
  deriving DecidableEq, Repr

/-- A decoded packet (`41_header_decoder.md` R120, R128). -/
structure TransportPacket where
  header : Header
  adaptationField : Option AdaptationField
  deriving DecidableEq, Repr

/-- The error codes 1 to 6 (`60_exceptions.md` R190); code 0 is no error, code 7 is unused (log 5). -/
inductive ErrCode where
  | syncIo
  | readIo
  | shortBuffer
  | badSync
  | invalidAfLength
  | reservedAfc
  deriving DecidableEq, Repr

/-- What the result register holds when it holds something (`10_state.md` R26, R29). -/
inductive Result where
  /-- `Packet(pkt, offset)`, `RES.kind = 0`. -/
  | packet (pkt : TransportPacket) (offset : Nat)
  /-- `Error(code, info, cause, offset)`, `RES.kind = 1`. -/
  | error (code : ErrCode) (info cause : Byte) (offset : Nat)
  deriving DecidableEq, Repr

/-! ## Answers of the contract-level operations -/

/-- The errors of the function `decode` (R120, R192); `InvalidAdaptationFieldLength` carries the observed length. -/
inductive DecodeError where
  | shortBuffer
  | badSync (observed : Byte)
  | reservedAfc (observed : Byte)
  | invalidAfLength (observed : Byte)
  deriving DecidableEq, Repr

/-- `Result<TransportPacket, DecodeError>` (R120). -/
inductive DecodeResult where
  | ok (pkt : TransportPacket)
  | err (e : DecodeError)
  deriving DecidableEq, Repr

/-- `Result<(), SyncError>`, with the offset of the sync byte found (`40_synchronizer.md` R100). -/
inductive SyncResult where
  | found (offset : Nat)
  | endOfStream
  | io (cause : Byte)
  deriving DecidableEq, Repr

/-- What a contract-level operation returns to its caller (`30_encoding.md` R90; log 10). -/
inductive Answer where
  /-- An accessor's bit (R130 to R132). -/
  | bit (b : Bool)
  /-- `FIND_SYNC` ended (R100). -/
  | sync (r : SyncResult)
  /-- `DECODE` (R120). -/
  | decoded (r : DecodeResult)
  /-- `NEXT` delivered a result (`43_stream_iterator.md` R162). -/
  | item (r : Result)
  /-- `NEXT` found the sequence over (R176). -/
  | ended
  /-- The operation still waits for a beat or for the Consumer, or a `RESET` comes first (R180, R221; log 11). -/
  | waiting
  deriving DecidableEq, Repr

/-! ## Pins -/

/-- The input pins at one clock edge (`10_state.md` R42, R43, R45, R32). The window read port's address is no event
and changes nothing (R44), so it stands in `winData`, not here. -/
structure Pins where
  rst : Bool
  cfg : Cfg
  inValid : Bool
  inErr : Bool
  inEos : Bool
  inData : Byte
  inCause : Byte
  outReady : Bool
  deriving DecidableEq, Repr

/-! ## The state -/

/-- The window `W` (R20): the bytes at window offsets 0 to 187 that are not 0x00, as cells with strictly rising offsets;
an unlisted offset reads 0x00, the reset value of R39 (log 17). -/
abbrev Memory := List Host.Cell

/-- Everything the spec gives the block (first eight fields), and the model's own fields for what stands around it. -/
structure State where
  /-- `ST` (R24). -/
  st : St
  /-- `IDX` (R21). -/
  idx : BitVec 8
  /-- `POS` (R22). -/
  pos : Nat
  /-- `PKT_OFF` (R23). -/
  pktOff : Nat
  /-- `W` (R20). -/
  w : Memory
  /-- `RES` (R26); `none` is the register with every field zero (log 6). -/
  res : Option Result
  /-- `CFG` (R32). -/
  cfg : Cfg
  /-- `STATUS.LAST_ERR` (R33); `none` is code 0. -/
  lastErr : Option ErrCode
  /-- The model's own: the clock edges the other agents still drive (log 1). -/
  inputs : List Pins
  /-- The model's own: the output sequence of the run, oldest first (`00_scope.md` R15 `emit`; log 8). -/
  emitted : List Result
  /-- The model's own: the bytes of the stream accepted since reset, `b[0]` first (R36, R22; log 9). -/
  stream : List Byte
  /-- The model's own: what the last contract-level operation returned (log 10). -/
  answer : Option Answer
  deriving DecidableEq, Repr

/-- Why the machine stops with a fault. -/
inductive Fault where
  /-- Raised by a beat, packet form, `OUT` or `FIND_SYNC` given to `exec` in a state that does not enable it, where the
  spec says the event cannot happen (R160, R170). Safe: the model stops; no step reaches it (log 7). -/
  | eventNotEnabled
  /-- Raised by `FILL` with `IDX` above 187, where the window has no byte (`70_reset_and_hazards.md` R239: no index
  can leave 0 to 187). Safe: the model stops; no reachable state has it (log 18). -/
  | windowOffset
  deriving DecidableEq, Repr

/-- Why the model refuses to go on. -/
inductive Refusal where
  /-- Raised by an arm of `exec` whose instruction has no meaning yet. Safe: the model stops. -/
  | notModelled (mnemonic : String)
  /-- Raised by a `DATA` beat that would make the stream 2^64 bytes long (R22, `93_implementation_defined.md` U15).
  Safe: the model stops (log 4). -/
  | streamTooLong
  deriving DecidableEq, Repr

/-- The state after `RESET` with the given values on the `cfg_*` pins (R39, `70_reset_and_hazards.md` R220), with no
clock edge placed, nothing emitted and nothing answered (log 8, log 10, log 15). -/
def State.resetWith (cfg : Cfg) : State :=
  { st := .seeking
    idx := 0#8
    pos := 0
    pktOff := 0
    w := []
    res := none
    cfg := cfg
    lastErr := none
    inputs := []
    emitted := []
    stream := []
    answer := none }

/-- The state after `RESET` with the recommended values on the `cfg_*` pins (R14; log 3). -/
def State.reset : State := State.resetWith Cfg.recommended

end Sys2Proof.Machine
end

