-- ==== Sys2Proof/Machine/Ops.lean ====
section
/-! DEFINITION. The named operations over the window and the registers: reading and writing a window byte, accepting a
byte of the stream, enabling, loading a packet, taking an error (`raise`) and the return from it (`OUT`), and reset. -/

namespace Sys2Proof.Machine

/-- The three outcomes of an operation of this machine. -/
abbrev Out := Host.Outcome State Fault Refusal

/-- Go on with `k` from a next state; hand a stop up as it is. -/
def andThen (o : Out) (k : State → Out) : Out :=
  match o with
  | .next s => k s
  | .fault f => .fault f
  | .refused r => .refused r

/-! ## The window -/

/-- `W[a]` (`10_state.md` R20); an unlisted offset reads 0x00 (R39). -/
def Memory.read : Memory → Nat → Byte
  | [], _ => 0#8
  | (b, x) :: m, a => if a = b then x else Memory.read m a

/-- `W[a] <- v`, keeping the canonical form: offsets strictly rising, no 0x00 listed. -/
def Memory.write : Memory → Nat → Byte → Memory
  | [], a, v => if v = 0#8 then [] else [(a, v)]
  | (b, x) :: m, a, v =>
    if a < b then (if v = 0#8 then (b, x) :: m else (a, v) :: (b, x) :: m)
    else if a = b then (if v = 0#8 then m else (a, v) :: m)
    else (b, x) :: Memory.write m a v

/-- Every listed offset is above `lo`, the offsets rise strictly, and no listed byte is 0x00. -/
def Memory.wfAbove (lo : Nat) : Memory → Bool
  | [] => true
  | (b, x) :: m => decide (lo ≤ b) && x != 0#8 && Memory.wfAbove (b + 1) m

/-- The canonical form of the window: listed offsets rise strictly and no listed byte is 0x00. -/
def Memory.wf (m : Memory) : Bool := Memory.wfAbove 0 m

/-- Every listed offset is one of the window space, 0 to 187 (`10_state.md` R36). -/
def Memory.inWindow (m : Memory) : Bool := m.all fun c => decide (c.1 < Config.packetLen)

/-! ## Enabling (`43_stream_iterator.md` R160) -/

/-- `in_ready` (R42): `IN` is enabled exactly in SEEKING and DECODING. -/
def inReady (s : State) : Bool := s.st == .seeking || s.st == .decoding

/-- `out_valid` (R43): `OUT` is enabled exactly in YIELD, DECODE_FAILED and SEEK_FAILED. -/
def outValid (s : State) : Bool := s.st.holding

/-- TERMINATED or FATAL: no event but `RESET` is enabled (R176). -/
def ended (s : State) : Bool := s.st == .terminated || s.st == .fatal

/-- The window is full while a form is run: the moment inside the `FILL` event at which `W[187]` has been written and
the decoder is evaluated (R165). No state between two events is such a state. -/
def windowFull (s : State) : Bool := s.st == .decoding && s.idx == 188#8

/-- An event in a state that does not enable it cannot happen (R160, R170; log 7). -/
def whenEnabled (enabled : Bool) (o : Out) : Out := if enabled then o else .fault .eventNotEnabled

/-- A `DATA` beat that would make the stream 2^64 bytes long is refused (`10_state.md` R22; log 4). -/
def whenRoom (s : State) (o : Out) : Out :=
  if s.pos + 1 < Config.streamLimit then o else .refused .streamTooLong

/-! ## Accepting a byte of the stream -/

/-- `POS <- POS + 1` for an accepted `DATA` beat (R22); the byte joins the stream read so far (log 9). -/
def acceptByte (d : Byte) (s : State) : State := { s with pos := s.pos + 1, stream := s.stream ++ [d] }

/-- `W[IDX] <- d` and `IDX <- IDX + 1` (`43_stream_iterator.md` R164). -/
def storeByte (d : Byte) (s : State) : State :=
  { s with w := Memory.write s.w s.idx.toNat d, idx := s.idx + 1#8 }

/-- `W[0] <- 0x47`, `PKT_OFF <- POS`, `IDX <- 1`, `ST <- DECODING`, with `POS` the value before the event
(`40_synchronizer.md` R101). -/
def openWindow (s : State) : State :=
  { s with w := Memory.write s.w 0 Config.syncByte, pktOff := s.pos, idx := 1#8, st := .decoding }

/-! ## Results -/

/-- Loading a decoded packet: `RES <- Packet(pkt, PKT_OFF)`, `ST <- YIELD` (`41_header_decoder.md` R128). -/
def loadPacket (pkt : TransportPacket) (s : State) : State :=
  { s with res := some (.packet pkt s.pktOff), st := .yield }

/-- Where an error is held: SEEK_FAILED for the I/O errors, DECODE_FAILED for the others (`60_exceptions.md` R200). -/
def errorState : ErrCode → St
  | .syncIo => .seekFailed
  | .readIo => .seekFailed
  | .shortBuffer => .decodeFailed
  | .badSync => .decodeFailed
  | .invalidAfLength => .decodeFailed
  | .reservedAfc => .decodeFailed

/-- TAKING AN ERROR, `raise E(info)`: the result register is loaded with the error, `STATUS.LAST_ERR` is set, and the
error is held; nothing else changes (R200). -/
def raise (code : ErrCode) (info cause : Byte) (offset : Nat) (s : State) : State :=
  { s with res := some (.error code info cause offset), lastErr := some code, st := errorState code }

/-- The code of the error held in `RES` (`RES.err`); none while `RES` holds a packet or nothing. -/
def heldError (s : State) : Option ErrCode :=
  match s.res with
  | some (.error code _ _ _) => some code
  | some (.packet _ _) => none
  | none => none

/-- The state an `OUT` leads to (`43_stream_iterator.md` R168). -/
def afterOut (s : State) : St :=
  match s.st with
  | .yield => .seeking
  | .decodeFailed => if heldError s != some .shortBuffer && s.cfg.resync then .seeking else .fatal
  | .seekFailed => .fatal
  | .seeking => .seeking
  | .decoding => .decoding
  | .terminated => .terminated
  | .fatal => .fatal

/-- THE RETURN, `OUT` (R168, `60_exceptions.md` R203): the held result joins the output sequence, `RES` and `IDX` are
cleared, and `ST` moves on. -/
def takeResult (s : State) : State :=
  { s with emitted := s.emitted ++ s.res.toList, res := none, idx := 0#8, st := afterOut s }

/-! ## Reset -/

/-- `RESET` (`70_reset_and_hazards.md` R220): every piece of state takes its reset value and `CFG` the values on the
pins; only the clock edges still to come stay. -/
def resetTo (cfg : Cfg) (s : State) : State := { State.resetWith cfg with inputs := s.inputs }

/-! ## Answers -/

/-- The answer of a contract-level operation, beside which nothing changes (log 10). -/
def answerWith (a : Answer) (s : State) : State := { s with answer := some a }

end Sys2Proof.Machine
end

