-- ==== Sys2Proof/Machine/Flags.lean ====
section
/-! DEFINITION. The flags: unpacking and packing the adaptation-field flag byte (`42_adaptation_field.md` R145,
`30_encoding.md` R76, R84), and the three accessors (`41_header_decoder.md` R130 to R132). -/

namespace Sys2Proof.Machine

/-- `unpack_af_flags` (R145): the first listed flag at bit 7, the last at bit 0. -/
def unpackAfFlags (b5 : Byte) : AfFlags :=
  { di := b5.getLsbD 7
    rai := b5.getLsbD 6
    espi := b5.getLsbD 5
    pcr := b5.getLsbD 4
    opcr := b5.getLsbD 3
    sp := b5.getLsbD 2
    tpd := b5.getLsbD 1
    afe := b5.getLsbD 0 }

/-- `pack_af_flags` (R84). -/
def packAfFlags (f : AfFlags) : Byte :=
  place 8 7 (BitVec.ofBool f.di) ||| place 8 6 (BitVec.ofBool f.rai) ||| place 8 5 (BitVec.ofBool f.espi)
    ||| place 8 4 (BitVec.ofBool f.pcr) ||| place 8 3 (BitVec.ofBool f.opcr) ||| place 8 2 (BitVec.ofBool f.sp)
    ||| place 8 1 (BitVec.ofBool f.tpd) ||| place 8 0 (BitVec.ofBool f.afe)

/-- `is_pat = (pid == 0x0000)` (R130). -/
def Header.isPat (h : Header) : Bool := h.pid == 0x0000#16

/-- `has_af = afc[1]` (R131). -/
def Header.hasAf (h : Header) : Bool := h.afc.getLsbD 1

/-- `has_payload = afc[0]` (R132). -/
def Header.hasPayload (h : Header) : Bool := h.afc.getLsbD 0

/-- The packet on the output port: the one held in YIELD; none while an error or nothing is offered
(`10_state.md` R26, R30, R43). -/
def offeredPacket (s : State) : Option TransportPacket :=
  if outValid s then
    match s.res with
    | some (.packet pkt _) => some pkt
    | some (.error _ _ _ _) => none
    | none => none
  else none

/-- Pin `out_is_pat`: valid when a packet is offered, zero otherwise (R30, R130). -/
def outIsPat (s : State) : Bool := ((offeredPacket s).map fun p => p.header.isPat).getD false

/-- Pin `out_has_af` (R30, R131). -/
def outHasAf (s : State) : Bool := ((offeredPacket s).map fun p => p.header.hasAf).getD false

/-- Pin `out_has_payload` (R30, R132). -/
def outHasPayload (s : State) : Bool := ((offeredPacket s).map fun p => p.header.hasPayload).getD false

end Sys2Proof.Machine
end

