-- ==== Sys2Proof/Machine/Operands.lean ====
section
/-! DEFINITION. Operand forms: the bytes of the window, its prefix, and the header and adaptation field made of an
instruction's operands or of bytes 1 to 5 (`30_encoding.md` R73, R74; `41_header_decoder.md` R121). -/

namespace Sys2Proof.Machine

/-- `pid = zext_16({b1[4:0], b2[7:0]})`, computed in 16 bits (R74). -/
def assemblePid (b1 b2 : Byte) : BitVec 16 := ((b1.setWidth 16 &&& 0x1F#16) <<< 8) ||| b2.setWidth 16

/-- `unpack_header` (R121): total on every triple of bytes. -/
def unpackHeader (b1 b2 b3 : Byte) : Header :=
  { tei := b1.getLsbD 7
    pusi := b1.getLsbD 6
    tp := b1.getLsbD 5
    pid := assemblePid b1 b2
    tsc := b3.extractLsb' 6 2
    afc := b3.extractLsb' 4 2
    cc := b3.extractLsb' 0 4 }

/-- The header of a packet form's operands, `pid` zero-extended to its 16-bit port (R27, R74). -/
def headerOf (h : HdrFields) (afc : BitVec 2) : Header :=
  { tei := h.tei, pusi := h.pusi, tp := h.tp, pid := h.pid.setWidth 16, tsc := h.tsc, afc := afc, cc := h.cc }

/-- The operand fields of a header: `pid` without its three hardwired zeros. -/
def fieldsOf (h : Header) : HdrFields :=
  { tei := h.tei, pusi := h.pusi, tp := h.tp, pid := h.pid.setWidth 13, tsc := h.tsc, cc := h.cc }

/-- Byte 3 of a packet with these fields, the byte that holds the control bits (R73, R84). -/
def headerByte3 (h : HdrFields) (afc : BitVec 2) : Byte := (packHeader h afc).2.2

/-- The packet prefix `P` of the window (R71). -/
def windowPrefix (s : State) : BitVec 48 :=
  prefixOf (Memory.read s.w 0) (Memory.read s.w 1) (Memory.read s.w 2) (Memory.read s.w 3) (Memory.read s.w 4)
    (Memory.read s.w 5)

/-- The valid bytes of the window, `W[0]` to `W[IDX-1]` (`10_state.md` R21). -/
def windowBytes (s : State) : List Byte := (List.range s.idx.toNat).map (Memory.read s.w)

/-- A packet without an adaptation field (`41_header_decoder.md` R126, R127). -/
def plainPacket (h : HdrFields) (afc : BitVec 2) : TransportPacket :=
  { header := headerOf h afc, adaptationField := none }

/-- A packet with an adaptation field (`42_adaptation_field.md` R146 to R148). -/
def fieldPacket (h : HdrFields) (afc : BitVec 2) (length : Byte) (flags : Option AfFlags) : TransportPacket :=
  { header := headerOf h afc, adaptationField := some { length := length, header := flags } }

end Sys2Proof.Machine
end

