-- ==== Sys2Proof/Machine/Contract.lean ====
section
/-! DEFINITION. The block's contract as pure functions: the byte source (`20_memory.md` R50), `find_sync`
(`40_synchronizer.md` R100), `decode` and `decode_af` (`41_header_decoder.md` R120, `42_adaptation_field.md` R140), the
whole block `iterate` (`43_stream_iterator.md` R163), and the payload range (`20_memory.md` R58). -/

namespace Sys2Proof.Machine

/-! ## The byte source -/

/-- What a source answers at its end (R50). -/
inductive Terminator where
  | eos
  | ioerr (cause : Byte)
  deriving DecidableEq, Repr

/-- A byte source `S = (b, term)` (R50). -/
structure Source where
  bytes : List Byte
  term : Terminator
  deriving DecidableEq, Repr

/-- The terminal beat of a source. -/
def Terminator.beat : Terminator → Beat
  | .eos => .eos
  | .ioerr c => .ioerr c

/-- The beats a source offers, in order, each once (R50). -/
def Source.beats (S : Source) : List Beat := S.bytes.map Beat.data ++ [S.term.beat]

/-- `MemRead(p, n)` (`00_scope.md` R15): `n` bytes from offset `p` when they exist, otherwise the terminator. -/
def Source.memRead (S : Source) (p n : Nat) : List Byte ⊕ Terminator :=
  if p + n ≤ S.bytes.length then .inl ((S.bytes.drop p).take n) else .inr S.term

/-! ## `find_sync` -/

/-- The least offset of a sync byte, the head of the list being at offset `p`. -/
def firstSync : List Byte → Nat → Option Nat
  | [], _ => none
  | b :: bs, p => if b = Config.syncByte then some p else firstSync bs (p + 1)

/-- `find_sync(S, p)` (R100). -/
def findSync (S : Source) (p : Nat) : SyncResult :=
  match firstSync (S.bytes.drop p) p with
  | some q => .found q
  | none =>
    match S.term with
    | .eos => .endOfStream
    | .ioerr c => .io c

/-! ## `decode` -/

/-- The length invariant (`42_adaptation_field.md` R143). -/
def legalLength (afc : BitVec 2) (length : Byte) : Bool :=
  (afc == 0b11#2 && decide (length ≤ Config.afLenMaxWithPayload))
    || (afc == 0b10#2 && length == Config.afLenNoPayload)

/-- `decode_af` (R140): the length check before the flag byte is looked at. -/
def decodeAf (afc : BitVec 2) (b4 b5 : Byte) : Except DecodeError AdaptationField :=
  if legalLength afc b4 then
    .ok { length := b4, header := if 0#8 < b4 then some (unpackAfFlags b5) else none }
  else .error (.invalidAfLength b4)

/-- Byte `i` of a buffer. -/
def byteAt (buf : List Byte) (i : Nat) : Byte := buf.getD i 0#8

/-- `decode(buf, n, cfg)` with `n` the number of bytes (R120): the four steps in order, the first failure deciding. -/
def decode (cfg : Cfg) (buf : List Byte) : DecodeResult :=
  if buf.length < Config.packetLen then .err .shortBuffer
  else if cfg.checkSync && byteAt buf 0 != Config.syncByte then .err (.badSync (byteAt buf 0))
  else
    let hdr := unpackHeader (byteAt buf 1) (byteAt buf 2) (byteAt buf 3)
    if hdr.afc == 0b00#2 && cfg.afc00Reject then .err (.reservedAfc (byteAt buf 3))
    else if hdr.hasAf then
      match decodeAf hdr.afc (byteAt buf Config.afLenOffset) (byteAt buf Config.afFlagsOffset) with
      | .ok af => .ok { header := hdr, adaptationField := some af }
      | .error e => .err e
    else .ok { header := hdr, adaptationField := none }

/-- The code of a decode error (`60_exceptions.md` R190). -/
def DecodeError.code : DecodeError → ErrCode
  | .shortBuffer => .shortBuffer
  | .badSync _ => .badSync
  | .reservedAfc _ => .reservedAfc
  | .invalidAfLength _ => .invalidAfLength

/-- The byte an error of a full window carries (R191). `ShortBuffer` carries the number of bytes, here `n`. -/
def DecodeError.info (n : Byte) : DecodeError → Byte
  | .shortBuffer => n
  | .badSync b => b
  | .reservedAfc b => b
  | .invalidAfLength b => b

/-- The result the output port offers for an answer of `decode` on the window at offset `q` (R128, R200). -/
def DecodeResult.toResult (q : Nat) (n : Byte) : DecodeResult → Result
  | .ok pkt => .packet pkt q
  | .err e => .error e.code (e.info n) 0#8 q

/-- Loading `RES` with an answer of `decode` (R128, R165, R200). -/
def loadDecoded (r : DecodeResult) (s : State) : State :=
  match r with
  | .ok pkt => loadPacket pkt s
  | .err e => raise e.code (e.info s.idx) 0#8 s.pktOff s

/-! ## The whole block as one function -/

/-- `go(p)` of R163. `fuel` bounds the recursion: `p` grows by at least 188 at each call and is at most `N`. -/
def iterateFrom (S : Source) (cfg : Cfg) : Nat → Nat → List Result × St
  | 0, _ => ([], .seeking)
  | fuel + 1, p =>
    match findSync S p with
    | .endOfStream => ([], .terminated)
    | .io c => ([.error .syncIo 0#8 c S.bytes.length], .fatal)
    | .found q =>
      if q + Config.packetLen ≤ S.bytes.length then
        match decode cfg ((S.bytes.drop q).take Config.packetLen) with
        | .ok pkt =>
          (.packet pkt q :: (iterateFrom S cfg fuel (q + Config.packetLen)).1,
            (iterateFrom S cfg fuel (q + Config.packetLen)).2)
        | .err e =>
          if cfg.resync then
            (.error e.code (e.info 188#8) 0#8 q :: (iterateFrom S cfg fuel (q + Config.packetLen)).1,
              (iterateFrom S cfg fuel (q + Config.packetLen)).2)
          else ([.error e.code (e.info 188#8) 0#8 q], .fatal)
      else
        match S.term with
        | .eos => ([.error .shortBuffer (BitVec.ofNat 8 (S.bytes.length - q)) 0#8 q], .fatal)
        | .ioerr c => ([.error .readIo 0#8 c S.bytes.length], .fatal)

/-- `iterate(S, cfg)` (R163): the output sequence and the final state. -/
def iterate (S : Source) (cfg : Cfg) : List Result × St := iterateFrom S cfg (S.bytes.length + 1) 0

/-! ## Facts about results -/

/-- The offset a result carries (`60_exceptions.md` R191, `10_state.md` R29). -/
def Result.offset : Result → Nat
  | .packet _ offset => offset
  | .error _ _ _ offset => offset

/-- Which results end the run (R205). -/
def Result.endsRun (cfg : Cfg) : Result → Bool
  | .packet _ _ => false
  | .error .syncIo _ _ _ => true
  | .error .readIo _ _ _ => true
  | .error .shortBuffer _ _ _ => true
  | .error .badSync _ _ _ => !cfg.resync
  | .error .invalidAfLength _ _ _ => !cfg.resync
  | .error .reservedAfc _ _ _ => !cfg.resync

/-- First offset and number of bytes of the payload of an accepted packet (`20_memory.md` R58). The block neither
computes nor outputs it; a Consumer does. No payload is count 0. DESIGN CHOICE (unsafe, log 25): for `afc = 0b00` R58 gives
no first offset, and the model gives 188, the end of the window, as R58's `5 + 183` is for `afc = 0b10`. The same pair
stands for `afc = 0b11` without an adaptation field, which no accepted packet has (`42_adaptation_field.md` R142). -/
def payloadRange (pkt : TransportPacket) : Nat × Nat :=
  if pkt.header.afc = 0b01#2 then (4, 184)
  else if pkt.header.afc = 0b11#2 then
    match pkt.adaptationField with
    | some af => (5 + af.length.toNat, 183 - af.length.toNat)
    | none => (188, 0)
  else (188, 0)

end Sys2Proof.Machine
end

