-- ==== Sys2Proof/Machine/Fetch.lean ====
section
/-! DEFINITION. Fetching: from the pins of a clock edge to the instruction of the event they make
(`30_encoding.md` R70, R93; `10_state.md` R42, R43). -/

namespace Sys2Proof.Machine

/-- `out_fire = out_valid and out_ready` (R43). -/
def outFire (s : State) (p : Pins) : Bool := outValid s && p.outReady

/-- A beat is accepted at an edge with `in_valid = 1` and `in_ready = 1` (R42). -/
def inFire (s : State) (p : Pins) : Bool := inReady s && p.inValid

/-- The event word of an edge (R93). -/
def edgeEvent (s : State) (p : Pins) : Word := .event (eventWord p.rst (outFire s p) (inFire s p)) p.cfg

/-- The beat word of an edge (R70). -/
def edgeBeat (p : Pins) : Word := .beat (beatWord p.inErr p.inEos p.inData) p.inCause

/-- The instruction of an edge: the event word selects `RESET` or `OUT`; of an `IN`, the beat word selects the row. -/
def fetch (s : State) (p : Pins) : Except Reject Instr :=
  match decodeWord s.st s.cfg (edgeEvent s p) with
  | .ok i => .ok i
  | .error .beatEvent => decodeWord s.st s.cfg (edgeBeat p)
  | .error .noEvent => .error .noEvent
  | .error .bothFire => .error .bothFire
  | .error .outNotEnabled => .error .outNotEnabled
  | .error .beatNotAccepted => .error .beatNotAccepted
  | .error .noWindow => .error .noWindow

/-- Pins on which nothing is offered and nothing is asked. -/
def Pins.idle : Pins :=
  { rst := false, cfg := Cfg.recommended, inValid := false, inErr := false, inEos := false, inData := 0#8,
    inCause := 0#8, outReady := false }

/-- Pins on which the Source offers a beat (`20_memory.md` R50). -/
def Pins.offer : Beat → Pins
  | .data b => { Pins.idle with inValid := true, inData := b }
  | .eos => { Pins.idle with inValid := true, inEos := true }
  | .ioerr c => { Pins.idle with inValid := true, inErr := true, inCause := c }

/-- Pins on which the Consumer takes what is offered to it. -/
def Pins.take : Pins := { Pins.idle with outReady := true }

/-- The window's first six bytes set to a packet prefix (`30_encoding.md` R71). -/
def writePrefix (m : Memory) (p : BitVec 48) : Memory :=
  Memory.write (Memory.write (Memory.write (Memory.write (Memory.write (Memory.write m 0 (prefixSync p))
    1 (p.extractLsb' 32 8)) 2 (p.extractLsb' 24 8)) 3 (p.extractLsb' 16 8)) 4 (prefixLen p)) 5 (prefixFlags p)

/-- The state in which the very next step runs the instruction of a word, in the context of log 14: the word is put on
the pins of the next clock edge, and what selects its row besides its bits is set (the state; for a packet form, the
window with one byte missing, so that the next byte completes it, and `cfg.check_sync`). -/
def placeWord (s : State) : Word → State
  | .event w cfgPins =>
    { s with
      st := if w.getLsbD 2 || outValid s then s.st else .yield
      inputs := { Pins.idle with rst := w.getLsbD 2, cfg := cfgPins, outReady := w.getLsbD 1,
                                 inValid := w.getLsbD 0 } :: s.inputs }
  | .beat w inCause =>
    { s with
      st := .seeking
      inputs := { Pins.idle with inValid := true, inErr := beatErr w, inEos := beatEos w, inData := beatData w,
                                 inCause := inCause } :: s.inputs }
  | .packet p =>
    { s with
      st := .decoding
      idx := 187#8
      w := writePrefix s.w p
      cfg := { s.cfg with checkSync := false }
      inputs := Pins.offer (.data 0#8) :: s.inputs }

end Sys2Proof.Machine
end

