-- ==== Sys2Proof/Machine/Synchronizer.lean ====
section
/-! DEFINITION. The beats of state SEEKING (`40_synchronizer.md` R101 to R104). -/

namespace Sys2Proof.Machine

/-- `SCAN_HIT` (R101): the sync byte is kept in `W[0]` and the window is open. -/
def execScanHit (s : State) : Out :=
  whenEnabled (s.st == .seeking) (whenRoom s (.next (acceptByte Config.syncByte (openWindow s))))

/-- `SCAN_SKIP` (R102): only `POS` moves on. -/
def execScanSkip (inData : Byte) (s : State) : Out :=
  whenEnabled (s.st == .seeking) (whenRoom s (.next (acceptByte inData s)))

/-- `SCAN_EOS` (R103): a clean end; no result, `LAST_ERR` unchanged. `in_data` is ignored (R70). -/
def execScanEos (_inData : Byte) (s : State) : Out :=
  whenEnabled (s.st == .seeking) (.next { s with st := .terminated })

/-- `SCAN_IOERR` (R104): `SyncIo(c)` at the offset of the read that failed. `in_eos` and `in_data` are ignored (R70). -/
def execScanIoerr (_inEos : Bool) (_inData inCause : Byte) (s : State) : Out :=
  whenEnabled (s.st == .seeking) (.next (raise .syncIo 0#8 inCause s.pos s))

end Sys2Proof.Machine
end

