-- ==== Sys2Proof/Machine/SystemEvents.lean ====
section
/-! DEFINITION. The events that are not beats: `RESET` (`70_reset_and_hazards.md` R220) and `OUT`
(`43_stream_iterator.md` R168). -/

namespace Sys2Proof.Machine

/-- `RESET` (R220), enabled in every state; a beat or result offered on its edge is not taken. -/
def execReset (_outFire _inFire : Bool) (cfg : Cfg) (s : State) : Out := .next (resetTo cfg s)

/-- `OUT` (R168): the Consumer takes the held result. -/
def execOut (s : State) : Out := whenEnabled (outValid s) (.next (takeResult s))

end Sys2Proof.Machine
end

