-- ==== Sys2Proof/Machine/PacketForms.lean ====
section
/-! DEFINITION. The packet forms: what the decoder does with a full window (`41_header_decoder.md` R123, R126, R127;
`42_adaptation_field.md` R144, R146 to R148). They run inside the `FILL` event that writes `W[187]`
(`43_stream_iterator.md` R165; log 12). -/

namespace Sys2Proof.Machine

/-- `TS_BAD_SYNC` (R123): `raise BadSync(info = W[0])`. -/
def execTsBadSync (sync : Byte) (_hdr : HdrFields) (_afc : BitVec 2) (_afLength _afFlags : Byte) (s : State) : Out :=
  whenEnabled (windowFull s) (.next (raise .badSync sync 0#8 s.pktOff s))

/-- `TS_RESERVED` (R126): rejected with `info = W[3]` or delivered with neither field nor payload, as
`cfg.afc00_reject` says. -/
def execTsReserved (_sync : Byte) (hdr : HdrFields) (_afLength _afFlags : Byte) (s : State) : Out :=
  whenEnabled (windowFull s)
    (.next (if s.cfg.afc00Reject then raise .reservedAfc (headerByte3 hdr 0b00#2) 0#8 s.pktOff s
      else loadPacket (plainPacket hdr 0b00#2) s))

/-- `TS_PAYLOAD` (R127): no adaptation field; bytes 4 and 5 are payload and are not read. -/
def execTsPayload (_sync : Byte) (hdr : HdrFields) (_afLength _afFlags : Byte) (s : State) : Out :=
  whenEnabled (windowFull s) (.next (loadPacket (plainPacket hdr 0b01#2) s))

/-- `TS_AF_ONLY` (R146): the field fills the packet; its flags are byte 5. -/
def execTsAfOnly (_sync : Byte) (hdr : HdrFields) (afFlags : Byte) (s : State) : Out :=
  whenEnabled (windowFull s)
    (.next (loadPacket (fieldPacket hdr 0b10#2 Config.afLenNoPayload (some (unpackAfFlags afFlags))) s))

/-- `TS_AF_ONLY_BADLEN` (R144): `raise InvalidAdaptationFieldLength(info = W[4])`. -/
def execTsAfOnlyBadlen (_sync : Byte) (_hdr : HdrFields) (afLength _afFlags : Byte) (s : State) : Out :=
  whenEnabled (windowFull s) (.next (raise .invalidAfLength afLength 0#8 s.pktOff s))

/-- `TS_AF_PAYLOAD_EMPTY` (R147): a field of length 0, no flags; byte 5 is payload and is not read. -/
def execTsAfPayloadEmpty (_sync : Byte) (hdr : HdrFields) (_afFlags : Byte) (s : State) : Out :=
  whenEnabled (windowFull s) (.next (loadPacket (fieldPacket hdr 0b11#2 0#8 none) s))

/-- `TS_AF_PAYLOAD` (R148): the field's length is byte 4 and its flags byte 5. -/
def execTsAfPayload (_sync : Byte) (hdr : HdrFields) (afLength afFlags : Byte) (s : State) : Out :=
  whenEnabled (windowFull s)
    (.next (loadPacket (fieldPacket hdr 0b11#2 afLength (some (unpackAfFlags afFlags))) s))

/-- `TS_AF_PAYLOAD_BADLEN` (R144): `raise InvalidAdaptationFieldLength(info = W[4])`. -/
def execTsAfPayloadBadlen (_sync : Byte) (_hdr : HdrFields) (afLength _afFlags : Byte) (s : State) : Out :=
  whenEnabled (windowFull s) (.next (raise .invalidAfLength afLength 0#8 s.pktOff s))

/-- Running the form that a full window's prefix selects; no other row is a form. -/
def runForm (i : Instr) (s : State) : Out :=
  match i with
  | .tsBadSync sync hdr afc l f => execTsBadSync sync hdr afc l f s
  | .tsReserved sync hdr l f => execTsReserved sync hdr l f s
  | .tsPayload sync hdr l f => execTsPayload sync hdr l f s
  | .tsAfOnly sync hdr f => execTsAfOnly sync hdr f s
  | .tsAfOnlyBadlen sync hdr l f => execTsAfOnlyBadlen sync hdr l f s
  | .tsAfPayloadEmpty sync hdr f => execTsAfPayloadEmpty sync hdr f s
  | .tsAfPayload sync hdr l f => execTsAfPayload sync hdr l f s
  | .tsAfPayloadBadlen sync hdr l f => execTsAfPayloadBadlen sync hdr l f s
  | .scanIoerr _ _ _ | .scanEos _ | .scanHit | .scanSkip _ | .fillIoerr _ _ _ | .fillEos _ | .fill _ | .reset _ _ _
  | .out | .findSync | .decode | .next | .isPat | .hasAf | .hasPayload => .fault .eventNotEnabled

/-- The window completes (R165): the form of the window as it stands after the last byte is run in the same event. -/
def completeWindow (s : State) : Out := runForm (decodePacket s.cfg (windowPrefix s)) s

end Sys2Proof.Machine
end

