-- ==== Sys2Proof/Machine/WindowFill.lean ====
section
/-! DEFINITION. The beats of state DECODING, the window read (`43_stream_iterator.md` R164 to R167). -/

namespace Sys2Proof.Machine

/-- `FILL` (R164, R165): the byte is stored at `IDX`; the byte at offset 187 completes the window. An offset above 187
does not exist (`70_reset_and_hazards.md` R239; log 18). -/
def execFill (inData : Byte) (s : State) : Out :=
  whenEnabled (s.st == .decoding)
    (if s.idx.toNat < Config.packetLen then
      whenRoom s
        (if s.idx.toNat + 1 = Config.packetLen then completeWindow (acceptByte inData (storeByte inData s))
         else .next (acceptByte inData (storeByte inData s)))
     else .fault .windowOffset)

/-- `FILL_EOS` (R166): `ShortBuffer` with the number of bytes that were available. `in_data` is ignored (R70). -/
def execFillEos (_inData : Byte) (s : State) : Out :=
  whenEnabled (s.st == .decoding) (.next (raise .shortBuffer s.idx 0#8 s.pktOff s))

/-- `FILL_IOERR` (R167): `ReadIo(c)` at the offset of the read that failed. `in_eos` and `in_data` are ignored (R70). -/
def execFillIoerr (_inEos : Bool) (_inData inCause : Byte) (s : State) : Out :=
  whenEnabled (s.st == .decoding) (.next (raise .readIo 0#8 inCause s.pos s))

end Sys2Proof.Machine
end

