-- ==== Sys2Proof/Machine/ContractOps.lean ====
section
/-! DEFINITION. The contract-level operations of `30_encoding.md` R90 as the hardware performs them: `FIND_SYNC` and
`NEXT` as the events they are made of, `DECODE` and the accessors as combinational functions. What one returns is its
answer (log 10); none is selected by bits, so no step runs one (R93). -/

namespace Sys2Proof.Machine

/-- The meaning of an event row; a row that is no event is not run here. -/
def runEvent (i : Instr) (s : State) : Out :=
  match i with
  | .scanIoerr e d c => execScanIoerr e d c s
  | .scanEos d => execScanEos d s
  | .scanHit => execScanHit s
  | .scanSkip d => execScanSkip d s
  | .fillIoerr e d c => execFillIoerr e d c s
  | .fillEos d => execFillEos d s
  | .fill d => execFill d s
  | .reset o n c => execReset o n c s
  | .out => execOut s
  | .tsBadSync _ _ _ _ _ | .tsReserved _ _ _ _ | .tsPayload _ _ _ _ | .tsAfOnly _ _ _ | .tsAfOnlyBadlen _ _ _ _
  | .tsAfPayloadEmpty _ _ _ | .tsAfPayload _ _ _ _ | .tsAfPayloadBadlen _ _ _ _ | .findSync | .decode | .next
  | .isPat | .hasAf | .hasPayload => .fault .eventNotEnabled

/-- One clock edge: its event, or nothing (`70_reset_and_hazards.md` R232). -/
def clockEdge (p : Pins) (s : State) : Out :=
  match fetch s p with
  | .ok i => runEvent i s
  | .error _ => .next s

/-- Clock edges one after another until `stop`, until the next is a `RESET` (R221: it abandons the run; log 11), or
until none is left. -/
def runEdges (stop : State → Bool) : List Pins → State → Out
  | [], s => .next { s with inputs := [] }
  | p :: ps, s =>
    if stop s || p.rst then .next { s with inputs := p :: ps }
    else andThen (clockEdge p { s with inputs := ps }) (runEdges stop ps)

/-- What `find_sync` returns, read off the state it leaves (`40_synchronizer.md` R101, R103, R104). -/
def syncAnswer (s : State) : Answer :=
  match s.st with
  | .decoding => .sync (.found s.pktOff)
  | .terminated => .sync .endOfStream
  | .seekFailed =>
    match s.res with
    | some (.error _ _ cause _) => .sync (.io cause)
    | some (.packet _ _) => .waiting
    | none => .waiting
  | .seeking => .waiting
  | .yield => .waiting
  | .decodeFailed => .waiting
  | .fatal => .waiting

/-- `FIND_SYNC` (R100, R90): the beats accepted in SEEKING up to and including a sync hit or a terminal beat. -/
def execFindSync (s : State) : Out :=
  whenEnabled (s.st == .seeking)
    (andThen (runEdges (fun t => t.st != .seeking) s.inputs s) fun t => .next (answerWith (syncAnswer t) t))

/-- `DECODE` (R120, R90): the combinational function of `W`, `IDX` and `cfg`; it writes no state of the block. -/
def execDecode (s : State) : Out := .next (answerWith (.decoded (decode s.cfg (windowBytes s))) s)

/-- The first half of `NEXT`: the search and the window, until a result is held or the run has ended. -/
def runToResult (s : State) : Out := runEdges (fun t => !inReady t) s.inputs s

/-- The second half of `NEXT`: the Consumer's turn, until it has taken the held result. -/
def runToTaken (s : State) : Out := runEdges (fun t => !outValid t) s.inputs s

/-- What `NEXT` returns once a result was held in `held` and the state `s` followed. -/
def takenAnswer (held s : State) : Answer :=
  if outValid s then .waiting
  else
    match held.res with
    | some r => .item r
    | none => .waiting

/-- `NEXT` (`43_stream_iterator.md` R162, R90): everything up to and including the next `OUT`, or the end of the
sequence (R176). -/
def execNext (s : State) : Out :=
  andThen (runToResult s) fun held =>
    if outValid held then andThen (runToTaken held) fun t => .next (answerWith (takenAnswer held t) t)
    else .next (answerWith (if ended held then .ended else .waiting) held)

/-- `IS_PAT` (R130): the pin `out_is_pat`; writes nothing. -/
def execIsPat (s : State) : Out := .next (answerWith (.bit (outIsPat s)) s)

/-- `HAS_AF` (R131): the pin `out_has_af`; writes nothing. -/
def execHasAf (s : State) : Out := .next (answerWith (.bit (outHasAf s)) s)

/-- `HAS_PAYLOAD` (R132): the pin `out_has_payload`; writes nothing. -/
def execHasPayload (s : State) : Out := .next (answerWith (.bit (outHasPayload s)) s)

end Sys2Proof.Machine
end

