-- ==== Sys2Proof/Machine/Dispatch.lean ====
section
/-! DEFINITION. One arm per instruction: its meaning. -/

namespace Sys2Proof.Machine

def exec (i : Instr) (s : State) : Host.Outcome State Fault Refusal :=
  match i with
  | .scanIoerr inEos inData inCause => Sys2Proof.Machine.execScanIoerr inEos inData inCause s
  | .scanEos inData => Sys2Proof.Machine.execScanEos inData s
  | .scanHit => Sys2Proof.Machine.execScanHit s
  | .scanSkip inData => Sys2Proof.Machine.execScanSkip inData s
  | .fillIoerr inEos inData inCause => Sys2Proof.Machine.execFillIoerr inEos inData inCause s
  | .fillEos inData => Sys2Proof.Machine.execFillEos inData s
  | .fill inData => Sys2Proof.Machine.execFill inData s
  | .tsBadSync sync hdr afc afLength afFlags => Sys2Proof.Machine.execTsBadSync sync hdr afc afLength afFlags s
  | .tsReserved sync hdr afLength afFlags => Sys2Proof.Machine.execTsReserved sync hdr afLength afFlags s
  | .tsPayload sync hdr afLength afFlags => Sys2Proof.Machine.execTsPayload sync hdr afLength afFlags s
  | .tsAfOnly sync hdr afFlags => Sys2Proof.Machine.execTsAfOnly sync hdr afFlags s
  | .tsAfOnlyBadlen sync hdr afLength afFlags => Sys2Proof.Machine.execTsAfOnlyBadlen sync hdr afLength afFlags s
  | .tsAfPayloadEmpty sync hdr afFlags => Sys2Proof.Machine.execTsAfPayloadEmpty sync hdr afFlags s
  | .tsAfPayload sync hdr afLength afFlags => Sys2Proof.Machine.execTsAfPayload sync hdr afLength afFlags s
  | .tsAfPayloadBadlen sync hdr afLength afFlags => Sys2Proof.Machine.execTsAfPayloadBadlen sync hdr afLength afFlags s
  | .reset outFire inFire cfg => Sys2Proof.Machine.execReset outFire inFire cfg s
  | .out => Sys2Proof.Machine.execOut s
  | .findSync => Sys2Proof.Machine.execFindSync s
  | .decode => Sys2Proof.Machine.execDecode s
  | .next => Sys2Proof.Machine.execNext s
  | .isPat => Sys2Proof.Machine.execIsPat s
  | .hasAf => Sys2Proof.Machine.execHasAf s
  | .hasPayload => Sys2Proof.Machine.execHasPayload s

end Sys2Proof.Machine
end

