-- ==== Sys2Proof/Machine/Step.lean ====
section
/-! DEFINITION. One step: the next clock edge (`00_scope.md` R15, `70_reset_and_hazards.md` R232). -/

namespace Sys2Proof.Machine

/-- One step takes the pins of the next clock edge and runs the instruction of the event they make; an edge without an
event changes nothing else. With no edge left nothing is offered and the state is held (`60_exceptions.md` R213;
log 2). -/
def step (s : State) : Host.Outcome State Fault Refusal :=
  match s.inputs with
  | [] => .next s
  | p :: ps =>
    match fetch s p with
    | .ok i => exec i { s with inputs := ps }
    | .error _ => .next { s with inputs := ps }

/-- `s` with the instruction of a table word placed where the next step takes it (log 14, log 15). -/
def State.withFetchWord (s : State) (nbits w : Nat) : State :=
  match tableWord nbits w with
  | some word => placeWord s word
  | none => s

end Sys2Proof.Machine
end

