-- ==== Sys2Proof/Machine/Ports.lean ====
section
/-! DEFINITION. The block's output pins, all combinational views of the state: the output port (`10_state.md` R43), the
status pins (R33) and the window read port (R44). None is read by a rule that decides anything (R33). -/

namespace Sys2Proof.Machine

/-- The 3-bit code of `ST` (R24). -/
def stCode : St → BitVec 3
  | .seeking => 0#3
  | .decoding => 1#3
  | .yield => 2#3
  | .decodeFailed => 3#3
  | .seekFailed => 4#3
  | .terminated => 5#3
  | .fatal => 6#3

/-- The 3-bit code of an error (`60_exceptions.md` R190). -/
def errCode : ErrCode → BitVec 3
  | .syncIo => 1#3
  | .readIo => 2#3
  | .shortBuffer => 3#3
  | .badSync => 4#3
  | .invalidAfLength => 5#3
  | .reservedAfc => 6#3

/-- The code of an error or of none (R190 code 0). -/
def optErrCode : Option ErrCode → BitVec 3
  | none => 0#3
  | some e => errCode e

/-- `CFG` as bits 2:0 (R32). -/
def cfgWord (c : Cfg) : BitVec 3 :=
  place 3 0 (BitVec.ofBool c.afc00Reject) ||| place 3 1 (BitVec.ofBool c.resync)
    ||| place 3 2 (BitVec.ofBool c.checkSync)

/-- The `STATUS` pins, 14 bits: `ST` in 2:0, `LAST_ERR` in 5:3, `IDX` in 13:6 (R33). -/
def statusWord (s : State) : BitVec 14 :=
  place 14 0 (stCode s.st) ||| place 14 3 (optErrCode s.lastErr) ||| place 14 6 s.idx

/-- Pin group `st_pos[63:0]` (R33). -/
def stPos (s : State) : BitVec 64 := BitVec.ofNat 64 s.pos

/-- Pin group `st_pkt_off[63:0]` (R33). -/
def stPktOff (s : State) : BitVec 64 := BitVec.ofNat 64 s.pktOff

/-- The pin groups of the output port, named as the fields of `RES` (R43). -/
structure OutPins where
  outValid : Bool
  kind : Bool
  err : BitVec 3
  info : Byte
  cause : Byte
  offset : BitVec 64
  tei : Bool
  pusi : Bool
  tp : Bool
  pid : BitVec 16
  tsc : BitVec 2
  afc : BitVec 2
  cc : BitVec 4
  afPresent : Bool
  afLength : Byte
  afhPresent : Bool
  di : Bool
  rai : Bool
  espi : Bool
  pcr : Bool
  opcr : Bool
  sp : Bool
  tpd : Bool
  afe : Bool
  isPat : Bool
  hasAf : Bool
  hasPayload : Bool
  deriving DecidableEq, Repr

/-- Every pin 0 (`70_reset_and_hazards.md` R234). -/
def OutPins.zero : OutPins :=
  { outValid := false, kind := false, err := 0, info := 0, cause := 0, offset := 0, tei := false, pusi := false,
    tp := false, pid := 0, tsc := 0, afc := 0, cc := 0, afPresent := false, afLength := 0, afhPresent := false,
    di := false, rai := false, espi := false, pcr := false, opcr := false, sp := false, tpd := false, afe := false,
    isPat := false, hasAf := false, hasPayload := false }

/-- The flags of a packet, all 0 when it has none (R28). -/
def packetFlags (pkt : TransportPacket) : AfFlags :=
  match pkt.adaptationField with
  | some { length := _, header := some f } => f
  | some { length := _, header := none } => unpackAfFlags 0#8
  | none => unpackAfFlags 0#8

/-- The pins of a packet: absent fields read 0 (R26 to R28, `41_header_decoder.md` R128). -/
def packetPins (pkt : TransportPacket) (offset : Nat) : OutPins :=
  { OutPins.zero with
    outValid := true
    offset := BitVec.ofNat 64 offset
    tei := pkt.header.tei
    pusi := pkt.header.pusi
    tp := pkt.header.tp
    pid := pkt.header.pid
    tsc := pkt.header.tsc
    afc := pkt.header.afc
    cc := pkt.header.cc
    afPresent := pkt.adaptationField.isSome
    afLength := (pkt.adaptationField.map fun af => af.length).getD 0#8
    afhPresent := (pkt.adaptationField.bind fun af => af.header).isSome
    di := (packetFlags pkt).di
    rai := (packetFlags pkt).rai
    espi := (packetFlags pkt).espi
    pcr := (packetFlags pkt).pcr
    opcr := (packetFlags pkt).opcr
    sp := (packetFlags pkt).sp
    tpd := (packetFlags pkt).tpd
    afe := (packetFlags pkt).afe
    isPat := pkt.header.isPat
    hasAf := pkt.header.hasAf
    hasPayload := pkt.header.hasPayload }

/-- The pins of an error: every packet field 0 (`60_exceptions.md` R200). -/
def errorPins (code : ErrCode) (info cause : Byte) (offset : Nat) : OutPins :=
  { OutPins.zero with
    outValid := true
    kind := true
    err := errCode code
    info := info
    cause := cause
    offset := BitVec.ofNat 64 offset }

/-- The output port (R43): the held result while `out_valid = 1`, all zeros otherwise (R234). -/
def outPins (s : State) : OutPins :=
  if outValid s then
    match s.res with
    | some (.packet pkt offset) => packetPins pkt offset
    | some (.error code info cause offset) => errorPins code info cause offset
    | none => { OutPins.zero with outValid := true }
  else OutPins.zero

/-- The window read port (R44): `W[win_addr]` while a result is held and `win_addr < IDX`, 0x00 otherwise. -/
def winData (s : State) (winAddr : Byte) : Byte :=
  if outValid s && decide (winAddr < s.idx) then Memory.read s.w winAddr.toNat else 0#8

end Sys2Proof.Machine
end

