-- ==== Sys2Proof/Safety.lean ====
section
/-! DEFINITION. The terms in which claims about runs are stated: the invariant of reachable states
(`43_stream_iterator.md` R172), what holds of the results of a run (R205, R163), what a terminal beat leaves
(`20_memory.md` R65), and a run against a Source and a Consumer that keep their contracts (R173). -/

namespace Sys2Proof.Machine

/-! ## The invariant -/

/-- `W[i] = b[PKT_OFF + i]` for `i < IDX` (R172): the window is a piece of the stream. -/
abbrev WindowMatchesStream (s : State) : Prop :=
  ∀ i, i < s.idx.toNat → Memory.read s.w i = s.stream.getD (s.pktOff + i) 0#8

/-- The window holds a packet's beginning: `W[0] = 0x47`, `PKT_OFF = POS - IDX`, and the bytes are the stream's. -/
abbrev WindowOpen (s : State) : Prop :=
  Memory.read s.w 0 = Config.syncByte ∧ s.pktOff + s.idx.toNat = s.pos ∧ WindowMatchesStream s

/-- Whether `decode` answered with a packet. -/
def DecodeResult.isOk : DecodeResult → Bool
  | .ok _ => true
  | .err _ => false

/-- `RES` is the answer of `decode` on the window, loaded as R128 and R200 say. -/
abbrev ResultIsDecoded (s : State) : Prop :=
  s.res = some ((decode s.cfg (windowBytes s)).toResult s.pktOff s.idx)

/-- What holds in YIELD (R172). -/
abbrev YieldInv (s : State) : Prop :=
  s.idx = 188#8 ∧ WindowOpen s ∧ (decode s.cfg (windowBytes s)).isOk = true ∧ ResultIsDecoded s

/-- What holds in DECODE_FAILED (R172). -/
abbrev DecodeFailedInv (s : State) : Prop :=
  WindowOpen s ∧ s.lastErr = heldError s ∧
    ((1 ≤ s.idx.toNat ∧ s.idx.toNat ≤ 187 ∧ s.res = some (.error .shortBuffer s.idx 0#8 s.pktOff)) ∨
      (s.idx = 188#8 ∧ (decode s.cfg (windowBytes s)).isOk = false ∧ ResultIsDecoded s ∧
        (heldError s = some .badSync ∨ heldError s = some .invalidAfLength ∨ heldError s = some .reservedAfc)))

/-- What holds in SEEK_FAILED (R172). -/
abbrev SeekFailedInv (s : State) : Prop :=
  s.lastErr = heldError s ∧ s.res.map Result.offset = some s.pos ∧
    ((heldError s = some .syncIo ∧ s.idx = 0#8) ∨
      (heldError s = some .readIo ∧ 1 ≤ s.idx.toNat ∧ s.idx.toNat ≤ 187 ∧ WindowOpen s))

/-- The invariant of reachable states: the table of R172 state by state, the canonical form of the window, and `POS` as
the number of bytes accepted (`10_state.md` R22), fewer than 2^64. -/
abbrev StateInv (s : State) : Prop :=
  Memory.wf s.w = true ∧ Memory.inWindow s.w = true ∧ s.pos = s.stream.length ∧ s.pos < Config.streamLimit ∧
  (s.st = .seeking → s.idx = 0#8 ∧ s.res = none) ∧
  (s.st = .decoding → 1 ≤ s.idx.toNat ∧ s.idx.toNat ≤ 187 ∧ s.res = none ∧ WindowOpen s) ∧
  (s.st = .yield → YieldInv s) ∧
  (s.st = .decodeFailed → DecodeFailedInv s) ∧
  (s.st = .seekFailed → SeekFailedInv s) ∧
  (s.st = .terminated → s.idx = 0#8 ∧ s.res = none) ∧
  (s.st = .fatal → s.idx = 0#8 ∧ s.res = none ∧ s.lastErr ≠ none)

/-! ## The results of a run -/

/-- What holds of every delivered packet: `pid ≤ 0x1FFF` (`30_encoding.md` R74), an adaptation field exactly when
`afc[1] = 1` (`42_adaptation_field.md` R142), its length at most 183 and 183 exactly without payload (R143), and flags
exactly when the length is not 0 (R145). -/
def packetOk (pkt : TransportPacket) : Bool :=
  decide (pkt.header.pid.toNat ≤ Config.pidMax) && pkt.adaptationField.isSome == pkt.header.hasAf &&
    match pkt.adaptationField with
    | none => true
    | some af =>
      decide (af.length ≤ 183#8) && (af.length == 183#8) == (pkt.header.afc == 0b10#2)
        && af.header.isSome == (af.length != 0#8)

/-- `packetOk` of a result; an error has no packet. -/
def Result.packetOk : Result → Bool
  | .packet pkt _ => Sys2Proof.Machine.packetOk pkt
  | .error _ _ _ _ => true

/-- Offsets of successive results differ by at least 188 (R163: `go(q + 188)`). -/
def spaced : List Result → Bool
  | [] => true
  | [_] => true
  | r :: r' :: rs => decide (r.offset + Config.packetLen ≤ r'.offset) && spaced (r' :: rs)

/-- The least offset the next result can have: `POS` while seeking, the window's while one is open, the held result's
while one is held. -/
def frontier (s : State) : Nat :=
  match s.st with
  | .seeking => s.pos
  | .decoding => s.pktOff
  | .yield => s.pktOff
  | .decodeFailed => s.pktOff
  | .seekFailed => s.pos - s.idx.toNat
  | .terminated => s.pos
  | .fatal => s.pos

/-- The results taken are spaced, and lie a packet's length before the next one. -/
abbrev SpacedRun (s : State) : Prop :=
  spaced s.emitted = true ∧
    (s.st ≠ .fatal → ∀ r, s.emitted.getLast? = some r → r.offset + Config.packetLen ≤ frontier s)

/-- At most one result ends the run; it is the last one, and it is there exactly in FATAL (R205). -/
abbrev OneEnd (s : State) : Prop :=
  (∀ r, r ∈ s.emitted.dropLast → r.endsRun s.cfg = false) ∧
  (s.st ≠ .fatal → ∀ r, r ∈ s.emitted → r.endsRun s.cfg = false) ∧
  (s.st = .fatal → (s.emitted.getLast?.map (Result.endsRun s.cfg)) = some true)

/-- Every packet taken or offered is well formed. -/
abbrev PacketsOk (s : State) : Prop := ∀ r, r ∈ s.emitted ++ s.res.toList → r.packetOk = true

/-! ## After a terminal beat -/

/-- The states a terminal beat leads to and that lead on to an end only: the run is over, or the held result is an I/O
error or `ShortBuffer` (`20_memory.md` R65). -/
def closed (s : State) : Bool :=
  ended s || s.st == .seekFailed || (s.st == .decodeFailed && heldError s == some .shortBuffer)

/-! ## A run against a Source and a Consumer -/

/-- Who is ready at one clock edge: the order of turns says when things happen (`10_state.md` R40). -/
structure Turn where
  source : Bool
  consumer : Bool
  deriving DecidableEq, Repr

/-- The pins of one edge: a ready Source offers its next beat and holds it until it is accepted
(`70_reset_and_hazards.md` R230, R233); a ready Consumer takes what is offered. -/
def turnPins (t : Turn) (beats : List Beat) : Pins :=
  match beats with
  | [] => { Pins.idle with outReady := t.consumer }
  | b :: _ => if t.source then { Pins.offer b with outReady := t.consumer } else { Pins.idle with outReady := t.consumer }

/-- A run of `step`, one turn an edge: an accepted beat is not offered again. -/
def drive : List Turn → List Beat → State → Out
  | [], _, s => .next s
  | t :: ts, beats, s =>
    andThen (step { s with inputs := [turnPins t beats] })
      (drive ts (if inFire s (turnPins t beats) then beats.tail else beats))

/-- What the block has read when its run is over (R173): all of the stream when it ended on a terminal beat, up to the
end of the failed window when it ended on a decode error under `cfg.resync = 0`. -/
def readAtEnd (S : Source) (results : List Result) (st : St) : Nat :=
  if st = .fatal then
    match results.getLast? with
    | some (.error .badSync _ _ q) => q + Config.packetLen
    | some (.error .invalidAfLength _ _ q) => q + Config.packetLen
    | some (.error .reservedAfc _ _ q) => q + Config.packetLen
    | some (.error .syncIo _ _ _) => S.bytes.length
    | some (.error .readIo _ _ _) => S.bytes.length
    | some (.error .shortBuffer _ _ _) => S.bytes.length
    | some (.packet _ _) => S.bytes.length
    | none => S.bytes.length
  else S.bytes.length

end Sys2Proof.Machine
end

