-- ==== Sys2Proof/Certificates/Slice0/Obligations.lean ====
section
/-! DEFINITION. The statements for the provers. Each docstring says which rule of the spec it formalises; what is the
model's own choice is named with its log entry. Where a whole next state is given, `inputs`, `emitted`, `stream` and
`answer` are the model's own fields (log 1, 8, 9, 10) and everything not written is unchanged: the frame. -/

open Sys2Proof Sys2Proof.Machine

/-! ## Reset and events -/

/-- `10_state.md` R39 (the spec's decision D17): after `RESET`, whatever the state, every piece of state has its reset
value and `CFG` the values on the pins; `in_ready` is 1 and `out_valid` 0. -/
def Obligations.ResetGivesEveryStateItsResetValue : Prop :=
  ∀ (o n : Bool) (c : Cfg) (s : State), ∃ t, exec (.reset o n c) s = .next t ∧
    t.st = .seeking ∧ t.idx = 0#8 ∧ t.pos = 0 ∧ t.pktOff = 0 ∧ (∀ a, Memory.read t.w a = 0#8) ∧ t.res = none ∧
    t.cfg = c ∧ t.lastErr = none ∧ inReady t = true ∧ outValid t = false ∧ outPins t = OutPins.zero ∧
    statusWord t = 0#14 ∧ stPos t = 0#64 ∧ stPktOff t = 0#64

/-- `70_reset_and_hazards.md` R220, R221 and `60_exceptions.md` R196: on an edge with `rst = 1` the step is a reset,
whatever the state and the other pins; the run's records (`emitted`, `stream`, `answer`) start again (log 8, 9, 10). -/
def Obligations.ResetWinsOverEveryHandshake : Prop :=
  ∀ (s : State) (p : Pins) (ps : List Pins), s.inputs = p :: ps → p.rst = true →
    step s = .next { State.resetWith p.cfg with inputs := ps }

/-- A STEP RUNS THE DECODED INSTRUCTION: the step takes the edge's pins off and is `exec` of the instruction they
select, which is `RESET` on `rst` (R220), `OUT` when `out_valid` and `out_ready` (R43, R168), and on an accepted beat
(R42) the row of R78 or R79 for the beat's pins. With no edge left the state stays (log 2). -/
def Obligations.StepRunsTheInstructionOfTheEdge : Prop :=
  (∀ (s : State) (p : Pins) (ps : List Pins) (i : Instr), s.inputs = p :: ps → fetch s p = .ok i →
    step s = exec i { s with inputs := ps }) ∧
  (∀ (s : State) (p : Pins), p.rst = true → fetch s p = .ok (.reset (outFire s p) (inFire s p) p.cfg)) ∧
  (∀ (s : State) (p : Pins), p.rst = false → outValid s = true → p.outReady = true → fetch s p = .ok .out) ∧
  (∀ (s : State) (p : Pins), p.rst = false → s.st = .seeking → p.inValid = true → fetch s p = .ok
    (if p.inErr then .scanIoerr p.inEos p.inData p.inCause else if p.inEos then .scanEos p.inData
      else if p.inData = 0x47#8 then .scanHit else .scanSkip p.inData)) ∧
  (∀ (s : State) (p : Pins), p.rst = false → s.st = .decoding → p.inValid = true → fetch s p = .ok
    (if p.inErr then .fillIoerr p.inEos p.inData p.inCause else if p.inEos then .fillEos p.inData
      else .fill p.inData)) ∧
  (∀ s : State, s.inputs = [] → step s = .next s)

/-- `70_reset_and_hazards.md` R232: a clock edge with no event changes nothing; only the edge is past. -/
def Obligations.EdgeWithoutEventChangesNothing : Prop :=
  ∀ (s : State) (p : Pins) (ps : List Pins), s.inputs = p :: ps → p.rst = false →
    (outValid s = true → p.outReady = false) → (inReady s = true → p.inValid = false) →
    step s = .next { s with inputs := ps }

/-- `43_stream_iterator.md` R160: `IN` exactly in SEEKING and DECODING, `OUT` exactly in the three holding states, none in
TERMINATED and FATAL, `RESET` in every state, never both on one edge. -/
def Obligations.AtMostOneHandshakeIsEnabled : Prop :=
  ∀ s : State, (inReady s = true ↔ (s.st = .seeking ∨ s.st = .decoding)) ∧
    (outValid s = true ↔ (s.st = .yield ∨ s.st = .decodeFailed ∨ s.st = .seekFailed)) ∧
    (ended s = true ↔ (inReady s = false ∧ outValid s = false)) ∧
    ¬(inReady s = true ∧ outValid s = true) ∧ (∀ p, ¬(inFire s p = true ∧ outFire s p = true)) ∧
    (∀ p, p.rst = true → ∃ o n, fetch s p = .ok (.reset o n p.cfg))

/-- The model's choice for what R160 and R170 say cannot happen (log 7) and for a window offset that does not exist
(R239, log 18): a beat, a packet form, `OUT` or `FIND_SYNC` outside the state that enables it stops by name, and so does
`FILL` with `IDX` above 187. -/
def Obligations.EventOutsideItsStateStops : Prop :=
  ∀ s : State,
    (s.st ≠ .seeking → ∀ e d c, exec (.scanIoerr e d c) s = .fault .eventNotEnabled ∧
      exec (.scanEos d) s = .fault .eventNotEnabled ∧ exec .scanHit s = .fault .eventNotEnabled ∧
      exec (.scanSkip d) s = .fault .eventNotEnabled ∧ exec .findSync s = .fault .eventNotEnabled) ∧
    (s.st ≠ .decoding → ∀ e d c, exec (.fillIoerr e d c) s = .fault .eventNotEnabled ∧
      exec (.fillEos d) s = .fault .eventNotEnabled ∧ exec (.fill d) s = .fault .eventNotEnabled) ∧
    (s.st = .decoding → 188 ≤ s.idx.toNat → ∀ d, exec (.fill d) s = .fault .windowOffset) ∧
    (outValid s = false → exec .out s = .fault .eventNotEnabled) ∧
    (¬(s.st = .decoding ∧ s.idx = 188#8) → ∀ cfg p, exec (decodePacket cfg p) s = .fault .eventNotEnabled)

/-! ## The beats of SEEKING -/

/-- `40_synchronizer.md` R101: `SCAN_HIT` keeps the sync byte in `W[0]`, remembers its offset and opens the window; every
other window byte and every other register is unchanged. The canonical form of the window is the premise. -/
def Obligations.ScanHitOpensTheWindow : Prop :=
  ∀ s : State, s.st = .seeking → s.pos + 1 < 2 ^ 64 → Memory.wf s.w = true → ∃ t, exec .scanHit s = .next t ∧
    Memory.read t.w 0 = 0x47#8 ∧ (∀ a, a ≠ 0 → Memory.read t.w a = Memory.read s.w a) ∧
    t.pktOff = s.pos ∧ t.pos = s.pos + 1 ∧ t.idx = 1#8 ∧ t.st = .decoding ∧
    t.res = s.res ∧ t.cfg = s.cfg ∧ t.lastErr = s.lastErr ∧ t.inputs = s.inputs ∧ t.emitted = s.emitted ∧
    t.answer = s.answer

/-- `40_synchronizer.md` R102: `SCAN_SKIP` moves `POS` on and nothing else, but for the model's record of the stream
read (log 9), which is set back here before the states are compared. -/
def Obligations.ScanSkipOnlyMovesPos : Prop :=
  ∀ (s : State) (d : Byte), s.st = .seeking → s.pos + 1 < 2 ^ 64 → d ≠ 0x47#8 →
    ∃ t, exec (.scanSkip d) s = .next t ∧ { t with stream := s.stream } = { s with pos := s.pos + 1 }

/-- `40_synchronizer.md` R103: `SCAN_EOS` ends the run cleanly: no result, `LAST_ERR` unchanged. -/
def Obligations.ScanEosTerminates : Prop :=
  ∀ (s : State) (d : Byte), s.st = .seeking → exec (.scanEos d) s = .next { s with st := .terminated }

/-- `40_synchronizer.md` R104: `SCAN_IOERR` holds `SyncIo(c)` at offset `POS`. -/
def Obligations.ScanIoerrHoldsSyncIo : Prop :=
  ∀ (s : State) (e : Bool) (d c : Byte), s.st = .seeking → exec (.scanIoerr e d c) s =
    .next { s with res := some (.error .syncIo 0#8 c s.pos), lastErr := some .syncIo, st := .seekFailed }

/-! ## The beats of DECODING -/

/-- `43_stream_iterator.md` R164: the byte goes to `W[IDX]`, `POS` and `IDX` move on by one, whatever the byte and every
other window byte unchanged; at `IDX = 187` the decoder is evaluated on the completed window (R165), below it nothing
else changes. The canonical form of the window is the premise. -/
def Obligations.FillStoresTheByte : Prop :=
  ∀ (s : State) (d : Byte), s.st = .decoding → s.idx.toNat ≤ 187 → s.pos + 1 < 2 ^ 64 → Memory.wf s.w = true →
    ∃ t, exec (.fill d) s = .next t ∧
      Memory.read t.w s.idx.toNat = d ∧ (∀ a, a ≠ s.idx.toNat → Memory.read t.w a = Memory.read s.w a) ∧
      t.pos = s.pos + 1 ∧ t.idx.toNat = s.idx.toNat + 1 ∧
      t.pktOff = s.pktOff ∧ t.cfg = s.cfg ∧ t.inputs = s.inputs ∧ t.emitted = s.emitted ∧ t.answer = s.answer ∧
      (s.idx.toNat < 187 → t.st = .decoding ∧ t.res = s.res ∧ t.lastErr = s.lastErr) ∧
      (s.idx.toNat = 187 → outValid t = true ∧ (t.st = .yield ↔ (decode s.cfg (windowBytes t)).isOk = true))

/-- `43_stream_iterator.md` R165: the byte at offset 187 completes the window, and in the same event the answer of
`decode` on the completed window is loaded: a packet and YIELD, or an error, `LAST_ERR` and DECODE_FAILED. The form the
prefix selects (R80) and the function `decode` (R120) therefore agree. -/
def Obligations.LastFillLoadsWhatDecodeAnswers : Prop :=
  ∀ (s : State) (d : Byte), s.st = .decoding → s.idx = 187#8 → s.pos + 1 < 2 ^ 64 → Memory.wf s.w = true →
    ∃ t, exec (.fill d) s = .next t ∧
      Memory.read t.w 187 = d ∧ (∀ a, a ≠ 187 → Memory.read t.w a = Memory.read s.w a) ∧
      t.idx = 188#8 ∧ t.pos = s.pos + 1 ∧ t.pktOff = s.pktOff ∧ t.cfg = s.cfg ∧ t.inputs = s.inputs ∧
      t.emitted = s.emitted ∧ t.answer = s.answer ∧
      ((∃ pkt, decode s.cfg (windowBytes t) = .ok pkt ∧ t.st = .yield ∧ t.res = some (.packet pkt s.pktOff) ∧
          t.lastErr = s.lastErr) ∨
        (∃ e, decode s.cfg (windowBytes t) = .err e ∧ t.st = .decodeFailed ∧
          t.res = some (.error e.code (e.info 188#8) 0#8 s.pktOff) ∧ t.lastErr = some e.code))

/-- `43_stream_iterator.md` R166: `FILL_EOS` holds `ShortBuffer` with the number of bytes that were available. -/
def Obligations.FillEosHoldsShortBuffer : Prop :=
  ∀ (s : State) (d : Byte), s.st = .decoding → exec (.fillEos d) s =
    .next { s with res := some (.error .shortBuffer s.idx 0#8 s.pktOff), lastErr := some .shortBuffer,
                   st := .decodeFailed }

/-- `43_stream_iterator.md` R167: `FILL_IOERR` holds `ReadIo(c)` at offset `POS`. -/
def Obligations.FillIoerrHoldsReadIo : Prop :=
  ∀ (s : State) (e : Bool) (d c : Byte), s.st = .decoding → exec (.fillIoerr e d c) s =
    .next { s with res := some (.error .readIo 0#8 c s.pos), lastErr := some .readIo, st := .seekFailed }

/-- `10_state.md` R22, `93_implementation_defined.md` U15: a `DATA` beat that would make the stream 2^64 bytes long is
refused, and only then (log 4). -/
def Obligations.StreamOfTooManyBytesIsRefused : Prop :=
  ∀ (s : State) (d : Byte),
    (s.st = .seeking → (exec .scanHit s = .refused .streamTooLong ↔ 2 ^ 64 ≤ s.pos + 1) ∧
      (exec (.scanSkip d) s = .refused .streamTooLong ↔ 2 ^ 64 ≤ s.pos + 1)) ∧
    (s.st = .decoding → s.idx.toNat < 188 →
      (exec (.fill d) s = .refused .streamTooLong ↔ 2 ^ 64 ≤ s.pos + 1))

/-! ## The output event -/

/-- `43_stream_iterator.md` R168: `OUT` emits the held result, clears `RES` and `IDX`, and goes to SEEKING after a packet,
to SEEKING after a decode error other than `SHORT_BUFFER` under `cfg.resync`, and to FATAL otherwise; nothing else
changes. A holding state holds a result (R172), which is the premise. -/
def Obligations.OutTakesTheHeldResult : Prop :=
  ∀ (s : State) (r : Result), (s.st = .yield ∨ s.st = .decodeFailed ∨ s.st = .seekFailed) → s.res = some r →
    exec .out s =
      .next { s with
        emitted := s.emitted ++ [r]
        res := none
        idx := 0#8
        st := if s.st = .yield ∨ (s.st = .decodeFailed ∧ heldError s ≠ some .shortBuffer ∧ s.cfg.resync = true)
          then .seeking else .fatal }

/-! ## The packet forms -/

/-- `41_header_decoder.md` R123: `TS_BAD_SYNC` is selected exactly when the check is on and byte 0 is not 0x47, before
everything read from bytes 1 to 5; it raises `BadSync` with byte 0 and changes nothing else. -/
def Obligations.BadSyncFormRaises : Prop :=
  (∀ (cfg : Cfg) (b0 : Byte) (h : HdrFields) (afc : BitVec 2) (l f : Byte),
    decodePacket cfg (packPrefix b0 h afc l f) = .tsBadSync b0 h afc l f ↔
      (cfg.checkSync = true ∧ b0 ≠ 0x47#8)) ∧
  (∀ (s : State) (b0 : Byte) (h : HdrFields) (afc : BitVec 2) (l f : Byte), s.st = .decoding → s.idx = 188#8 →
    exec (.tsBadSync b0 h afc l f) s =
      .next { s with res := some (.error .badSync b0 0#8 s.pktOff), lastErr := some .badSync, st := .decodeFailed })

/-- `41_header_decoder.md` R126: `afc = 0b00` past the sync check is rejected with byte 3 under `cfg.afc00_reject`, and
is a packet with all its header fields and neither field nor payload otherwise, whatever bytes 4 and 5 hold. -/
def Obligations.ReservedFormFollowsThePolicy : Prop :=
  ∀ (s : State) (b0 : Byte) (h : HdrFields) (l f : Byte), s.st = .decoding → s.idx = 188#8 →
    (passesSyncCheck s.cfg b0 = true →
      decodePacket s.cfg (packPrefix b0 h 0b00#2 l f) = .tsReserved b0 h l f) ∧
    (s.cfg.afc00Reject = true → exec (.tsReserved b0 h l f) s =
      .next { s with res := some (.error .reservedAfc (packHeader h 0b00#2).2.2 0#8 s.pktOff),
                     lastErr := some .reservedAfc, st := .decodeFailed }) ∧
    (s.cfg.afc00Reject = false → ∃ hdr : Header, exec (.tsReserved b0 h l f) s =
        .next { s with res := some (.packet ⟨hdr, none⟩ s.pktOff), st := .yield } ∧
      hdr = unpackHeader (packHeader h 0b00#2).1 (packHeader h 0b00#2).2.1 (packHeader h 0b00#2).2.2 ∧
      hdr.hasAf = false ∧ hdr.hasPayload = false)

/-- `41_header_decoder.md` R127: `afc = 0b01` past the sync check is a packet without adaptation field, whatever bytes 4
and 5 hold. -/
def Obligations.PayloadFormLoadsAPacket : Prop :=
  ∀ (s : State) (b0 : Byte) (h : HdrFields) (l f : Byte), s.st = .decoding → s.idx = 188#8 →
    (passesSyncCheck s.cfg b0 = true →
      decodePacket s.cfg (packPrefix b0 h 0b01#2 l f) = .tsPayload b0 h l f) ∧
    (∃ hdr : Header, exec (.tsPayload b0 h l f) s =
        .next { s with res := some (.packet ⟨hdr, none⟩ s.pktOff), st := .yield } ∧
      hdr = unpackHeader (packHeader h 0b01#2).1 (packHeader h 0b01#2).2.1 (packHeader h 0b01#2).2.2 ∧
      hdr.hasAf = false ∧ hdr.hasPayload = true)

/-- `42_adaptation_field.md` R146: `afc = 0b10` with length 183 is a packet whose adaptation field fills it, with the
flags of byte 5. -/
def Obligations.AfOnlyFormLoadsAPacket : Prop :=
  ∀ (s : State) (b0 : Byte) (h : HdrFields) (f : Byte), s.st = .decoding → s.idx = 188#8 →
    (passesSyncCheck s.cfg b0 = true →
      decodePacket s.cfg (packPrefix b0 h 0b10#2 183#8 f) = .tsAfOnly b0 h f) ∧
    (∃ hdr : Header, exec (.tsAfOnly b0 h f) s =
        .next { s with
          res := some (.packet ⟨hdr, some ⟨183#8, some (unpackAfFlags f)⟩⟩ s.pktOff)
          st := .yield } ∧
      hdr = unpackHeader (packHeader h 0b10#2).1 (packHeader h 0b10#2).2.1 (packHeader h 0b10#2).2.2 ∧
      hdr.hasAf = true ∧ hdr.hasPayload = false)

/-- `42_adaptation_field.md` R147: `afc = 0b11` with length 0 is a packet with an adaptation field without flags,
whatever byte 5 holds. -/
def Obligations.AfPayloadEmptyFormLoadsAPacket : Prop :=
  ∀ (s : State) (b0 : Byte) (h : HdrFields) (f : Byte), s.st = .decoding → s.idx = 188#8 →
    (passesSyncCheck s.cfg b0 = true →
      decodePacket s.cfg (packPrefix b0 h 0b11#2 0#8 f) = .tsAfPayloadEmpty b0 h f) ∧
    (∃ hdr : Header, exec (.tsAfPayloadEmpty b0 h f) s =
        .next { s with
          res := some (.packet ⟨hdr, some ⟨0#8, none⟩⟩ s.pktOff)
          st := .yield } ∧
      hdr = unpackHeader (packHeader h 0b11#2).1 (packHeader h 0b11#2).2.1 (packHeader h 0b11#2).2.2 ∧
      hdr.hasAf = true ∧ hdr.hasPayload = true)

/-- `42_adaptation_field.md` R148: `afc = 0b11` with length 1 to 182 is a packet with that length and the flags of
byte 5. -/
def Obligations.AfPayloadFormLoadsAPacket : Prop :=
  ∀ (s : State) (b0 : Byte) (h : HdrFields) (l f : Byte), s.st = .decoding → s.idx = 188#8 →
    1 ≤ l.toNat → l.toNat ≤ 182 →
    (passesSyncCheck s.cfg b0 = true →
      decodePacket s.cfg (packPrefix b0 h 0b11#2 l f) = .tsAfPayload b0 h l f) ∧
    (∃ hdr : Header, exec (.tsAfPayload b0 h l f) s =
        .next { s with
          res := some (.packet ⟨hdr, some ⟨l, some (unpackAfFlags f)⟩⟩ s.pktOff)
          st := .yield } ∧
      hdr = unpackHeader (packHeader h 0b11#2).1 (packHeader h 0b11#2).2.1 (packHeader h 0b11#2).2.2 ∧
      hdr.hasAf = true ∧ hdr.hasPayload = true)

/-- `42_adaptation_field.md` R144: a length other than 183 without payload, or of 183 and more with payload, raises
`InvalidAdaptationFieldLength` with the observed length; no packet is delivered and nothing else changes. -/
def Obligations.BadLengthFormsRaise : Prop :=
  ∀ (s : State) (b0 : Byte) (h : HdrFields) (l f : Byte), s.st = .decoding → s.idx = 188#8 →
    (l.toNat ≠ 183 →
      (passesSyncCheck s.cfg b0 = true →
        decodePacket s.cfg (packPrefix b0 h 0b10#2 l f) = .tsAfOnlyBadlen b0 h l f) ∧
      exec (.tsAfOnlyBadlen b0 h l f) s =
        .next { s with res := some (.error .invalidAfLength l 0#8 s.pktOff), lastErr := some .invalidAfLength,
                       st := .decodeFailed }) ∧
    (183 ≤ l.toNat →
      (passesSyncCheck s.cfg b0 = true →
        decodePacket s.cfg (packPrefix b0 h 0b11#2 l f) = .tsAfPayloadBadlen b0 h l f) ∧
      exec (.tsAfPayloadBadlen b0 h l f) s =
        .next { s with res := some (.error .invalidAfLength l 0#8 s.pktOff), lastErr := some .invalidAfLength,
                       st := .decodeFailed })

/-! ## Unpacking -/

/-- `41_header_decoder.md` R121 as arithmetic on the bytes' values: each field is the digits of its byte that its bits
stand for, `pid` is the low five bits of byte 1 above byte 2, and none of it leaks into another field. The bit direction
is what the spec marks as general knowledge (log 13). -/
def Obligations.HeaderFieldsAreTheirBits : Prop :=
  ∀ b1 b2 b3 : Byte,
    b1.toNat = 128 * (unpackHeader b1 b2 b3).tei.toNat + 64 * (unpackHeader b1 b2 b3).pusi.toNat
      + 32 * (unpackHeader b1 b2 b3).tp.toNat + (unpackHeader b1 b2 b3).pid.toNat / 256 ∧
    (unpackHeader b1 b2 b3).pid.toNat = 256 * (b1.toNat % 32) + b2.toNat ∧
    b3.toNat = 64 * (unpackHeader b1 b2 b3).tsc.toNat + 16 * (unpackHeader b1 b2 b3).afc.toNat
      + (unpackHeader b1 b2 b3).cc.toNat

/-- `41_header_decoder.md` R129 (an inference of the spec from R121 and R84): packing and unpacking the header are
inverse on every field tuple and on every byte triple, and `pid` never exceeds 0x1FFF. -/
def Obligations.HeaderRoundTrip : Prop :=
  (∀ (h : HdrFields) (afc : BitVec 2),
    fieldsOf (unpackHeader (packHeader h afc).1 (packHeader h afc).2.1 (packHeader h afc).2.2) = h ∧
    (unpackHeader (packHeader h afc).1 (packHeader h afc).2.1 (packHeader h afc).2.2).afc = afc) ∧
  (∀ b1 b2 b3 : Byte,
    packHeader (fieldsOf (unpackHeader b1 b2 b3)) (unpackHeader b1 b2 b3).afc = (b1, b2, b3) ∧
    (unpackHeader b1 b2 b3).pid.toNat ≤ 0x1FFF)

/-- `42_adaptation_field.md` R145: the eight flags are the eight binary digits of byte 5, the first listed flag the most
significant; packing them again (R84) gives the byte, and every combination of flags is some byte's. The bit direction is
what the spec marks as general knowledge (log 13). -/
def Obligations.AfFlagsAreTheBitsOfTheByte : Prop :=
  (∀ b : Byte,
    b.toNat = 128 * (unpackAfFlags b).di.toNat + 64 * (unpackAfFlags b).rai.toNat + 32 * (unpackAfFlags b).espi.toNat
      + 16 * (unpackAfFlags b).pcr.toNat + 8 * (unpackAfFlags b).opcr.toNat + 4 * (unpackAfFlags b).sp.toNat
      + 2 * (unpackAfFlags b).tpd.toNat + (unpackAfFlags b).afe.toNat ∧
    packAfFlags (unpackAfFlags b) = b) ∧
  (∀ f : AfFlags, unpackAfFlags (packAfFlags f) = f)

/-! ## The function `decode` -/

/-- `60_exceptions.md` R195: which error one window reports: a short buffer first, whatever its bytes, then a bad sync
byte, then the reserved control value, then an illegal length; a window that fails none of them is a packet. -/
def Obligations.DecodeReportsTheFirstFailure : Prop :=
  ∀ (cfg : Cfg) (buf : List Byte),
    let hdr := unpackHeader (byteAt buf 1) (byteAt buf 2) (byteAt buf 3)
    let short := buf.length < 188
    let badSync := cfg.checkSync = true ∧ byteAt buf 0 ≠ 0x47#8
    let reserved := cfg.afc00Reject = true ∧ hdr.afc = 0b00#2
    let badLength := (hdr.afc = 0b10#2 ∧ (byteAt buf 4).toNat ≠ 183) ∨ (hdr.afc = 0b11#2 ∧ 183 ≤ (byteAt buf 4).toNat)
    (decode cfg buf = .err .shortBuffer ↔ short) ∧
    (decode cfg buf = .err (.badSync (byteAt buf 0)) ↔ ¬short ∧ badSync) ∧
    (decode cfg buf = .err (.reservedAfc (byteAt buf 3)) ↔ ¬short ∧ ¬badSync ∧ reserved) ∧
    (decode cfg buf = .err (.invalidAfLength (byteAt buf 4)) ↔ ¬short ∧ ¬badSync ∧ badLength) ∧
    ((decode cfg buf).isOk = true ↔ ¬short ∧ ¬badSync ∧ ¬reserved ∧ ¬badLength)

/-- `42_adaptation_field.md` R142, R145 and `41_header_decoder.md` R120: what `decode` answers when it answers a packet:
the header of bytes 1 to 3; no adaptation field when `afc[1] = 0`; otherwise the field with the length of byte 4, and the
flags of byte 5 exactly when the length is not 0. -/
def Obligations.DecodedPacketHasTheWindowsFields : Prop :=
  ∀ (cfg : Cfg) (buf : List Byte) (pkt : TransportPacket), decode cfg buf = .ok pkt →
    pkt.header = unpackHeader (byteAt buf 1) (byteAt buf 2) (byteAt buf 3) ∧
    (pkt.header.afc.toNat < 2 → pkt.adaptationField = none) ∧
    (2 ≤ pkt.header.afc.toNat → ∃ af, pkt.adaptationField = some af ∧ af.length = byteAt buf 4 ∧
      (af.length = 0#8 → af.header = none) ∧ (af.length ≠ 0#8 → af.header = some (unpackAfFlags (byteAt buf 5))))

/-- `41_header_decoder.md` R125 and R134: the answer of `decode` depends on the number of bytes, on `cfg` and on bytes 0
to 5 only; not on bytes 4 and 5 when `afc[1] = 0`, and not on byte 5 when the length is 0. -/
def Obligations.DecodeLooksAtNothingElse : Prop :=
  ∀ (cfg : Cfg) (buf buf' : List Byte), buf.length = buf'.length → (∀ i, i < 4 → byteAt buf i = byteAt buf' i) →
    ((unpackHeader (byteAt buf 1) (byteAt buf 2) (byteAt buf 3)).hasAf = true → byteAt buf 4 = byteAt buf' 4) →
    ((unpackHeader (byteAt buf 1) (byteAt buf 2) (byteAt buf 3)).hasAf = true → byteAt buf 4 ≠ 0#8 →
      byteAt buf 5 = byteAt buf' 5) →
    decode cfg buf = decode cfg buf'

/-- `20_memory.md` R58 (an inference of the spec): the payload of an accepted packet is at least one byte and runs to
the end of the window exactly when `afc[0] = 1`, and is empty otherwise. -/
def Obligations.PayloadFillsTheRestOfTheWindow : Prop :=
  ∀ (cfg : Cfg) (buf : List Byte) (pkt : TransportPacket), decode cfg buf = .ok pkt →
    (pkt.header.hasPayload = true → 1 ≤ (payloadRange pkt).2 ∧ 4 ≤ (payloadRange pkt).1 ∧
      (payloadRange pkt).1 + (payloadRange pkt).2 = 188) ∧
    (pkt.header.hasPayload = false → (payloadRange pkt).2 = 0)

/-! ## Contract-level operations -/

/-- `DECODE` (R120, R90) completes in every state: it answers the function `decode` on `W[0..IDX-1]` and `cfg`, and no state
of the block is written. The spec evaluates it when the window is full; that it answers on the bytes received at any other
moment is the model's reading (log 23, DEDUCED), and that the answer stands in a field its choice (log 10). -/
def Obligations.DecodeOperationWritesNothing : Prop :=
  ∀ s : State, exec .decode s =
    .next { s with answer := some (.decoded (decode s.cfg ((List.range s.idx.toNat).map (Memory.read s.w)))) }

/-- The accessors (`41_header_decoder.md` R130 to R132, `10_state.md` R30) complete in every state and write nothing but
their answer (log 10), which is the pin of the output port: for an offered packet `pid == 0`, `afc[1]`, `afc[0]`, and 0
while no packet is offered. -/
def Obligations.AccessorsReadTheOfferedPacket : Prop :=
  ∀ s : State,
    exec .isPat s = .next { s with answer := some (.bit (outPins s).isPat) } ∧
    exec .hasAf s = .next { s with answer := some (.bit (outPins s).hasAf) } ∧
    exec .hasPayload s = .next { s with answer := some (.bit (outPins s).hasPayload) } ∧
    (∀ pkt q, outValid s = true → s.res = some (.packet pkt q) →
      ((outPins s).isPat = true ↔ pkt.header.pid = 0#16) ∧ ((outPins s).hasAf = true ↔ 2 ≤ pkt.header.afc.toNat) ∧
      ((outPins s).hasPayload = true ↔ pkt.header.afc.toNat % 2 = 1)) ∧
    ((outValid s = false ∨ ∀ pkt q, s.res ≠ some (.packet pkt q)) →
      (outPins s).isPat = false ∧ (outPins s).hasAf = false ∧ (outPins s).hasPayload = false)

/-- `40_synchronizer.md` R100: `find_sync` finds the least offset of a sync byte from `p` on; without one it answers the
terminator's error. -/
def Obligations.FindSyncFindsTheLeastOffset : Prop :=
  ∀ (S : Source) (p : Nat),
    (∀ q, findSync S p = .found q ↔
      (p ≤ q ∧ S.bytes[q]? = some 0x47#8 ∧ ∀ r, p ≤ r → r < q → S.bytes[r]? ≠ some 0x47#8)) ∧
    (findSync S p = .endOfStream ↔ ((∀ r, p ≤ r → S.bytes[r]? ≠ some 0x47#8) ∧ S.term = .eos)) ∧
    (∀ c, findSync S p = .io c ↔ ((∀ r, p ≤ r → S.bytes[r]? ≠ some 0x47#8) ∧ S.term = .ioerr c))

/-- `40_synchronizer.md` R106: running the search again from the position it returned gives the same position. -/
def Obligations.FindSyncIsIdempotent : Prop :=
  ∀ (S : Source) (p q : Nat), findSync S p = .found q → findSync S q = .found q ∧ p ≤ q ∧ q < S.bytes.length

/-- `40_synchronizer.md` R105 (an inference of the spec): `FIND_SYNC` from SEEKING at `POS = p`, the Source offering the
beats from offset `p` on, one an edge, does what the function says, takes exactly the beats it needs, and answers what
the function answers (log 10, 11). -/
def Obligations.FindSyncOperationAgreesWithTheFunction : Prop :=
  ∀ (S : Source) (s : State) (rest : List Pins), s.st = .seeking → s.pos ≤ S.bytes.length →
    S.bytes.length < 2 ^ 64 → Memory.wf s.w = true →
    s.inputs = (S.beats.drop s.pos).map Pins.offer ++ rest →
    ∃ t, exec .findSync s = .next t ∧ t.answer = some (.sync (findSync S s.pos)) ∧ t.cfg = s.cfg ∧
      t.emitted = s.emitted ∧
      (∀ q, findSync S s.pos = .found q → t.st = .decoding ∧ t.pktOff = q ∧ t.pos = q + 1 ∧ t.idx = 1#8 ∧
        Memory.read t.w 0 = 0x47#8 ∧ t.res = s.res ∧ t.lastErr = s.lastErr ∧
        t.inputs = (S.beats.drop (q + 1)).map Pins.offer ++ rest) ∧
      (findSync S s.pos = .endOfStream → t.st = .terminated ∧ t.pos = S.bytes.length ∧ t.idx = s.idx ∧ t.w = s.w ∧
        t.res = s.res ∧ t.lastErr = s.lastErr ∧ t.inputs = rest) ∧
      (∀ c, findSync S s.pos = .io c → t.st = .seekFailed ∧ t.pos = S.bytes.length ∧ t.idx = s.idx ∧ t.w = s.w ∧
        t.res = some (.error .syncIo 0#8 c S.bytes.length) ∧ t.lastErr = some .syncIo ∧ t.inputs = rest)

/-- `43_stream_iterator.md` R162, R90: `NEXT` completes in every state a run can be in, and delivers at most one result:
the one taken, or the end of the sequence, or nothing yet because no edge is left or a `RESET` comes (log 10, 11). -/
def Obligations.NextDeliversAtMostOneResult : Prop :=
  ∀ s : State, StateInv s → s.pos + s.inputs.length < 2 ^ 64 → ∃ t, exec .next s = .next t ∧
    ((∃ r, t.answer = some (.item r) ∧ t.emitted = s.emitted ++ [r]) ∨
      (t.answer = some .ended ∧ ended t = true ∧ t.emitted = s.emitted) ∨
      (t.answer = some .waiting ∧ t.emitted = s.emitted ∧
        (t.inputs = [] ∨ ∃ p ps, t.inputs = p :: ps ∧ p.rst = true)))

/-- `43_stream_iterator.md` R162 (a) to (c): `NEXT` from SEEKING at `POS = p` over a Source's beats, the Consumer then
taking the result: the packet or error of the next window and the return of R168, a clean end without a result, one
terminal error on an I/O failure, or `ShortBuffer` or `ReadIo` inside a window (answers: log 10, 11). -/
def Obligations.NextDeliversTheNextWindow : Prop :=
  ∀ (S : Source) (s : State) (rest : List Pins), StateInv s → s.st = .seeking → s.pos ≤ S.bytes.length →
    S.bytes.length < 2 ^ 64 →
    (∀ q, findSync S s.pos = .found q → q + 188 ≤ S.bytes.length →
      s.inputs = ((S.beats.drop s.pos).take (q + 188 - s.pos)).map Pins.offer ++ Pins.take :: rest →
      ∃ t, exec .next s = .next t ∧ t.inputs = rest ∧ t.pos = q + 188 ∧ t.pktOff = q ∧
        t.answer = some (.item ((decode s.cfg ((S.bytes.drop q).take 188)).toResult q 188#8)) ∧
        t.st = if (decode s.cfg ((S.bytes.drop q).take 188)).isOk || s.cfg.resync then .seeking else .fatal) ∧
    (∀ q, findSync S s.pos = .found q → S.bytes.length < q + 188 →
      s.inputs = (S.beats.drop s.pos).map Pins.offer ++ Pins.take :: rest →
      ∃ t, exec .next s = .next t ∧ t.inputs = rest ∧ t.pos = S.bytes.length ∧ t.st = .fatal ∧
        t.answer = some (.item (match S.term with
          | .eos => .error .shortBuffer (BitVec.ofNat 8 (S.bytes.length - q)) 0#8 q
          | .ioerr c => .error .readIo 0#8 c S.bytes.length))) ∧
    (findSync S s.pos = .endOfStream → s.inputs = (S.beats.drop s.pos).map Pins.offer ++ rest →
      ∃ t, exec .next s = .next t ∧ t.inputs = rest ∧ t.pos = S.bytes.length ∧ t.st = .terminated ∧
        t.answer = some .ended ∧ t.emitted = s.emitted) ∧
    (∀ c, findSync S s.pos = .io c → s.inputs = (S.beats.drop s.pos).map Pins.offer ++ Pins.take :: rest →
      ∃ t, exec .next s = .next t ∧ t.inputs = rest ∧ t.pos = S.bytes.length ∧ t.st = .fatal ∧
        t.answer = some (.item (.error .syncIo 0#8 c S.bytes.length)))

/-! ## Rules over all steps -/

/-- `70_reset_and_hazards.md` R235, `10_state.md` R32: no instruction but `RESET` changes `CFG`, and changing the `cfg_*`
pins of an edge without `rst` has no effect: the step answers the same, the whole next state included. -/
def Obligations.OnlyResetChangesCfg : Prop :=
  (∀ (i : Instr) (s t : State), (∀ o n c, i ≠ .reset o n c) → exec i s = .next t → t.cfg = s.cfg) ∧
  (∀ (s : State) (p : Pins) (ps : List Pins) (c : Cfg), p.rst = false →
    step { s with inputs := { p with cfg := c } :: ps } = step { s with inputs := p :: ps })

/-- `10_state.md` R33: `LAST_ERR` is sticky: a step without `RESET` leaves it, or sets it to the error it loads into
`RES`; it never goes back to none. -/
def Obligations.LastErrIsSticky : Prop :=
  ∀ (s t : State) (p : Pins) (ps : List Pins), s.inputs = p :: ps → p.rst = false → step s = .next t →
    t.lastErr = s.lastErr ∨ (∃ e, t.lastErr = some e ∧ heldError t = some e ∧ outValid t = true)

/-- `10_state.md` R22: every accepted `DATA` beat adds one to `POS`; `EOS` and `IOERR` beats, `OUT` and idle edges leave
it; `RESET` clears it. -/
def Obligations.PosCountsTheDataBeats : Prop :=
  ∀ (s t : State) (p : Pins) (ps : List Pins), s.inputs = p :: ps → step s = .next t →
    t.pos = if p.rst = true then 0
      else if inFire s p = true ∧ p.inErr = false ∧ p.inEos = false then s.pos + 1 else s.pos

/-- `43_stream_iterator.md` R170: every transition of the state machine, and no other. -/
def Obligations.TransitionsAreThoseOfTheTable : Prop :=
  ∀ (s t : State) (p : Pins) (ps : List Pins), s.inputs = p :: ps → step s = .next t →
    t.st = if p.rst = true then .seeking else
      match s.st with
      | .seeking =>
        if p.inValid = false then .seeking
        else if p.inErr = true then .seekFailed
        else if p.inEos = true then .terminated
        else if p.inData = 0x47#8 then .decoding
        else .seeking
      | .decoding =>
        if p.inValid = false then .decoding
        else if p.inErr = true then .seekFailed
        else if p.inEos = true then .decodeFailed
        else if s.idx.toNat < 187 then .decoding
        else if (decode s.cfg (windowBytes t)).isOk = true then .yield
        else .decodeFailed
      | .yield => if p.outReady = true then .seeking else .yield
      | .decodeFailed =>
        if p.outReady = false then .decodeFailed
        else if heldError s ≠ some .shortBuffer ∧ s.cfg.resync = true then .seeking
        else .fatal
      | .seekFailed => if p.outReady = true then .fatal else .seekFailed
      | .terminated => .terminated
      | .fatal => .fatal

/-- `43_stream_iterator.md` R176: in TERMINATED and FATAL no event but `RESET` is enabled: no beat is accepted, nothing is
offered, every `out_*` pin is 0, and every edge without `rst` leaves the state as it is. -/
def Obligations.TerminalStatesAreLeftByResetOnly : Prop :=
  ∀ s : State, (s.st = .terminated ∨ s.st = .fatal) →
    inReady s = false ∧ outValid s = false ∧ outPins s = OutPins.zero ∧
    (∀ p ps, s.inputs = p :: ps → p.rst = false → step s = .next { s with inputs := ps }) ∧
    (∀ p ps, s.inputs = p :: ps → p.rst = true → ∃ t, step s = .next t ∧ t.st = .seeking ∧ t.pos = 0)

/-- `20_memory.md` R65: once `EOS` or `IOERR` has been accepted, no beat is accepted until `RESET`: a terminal beat leads
into a set of states in which `in_ready = 0` and which only `RESET` leaves. -/
def Obligations.TerminalBeatIsTheLastBeat : Prop :=
  (∀ (s t : State) (p : Pins) (ps : List Pins), s.inputs = p :: ps → p.rst = false → inFire s p = true →
    (p.inErr = true ∨ p.inEos = true) → step s = .next t → closed t = true) ∧
  (∀ s : State, closed s = true → inReady s = false) ∧
  (∀ (s t : State) (p : Pins) (ps : List Pins), s.inputs = p :: ps → p.rst = false → closed s = true →
    step s = .next t → closed t = true)

/-- The output port. `10_state.md` R43: while `out_valid = 1` and no `OUT` (and no `RESET`) happens, every `out_*` pin is
stable, and so is what the window read port shows (R44). What is held, pin by pin: for a packet R27 to R30 and
`41_header_decoder.md` R128, every absent field 0; for an error R29 and `60_exceptions.md` R190, R200, every packet field 0.
A 64-bit pin shows the offset modulo 2^64 (log 22). -/
def Obligations.OutputPinsAreStableWhileHeld : Prop :=
  (∀ (s t : State) (p : Pins) (ps : List Pins), s.inputs = p :: ps → p.rst = false → outValid s = true →
    p.outReady = false → step s = .next t → outPins t = outPins s ∧ (∀ a, winData t a = winData s a)) ∧
  (∀ (s : State) (hdr : Header) (af : Option AdaptationField) (q : Nat), outValid s = true →
    s.res = some (.packet ⟨hdr, af⟩ q) →
    (outPins s).outValid = true ∧ (outPins s).kind = false ∧ (outPins s).err = 0#3 ∧ (outPins s).info = 0#8 ∧
    (outPins s).cause = 0#8 ∧ (outPins s).offset.toNat = q % 2 ^ 64 ∧ (outPins s).tei = hdr.tei ∧
    (outPins s).pusi = hdr.pusi ∧ (outPins s).tp = hdr.tp ∧ (outPins s).pid = hdr.pid ∧ (outPins s).tsc = hdr.tsc ∧
    (outPins s).afc = hdr.afc ∧ (outPins s).cc = hdr.cc ∧ ((outPins s).isPat = true ↔ hdr.pid = 0#16) ∧
    ((outPins s).hasAf = true ↔ 2 ≤ hdr.afc.toNat) ∧ ((outPins s).hasPayload = true ↔ hdr.afc.toNat % 2 = 1) ∧
    (af = none → (outPins s).afPresent = false ∧ (outPins s).afLength = 0#8) ∧
    (∀ l h, af = some ⟨l, h⟩ → (outPins s).afPresent = true ∧ (outPins s).afLength = l) ∧
    ((af = none ∨ ∃ l, af = some ⟨l, none⟩) → (outPins s).afhPresent = false ∧ (outPins s).di = false ∧
      (outPins s).rai = false ∧ (outPins s).espi = false ∧ (outPins s).pcr = false ∧ (outPins s).opcr = false ∧
      (outPins s).sp = false ∧ (outPins s).tpd = false ∧ (outPins s).afe = false) ∧
    (∀ l f, af = some ⟨l, some f⟩ → (outPins s).afhPresent = true ∧ (outPins s).di = f.di ∧ (outPins s).rai = f.rai ∧
      (outPins s).espi = f.espi ∧ (outPins s).pcr = f.pcr ∧ (outPins s).opcr = f.opcr ∧ (outPins s).sp = f.sp ∧
      (outPins s).tpd = f.tpd ∧ (outPins s).afe = f.afe)) ∧
  (∀ (s : State) (code : ErrCode) (info cause : Byte) (q : Nat), outValid s = true →
    s.res = some (.error code info cause q) →
    (outPins s).err.toNat = (match code with
      | .syncIo => 1
      | .readIo => 2
      | .shortBuffer => 3
      | .badSync => 4
      | .invalidAfLength => 5
      | .reservedAfc => 6) ∧
    (outPins s).offset.toNat = q % 2 ^ 64 ∧
    outPins s = { OutPins.zero with
      outValid := true, kind := true, err := (outPins s).err, info := info, cause := cause
      offset := (outPins s).offset })

/-- `10_state.md` R44 with the invariant of R172: while a result is held the window read port shows the bytes of the
stream the result is about, and 0x00 from `IDX` on; while none is held it shows 0x00. -/
def Obligations.WindowPortShowsTheHeldBytes : Prop :=
  ∀ (s : State) (a : Byte), StateInv s →
    (outValid s = true → a.toNat < s.idx.toNat → winData s a = s.stream.getD (s.pktOff + a.toNat) 0#8) ∧
    (outValid s = true → s.idx.toNat ≤ a.toNat → winData s a = 0#8) ∧
    (outValid s = false → winData s a = 0#8)

/-- `10_state.md` R33: the `STATUS` pins are `ST` in bits 2:0 with the codes of R24's table, `LAST_ERR` in bits 5:3 with
those of `60_exceptions.md` R190's table, and `IDX` in bits 13:6; so no two states and no two errors share a code. The
other status pins are `POS` and `PKT_OFF`, modulo 2^64 (log 22). -/
def Obligations.StatusPinsHoldTheirFields : Prop :=
  ∀ s : State,
    (statusWord s).toNat % 8 = (match s.st with
      | .seeking => 0
      | .decoding => 1
      | .yield => 2
      | .decodeFailed => 3
      | .seekFailed => 4
      | .terminated => 5
      | .fatal => 6) ∧
    (statusWord s).toNat / 8 % 8 = (match s.lastErr with
      | none => 0
      | some .syncIo => 1
      | some .readIo => 2
      | some .shortBuffer => 3
      | some .badSync => 4
      | some .invalidAfLength => 5
      | some .reservedAfc => 6) ∧
    (statusWord s).toNat / 64 = s.idx.toNat ∧
    (∀ u : State, statusWord s = statusWord u → s.st = u.st ∧ s.lastErr = u.lastErr ∧ s.idx = u.idx) ∧
    (stPos s).toNat = s.pos % 2 ^ 64 ∧ (stPktOff s).toNat = s.pktOff % 2 ^ 64

/-! ## Invariants -/

/-- `43_stream_iterator.md` R172 at reset, for every `cfg`, with the run's records empty. -/
def Obligations.InvHoldsAtReset : Prop :=
  ∀ c : Cfg, StateInv (State.resetWith c) ∧ PacketsOk (State.resetWith c) ∧ SpacedRun (State.resetWith c) ∧
    OneEnd (State.resetWith c)

/-- `43_stream_iterator.md` R172 (an inference of the spec): every step keeps the table of invariants (which beat came
last is no state and left out), with the canonical form of the window and `POS` as the number of bytes accepted. -/
def Obligations.EveryStepKeepsInv : Prop :=
  ∀ s t : State, StateInv s → step s = .next t → StateInv t

/-- The model's memory: every instruction, well formed or not, keeps the window canonical (offsets rising, no 0x00
listed) and inside offsets 0 to 187 (`70_reset_and_hazards.md` R239). -/
def Obligations.EveryInstructionKeepsTheWindowCanonical : Prop :=
  ∀ (i : Instr) (s t : State), Memory.wf s.w = true → Memory.inWindow s.w = true → exec i s = .next t →
    Memory.wf t.w = true ∧ Memory.inWindow t.w = true

/-- `42_adaptation_field.md` R142, R143, R145, `30_encoding.md` R74, `41_header_decoder.md` R131: every packet offered or
taken has `pid ≤ 0x1FFF`, an adaptation field exactly when `has_af`, a length of at most 183 that is 183 exactly for
`afc = 0b10`, and flags exactly when the length is not 0; every step keeps that, from any state. -/
def Obligations.EveryStepKeepsPacketsWellFormed : Prop :=
  ∀ s t : State, PacketsOk s → step s = .next t → PacketsOk t

/-- `60_exceptions.md` R205 and `43_stream_iterator.md` R163 (inferences of the spec): every step keeps that the results
taken lie at least 188 bytes apart, and that at most one of them ends the run, the last one, exactly in FATAL. -/
def Obligations.EveryStepKeepsTheRunInOrder : Prop :=
  ∀ s t : State, StateInv s → SpacedRun s → OneEnd s → step s = .next t → SpacedRun t ∧ OneEnd t

/-- `41_header_decoder.md` R124 (an inference of the spec): the composed block never holds `BadSync`, and `cfg.check_sync`
has no effect on the block's output sequence. -/
def Obligations.ComposedBlockNeverRaisesBadSync : Prop :=
  (∀ s : State, StateInv s → heldError s ≠ some .badSync) ∧
  (∀ (S : Source) (afc00Reject resync : Bool),
    iterate S ⟨afc00Reject, resync, true⟩ = iterate S ⟨afc00Reject, resync, false⟩)

/-! ## Whole runs -/

/-- `43_stream_iterator.md` R163: the function that says what the whole block does ends in TERMINATED or FATAL for every
stream and configuration; in FATAL exactly when its last result ends the run (R205); its results lie at least 188
bytes apart. -/
def Obligations.IterateEndsAndIsSpaced : Prop :=
  ∀ (S : Source) (cfg : Cfg), ((iterate S cfg).2 = .terminated ∨ (iterate S cfg).2 = .fatal) ∧
    spaced (iterate S cfg).1 = true ∧
    ((iterate S cfg).2 = .fatal ↔ (iterate S cfg).1.getLast?.map (Result.endsRun cfg) = some true) ∧
    (∀ r, r ∈ (iterate S cfg).1.dropLast → r.endsRun cfg = false)

/-- `43_stream_iterator.md` R173 (an inference of the spec), `10_state.md` R40: THE EVENTS REALISE THE FUNCTION. For every
stream, configuration and order of readiness, a run from reset that has ended has emitted the output sequence of
`iterate` and is in its final state, with `POS` the number of bytes accepted. -/
def Obligations.EventsRealiseTheFunction : Prop :=
  ∀ (S : Source) (cfg : Cfg) (turns : List Turn) (t : State), S.bytes.length < 2 ^ 64 →
    drive turns S.beats (State.resetWith cfg) = .next t → ended t = true →
    (t.emitted, t.st) = iterate S cfg ∧ t.pos = readAtEnd S (iterate S cfg).1 (iterate S cfg).2

/-- `70_reset_and_hazards.md` R238 and `60_exceptions.md` R214: no run on a finite stream stops by a fault or a refusal,
and once the two sides have been ready together often enough it has ended. -/
def Obligations.EveryFiniteStreamReachesAnEnd : Prop :=
  ∀ (S : Source) (cfg : Cfg) (turns : List Turn), S.bytes.length < 2 ^ 64 →
    ∃ t, drive turns S.beats (State.resetWith cfg) = .next t ∧
      (2 * (S.bytes.length + 1) ≤ turns.count ⟨true, true⟩ → ended t = true)

/-- `10_state.md` R41: nothing about earlier packets can influence later results. Two states that seek at the same
offset under the same `CFG`, whatever their windows, `PKT_OFF`, `LAST_ERR` and records, go through the same states and
emit the same results on the same beats and turns. -/
def Obligations.NoHistoryInfluencesLaterResults : Prop :=
  ∀ (s u : State) (turns : List Turn) (beats : List Beat) (t : State),
    s.st = .seeking → u.st = .seeking → s.idx = 0#8 → u.idx = 0#8 → s.res = none → u.res = none →
    s.pos = u.pos → s.cfg = u.cfg → Memory.wf s.w = true → Memory.wf u.w = true →
    drive turns beats s = .next t →
    ∃ v results, drive turns beats u = .next v ∧ v.st = t.st ∧ v.pos = t.pos ∧ v.idx = t.idx ∧ v.res = t.res ∧
      t.emitted = s.emitted ++ results ∧ v.emitted = u.emitted ++ results

/-! ## Encodings -/

/-- DECODE AND ENCODE AGREE: in every state and configuration in which a well-formed instruction can be selected, its
word decodes to it, with every operand at every value (`30_encoding.md` R70, R73, R78 to R80, R93; bit direction:
log 13). -/
def Obligations.DecodeOfEncodeIsTheInstruction : Prop :=
  ∀ (i : Instr) (st : St) (cfg : Cfg) (w : Word), i.wf = true → i.inContext st cfg = true → encode i = some w →
    decodeWord st cfg w = .ok i

/-- Every word that selects an instruction is that instruction's word, bit for bit (the side values that no row but an
`IOERR` or a `RESET` uses apart), and what it selects is well formed and in its context: no two rows share a word in
one context. -/
def Obligations.EncodeOfDecodeIsTheWord : Prop :=
  ∀ (st : St) (cfg : Cfg) (w : Word) (i : Instr), decodeWord st cfg w = .ok i →
    i.wf = true ∧ i.inContext st cfg = true ∧ (encode i).map Word.bits = some w.bits

/-- `30_encoding.md` R93, R78 to R80: the decoder selects, in each context, the first row of the opcode table in priority
order whose mask and constraint the word meets. For a beat and for a packet prefix some row always does; an event word
that no row of the state's context meets (R93, R160) selects nothing. -/
def Obligations.DecoderSelectsTheFirstMatchingRow : Prop :=
  (∀ (cfg : Cfg) (w : BitVec 10) (c : Byte),
    (scanRows.find? (Row.applies cfg (w.setWidth 48))).map Row.mnemonic = some (decodeScan w c).row.mnemonic ∧
    (fillRows.find? (Row.applies cfg (w.setWidth 48))).map Row.mnemonic = some (decodeFill w c).row.mnemonic) ∧
  (∀ (cfg : Cfg) (p : BitVec 48),
    (packetRows.find? (Row.applies cfg p)).map Row.mnemonic = some (decodePacket cfg p).row.mnemonic) ∧
  (∀ (st : St) (cfg cfgPins : Cfg) (w : BitVec 3),
    ((eventRows st).find? (Row.applies cfg (w.setWidth 48))).map Row.mnemonic =
      (decodeWord st cfg (.event w cfgPins)).toOption.map fun i => i.row.mnemonic)

/-- A few words written out from the spec (sanity): R78's sync byte, R79's `EOS`, the event words of R93, the examples
`47 41 00 36 07 50` (R148) and `47 01 00 31 B7` (R144). -/
def Obligations.WordsOfTheSpecDecode : Prop :=
  decodeWord .seeking Cfg.recommended (.beat 0b0001000111#10 0#8) = .ok .scanHit ∧
  decodeWord .decoding Cfg.recommended (.beat 0b0100000000#10 0#8) = .ok (.fillEos 0#8) ∧
  decodeWord .fatal Cfg.recommended (.event 0b100#3 ⟨true, false, true⟩) = .ok (.reset false false ⟨true, false, true⟩) ∧
  decodeWord .yield Cfg.recommended (.event 0b010#3 Cfg.recommended) = .ok .out ∧
  decodeWord .decoding Cfg.recommended (.packet 0x474100360750#48)
    = .ok (.tsAfPayload 0x47#8 ⟨false, true, false, 0x0100#13, 0#2, 6#4⟩ 7#8 0x50#8) ∧
  decodeWord .decoding Cfg.recommended (.packet 0x47010031B700#48)
    = .ok (.tsAfPayloadBadlen 0x47#8 ⟨false, false, false, 0x0100#13, 0#2, 1#4⟩ 0xB7#8 0#8)
end

