-- ==== Sys2Proof/Laws/Bits.lean ====
section
/-! SUPPORT. The bits of a placed field, and the fields of a packet prefix made of six bytes. -/

namespace Sys2Proof

/-- Bit `i` of a field placed at bit `k`. -/
theorem getLsbD_place {n : Nat} (w k i : Nat) (v : BitVec n) :
    (place w k v).getLsbD i = (decide (i < w) && decide (k ≤ i) && v.getLsbD (i - k)) := by
  unfold place
  rw [BitVec.getLsbD_shiftLeft, BitVec.getLsbD_setWidth]
  by_cases hi : i < w
  · by_cases hk : k ≤ i
    · have h1 : ¬ i < k := by omega
      have h2 : i - k < w := by omega
      simp [hi, hk, h1, h2]
    · have h1 : i < k := by omega
      simp [hi, hk, h1]
  · simp [hi]

/-- Bit `i` of a prefix: the byte it falls into (`30_encoding.md` R71). -/
theorem getLsbD_prefixOf (b0 b1 b2 b3 b4 b5 : Byte) (i : Nat) :
    (prefixOf b0 b1 b2 b3 b4 b5).getLsbD i =
      (decide (i < 48) && ((decide (40 ≤ i) && b0.getLsbD (i - 40)) || (decide (32 ≤ i) && b1.getLsbD (i - 32))
        || (decide (24 ≤ i) && b2.getLsbD (i - 24)) || (decide (16 ≤ i) && b3.getLsbD (i - 16))
        || (decide (8 ≤ i) && b4.getLsbD (i - 8)) || b5.getLsbD i)) := by
  simp only [prefixOf, BitVec.getLsbD_or, getLsbD_place]
  by_cases hi : i < 48 <;> simp [hi]

theorem getLsbD_byte_of_le (b : Byte) (i : Nat) (h : 8 ≤ i) : b.getLsbD i = false := BitVec.getLsbD_of_ge b i h

/-- A prefix read back byte by byte. -/
theorem prefixSync_prefixOf (b0 b1 b2 b3 b4 b5 : Byte) : prefixSync (prefixOf b0 b1 b2 b3 b4 b5) = b0 := by
  apply BitVec.eq_of_getLsbD_eq
  intro i hi
  rw [prefixSync, BitVec.getLsbD_extractLsb', getLsbD_prefixOf]
  interval_cases i <;> simp

theorem prefixLen_prefixOf (b0 b1 b2 b3 b4 b5 : Byte) : prefixLen (prefixOf b0 b1 b2 b3 b4 b5) = b4 := by
  apply BitVec.eq_of_getLsbD_eq
  intro i hi
  rw [prefixLen, BitVec.getLsbD_extractLsb', getLsbD_prefixOf]
  interval_cases i <;> simp

theorem prefixFlags_prefixOf (b0 b1 b2 b3 b4 b5 : Byte) : prefixFlags (prefixOf b0 b1 b2 b3 b4 b5) = b5 := by
  apply BitVec.eq_of_getLsbD_eq
  intro i hi
  rw [prefixFlags, BitVec.getLsbD_extractLsb', getLsbD_prefixOf]
  interval_cases i <;> simp

/-- The control bits are bits 5:4 of byte 3 (R73). -/
theorem prefixAfc_prefixOf (b0 b1 b2 b3 b4 b5 : Byte) :
    prefixAfc (prefixOf b0 b1 b2 b3 b4 b5) = b3.extractLsb' 4 2 := by
  apply BitVec.eq_of_getLsbD_eq
  intro i hi
  rw [prefixAfc, BitVec.getLsbD_extractLsb', getLsbD_prefixOf, BitVec.getLsbD_extractLsb']
  interval_cases i <;> simp

end Sys2Proof
end

