-- ==== Sys2Proof/Laws/Memory.lean ====
section
/-! SUPPORT. The laws of the window: a read after a write, and the canonical form that every write keeps. -/

namespace Sys2Proof.Machine

@[simp] theorem Memory.read_nil (a : Nat) : Memory.read [] a = 0#8 := rfl

/-- Below the first listed offset of a canonical window every byte reads 0x00. -/
theorem Memory.read_of_lt_wfAbove {m : Memory} {lo a : Nat} (h : Memory.wfAbove lo m = true) (ha : a < lo) :
    Memory.read m a = 0#8 := by
  induction m generalizing lo with
  | nil => rfl
  | cons c m ih =>
    obtain ⟨b, x⟩ := c
    simp only [Memory.wfAbove, Bool.and_eq_true, decide_eq_true_eq] at h
    have hne : a ≠ b := by omega
    simp only [Memory.read, hne, if_false]
    exact ih h.2 (by omega)

/-- Lowering the bound keeps the canonical form. -/
theorem Memory.wfAbove_mono {m : Memory} {lo lo' : Nat} (h : Memory.wfAbove lo m = true) (hl : lo' ≤ lo) :
    Memory.wfAbove lo' m = true := by
  cases m with
  | nil => rfl
  | cons c m =>
    obtain ⟨b, x⟩ := c
    simp only [Memory.wfAbove, Bool.and_eq_true, decide_eq_true_eq] at h ⊢
    exact ⟨⟨by omega, h.1.2⟩, h.2⟩

/-- A write keeps the canonical form. -/
theorem Memory.wfAbove_write {m : Memory} {lo a : Nat} {v : Byte} (h : Memory.wfAbove lo m = true) (ha : lo ≤ a) :
    Memory.wfAbove lo (Memory.write m a v) = true := by
  induction m generalizing lo with
  | nil =>
    by_cases hv : v = 0#8
    · simp [Memory.write, hv, Memory.wfAbove]
    · simp [Memory.write, hv, Memory.wfAbove, ha]
  | cons c m ih =>
    obtain ⟨b, x⟩ := c
    have h0 := h
    simp only [Memory.wfAbove, Bool.and_eq_true, decide_eq_true_eq] at h
    obtain ⟨⟨hlb, hx⟩, hm⟩ := h
    by_cases hab : a < b
    · by_cases hv : v = 0#8
      · simpa [Memory.write, hab, hv] using h0
      · have hx' : x ≠ 0#8 := by simpa using hx
        have hle : a + 1 ≤ b := hab
        simp [Memory.write, hab, hv, Memory.wfAbove, ha, hx', hm]
    · by_cases hb : a = b
      · by_cases hv : v = 0#8
        · simpa [Memory.write, hb, hv] using Memory.wfAbove_mono hm (by omega)
        · subst hb
          simp [Memory.write, hv, Memory.wfAbove, ha, hm]
      · simp only [Memory.write, hab, hb, if_false, Memory.wfAbove, Bool.and_eq_true, decide_eq_true_eq]
        exact ⟨⟨hlb, hx⟩, ih hm (by omega)⟩

theorem Memory.wf_write {m : Memory} {a : Nat} {v : Byte} (h : Memory.wf m = true) :
    Memory.wf (Memory.write m a v) = true := Memory.wfAbove_write h (Nat.zero_le a)

/-- A read after a write to the same offset gives the byte written. -/
theorem Memory.read_write_same {m : Memory} {a : Nat} {v : Byte} (h : Memory.wf m = true) :
    Memory.read (Memory.write m a v) a = v := by
  unfold Memory.wf at h
  generalize 0 = lo at h
  induction m generalizing lo with
  | nil =>
    by_cases hv : v = 0#8
    · simp [Memory.write, hv]
    · simp [Memory.write, hv, Memory.read]
  | cons c m ih =>
    obtain ⟨b, x⟩ := c
    simp only [Memory.wfAbove, Bool.and_eq_true, decide_eq_true_eq] at h
    by_cases hab : a < b
    · by_cases hv : v = 0#8
      · have hne : a ≠ b := by omega
        simp only [Memory.write, hab, hv, if_true, Memory.read, hne, if_false]
        exact Memory.read_of_lt_wfAbove h.2 (by omega)
      · simp [Memory.write, hab, hv, Memory.read]
    · by_cases hb : a = b
      · by_cases hv : v = 0#8
        · subst hb
          simp only [Memory.write, hab, hv, if_true, if_false]
          exact Memory.read_of_lt_wfAbove h.2 (by omega)
        · simp [Memory.write, hb, hv, Memory.read]
      · simp only [Memory.write, hab, hb, if_false, Memory.read]
        exact ih (b + 1) h.2

/-- A write leaves every other offset alone. -/
theorem Memory.read_write_other {m : Memory} {a a' : Nat} {v : Byte} (hne : a' ≠ a) :
    Memory.read (Memory.write m a v) a' = Memory.read m a' := by
  induction m with
  | nil =>
    by_cases hv : v = 0#8
    · simp [Memory.write, hv]
    · simp [Memory.write, hv, Memory.read, hne]
  | cons c m ih =>
    obtain ⟨b, x⟩ := c
    by_cases hab : a < b
    · by_cases hv : v = 0#8
      · simp [Memory.write, hab, hv]
      · simp [Memory.write, hab, hv, Memory.read, hne]
    · by_cases hb : a = b
      · by_cases hv : v = 0#8
        · subst hb
          simp [Memory.write, hv, Memory.read, hne]
        · subst hb
          simp [Memory.write, hv, Memory.read, hne]
      · simp only [Memory.write, hab, hb, if_false, Memory.read, ih]

/-- A write inside the window space lists only offsets of the window space. -/
theorem Memory.inWindow_write {m : Memory} {a : Nat} {v : Byte} (h : Memory.inWindow m = true)
    (ha : a < Config.packetLen) : Memory.inWindow (Memory.write m a v) = true := by
  induction m with
  | nil =>
    by_cases hv : v = 0#8
    · simp [Memory.write, hv, Memory.inWindow]
    · simp [Memory.write, hv, Memory.inWindow, ha]
  | cons c m ih =>
    obtain ⟨b, x⟩ := c
    simp only [Memory.inWindow, List.all_cons, Bool.and_eq_true, decide_eq_true_eq] at h ih ⊢
    by_cases hab : a < b
    · by_cases hv : v = 0#8
      · simp [Memory.write, hab, hv, h.1, h.2]
      · simp [Memory.write, hab, hv, h.1, h.2, ha]
    · by_cases hb : a = b
      · by_cases hv : v = 0#8
        · simpa [Memory.write, hb, hv] using h.2
        · subst hb
          simp [Memory.write, hv, h.1, h.2]
      · simp only [Memory.write, hab, hb, if_false, List.all_cons, Bool.and_eq_true, decide_eq_true_eq]
        exact ⟨h.1, ih h.2⟩

/-- The window after reset is canonical. -/
theorem State.wf_reset : Memory.wf State.reset.w = true := rfl

end Sys2Proof.Machine
end

