-- ==== Sys2Proof/Laws/State.lean ====
section
/-! SUPPORT. One lemma per field of each named update of the state, and of the state after reset. -/

namespace Sys2Proof.Machine

@[simp] theorem acceptByte_st (d : Byte) (s : State) : (acceptByte d s).st = s.st := rfl
@[simp] theorem acceptByte_idx (d : Byte) (s : State) : (acceptByte d s).idx = s.idx := rfl
@[simp] theorem acceptByte_pos (d : Byte) (s : State) : (acceptByte d s).pos = s.pos + 1 := rfl
@[simp] theorem acceptByte_pktOff (d : Byte) (s : State) : (acceptByte d s).pktOff = s.pktOff := rfl
@[simp] theorem acceptByte_w (d : Byte) (s : State) : (acceptByte d s).w = s.w := rfl
@[simp] theorem acceptByte_res (d : Byte) (s : State) : (acceptByte d s).res = s.res := rfl
@[simp] theorem acceptByte_cfg (d : Byte) (s : State) : (acceptByte d s).cfg = s.cfg := rfl
@[simp] theorem acceptByte_lastErr (d : Byte) (s : State) : (acceptByte d s).lastErr = s.lastErr := rfl
@[simp] theorem acceptByte_inputs (d : Byte) (s : State) : (acceptByte d s).inputs = s.inputs := rfl
@[simp] theorem acceptByte_emitted (d : Byte) (s : State) : (acceptByte d s).emitted = s.emitted := rfl
@[simp] theorem acceptByte_stream (d : Byte) (s : State) : (acceptByte d s).stream = s.stream ++ [d] := rfl
@[simp] theorem acceptByte_answer (d : Byte) (s : State) : (acceptByte d s).answer = s.answer := rfl

@[simp] theorem storeByte_st (d : Byte) (s : State) : (storeByte d s).st = s.st := rfl
@[simp] theorem storeByte_idx (d : Byte) (s : State) : (storeByte d s).idx = s.idx + 1#8 := rfl
@[simp] theorem storeByte_pos (d : Byte) (s : State) : (storeByte d s).pos = s.pos := rfl
@[simp] theorem storeByte_pktOff (d : Byte) (s : State) : (storeByte d s).pktOff = s.pktOff := rfl
@[simp] theorem storeByte_w (d : Byte) (s : State) : (storeByte d s).w = Memory.write s.w s.idx.toNat d := rfl
@[simp] theorem storeByte_res (d : Byte) (s : State) : (storeByte d s).res = s.res := rfl
@[simp] theorem storeByte_cfg (d : Byte) (s : State) : (storeByte d s).cfg = s.cfg := rfl
@[simp] theorem storeByte_lastErr (d : Byte) (s : State) : (storeByte d s).lastErr = s.lastErr := rfl
@[simp] theorem storeByte_inputs (d : Byte) (s : State) : (storeByte d s).inputs = s.inputs := rfl
@[simp] theorem storeByte_emitted (d : Byte) (s : State) : (storeByte d s).emitted = s.emitted := rfl
@[simp] theorem storeByte_stream (d : Byte) (s : State) : (storeByte d s).stream = s.stream := rfl
@[simp] theorem storeByte_answer (d : Byte) (s : State) : (storeByte d s).answer = s.answer := rfl

@[simp] theorem openWindow_st (s : State) : (openWindow s).st = .decoding := rfl
@[simp] theorem openWindow_idx (s : State) : (openWindow s).idx = 1#8 := rfl
@[simp] theorem openWindow_pos (s : State) : (openWindow s).pos = s.pos := rfl
@[simp] theorem openWindow_pktOff (s : State) : (openWindow s).pktOff = s.pos := rfl
@[simp] theorem openWindow_w (s : State) : (openWindow s).w = Memory.write s.w 0 Config.syncByte := rfl
@[simp] theorem openWindow_res (s : State) : (openWindow s).res = s.res := rfl
@[simp] theorem openWindow_cfg (s : State) : (openWindow s).cfg = s.cfg := rfl
@[simp] theorem openWindow_lastErr (s : State) : (openWindow s).lastErr = s.lastErr := rfl
@[simp] theorem openWindow_inputs (s : State) : (openWindow s).inputs = s.inputs := rfl
@[simp] theorem openWindow_emitted (s : State) : (openWindow s).emitted = s.emitted := rfl
@[simp] theorem openWindow_stream (s : State) : (openWindow s).stream = s.stream := rfl
@[simp] theorem openWindow_answer (s : State) : (openWindow s).answer = s.answer := rfl

@[simp] theorem loadPacket_st (pkt : TransportPacket) (s : State) : (loadPacket pkt s).st = .yield := rfl
@[simp] theorem loadPacket_idx (pkt : TransportPacket) (s : State) : (loadPacket pkt s).idx = s.idx := rfl
@[simp] theorem loadPacket_pos (pkt : TransportPacket) (s : State) : (loadPacket pkt s).pos = s.pos := rfl
@[simp] theorem loadPacket_pktOff (pkt : TransportPacket) (s : State) : (loadPacket pkt s).pktOff = s.pktOff := rfl
@[simp] theorem loadPacket_w (pkt : TransportPacket) (s : State) : (loadPacket pkt s).w = s.w := rfl
@[simp] theorem loadPacket_res (pkt : TransportPacket) (s : State) : (loadPacket pkt s).res = some (.packet pkt s.pktOff) := rfl
@[simp] theorem loadPacket_cfg (pkt : TransportPacket) (s : State) : (loadPacket pkt s).cfg = s.cfg := rfl
@[simp] theorem loadPacket_lastErr (pkt : TransportPacket) (s : State) : (loadPacket pkt s).lastErr = s.lastErr := rfl
@[simp] theorem loadPacket_inputs (pkt : TransportPacket) (s : State) : (loadPacket pkt s).inputs = s.inputs := rfl
@[simp] theorem loadPacket_emitted (pkt : TransportPacket) (s : State) : (loadPacket pkt s).emitted = s.emitted := rfl
@[simp] theorem loadPacket_stream (pkt : TransportPacket) (s : State) : (loadPacket pkt s).stream = s.stream := rfl
@[simp] theorem loadPacket_answer (pkt : TransportPacket) (s : State) : (loadPacket pkt s).answer = s.answer := rfl

@[simp] theorem raise_st (e : ErrCode) (info cause : Byte) (off : Nat) (s : State) : (raise e info cause off s).st = errorState e := rfl
@[simp] theorem raise_idx (e : ErrCode) (info cause : Byte) (off : Nat) (s : State) : (raise e info cause off s).idx = s.idx := rfl
@[simp] theorem raise_pos (e : ErrCode) (info cause : Byte) (off : Nat) (s : State) : (raise e info cause off s).pos = s.pos := rfl
@[simp] theorem raise_pktOff (e : ErrCode) (info cause : Byte) (off : Nat) (s : State) : (raise e info cause off s).pktOff = s.pktOff := rfl
@[simp] theorem raise_w (e : ErrCode) (info cause : Byte) (off : Nat) (s : State) : (raise e info cause off s).w = s.w := rfl
@[simp] theorem raise_res (e : ErrCode) (info cause : Byte) (off : Nat) (s : State) : (raise e info cause off s).res = some (.error e info cause off) := rfl
@[simp] theorem raise_cfg (e : ErrCode) (info cause : Byte) (off : Nat) (s : State) : (raise e info cause off s).cfg = s.cfg := rfl
@[simp] theorem raise_lastErr (e : ErrCode) (info cause : Byte) (off : Nat) (s : State) : (raise e info cause off s).lastErr = some e := rfl
@[simp] theorem raise_inputs (e : ErrCode) (info cause : Byte) (off : Nat) (s : State) : (raise e info cause off s).inputs = s.inputs := rfl
@[simp] theorem raise_emitted (e : ErrCode) (info cause : Byte) (off : Nat) (s : State) : (raise e info cause off s).emitted = s.emitted := rfl
@[simp] theorem raise_stream (e : ErrCode) (info cause : Byte) (off : Nat) (s : State) : (raise e info cause off s).stream = s.stream := rfl
@[simp] theorem raise_answer (e : ErrCode) (info cause : Byte) (off : Nat) (s : State) : (raise e info cause off s).answer = s.answer := rfl

@[simp] theorem takeResult_st (s : State) : (takeResult s).st = afterOut s := rfl
@[simp] theorem takeResult_idx (s : State) : (takeResult s).idx = 0#8 := rfl
@[simp] theorem takeResult_pos (s : State) : (takeResult s).pos = s.pos := rfl
@[simp] theorem takeResult_pktOff (s : State) : (takeResult s).pktOff = s.pktOff := rfl
@[simp] theorem takeResult_w (s : State) : (takeResult s).w = s.w := rfl
@[simp] theorem takeResult_res (s : State) : (takeResult s).res = none := rfl
@[simp] theorem takeResult_cfg (s : State) : (takeResult s).cfg = s.cfg := rfl
@[simp] theorem takeResult_lastErr (s : State) : (takeResult s).lastErr = s.lastErr := rfl
@[simp] theorem takeResult_inputs (s : State) : (takeResult s).inputs = s.inputs := rfl
@[simp] theorem takeResult_emitted (s : State) : (takeResult s).emitted = s.emitted ++ s.res.toList := rfl
@[simp] theorem takeResult_stream (s : State) : (takeResult s).stream = s.stream := rfl
@[simp] theorem takeResult_answer (s : State) : (takeResult s).answer = s.answer := rfl

@[simp] theorem resetTo_st (c : Cfg) (s : State) : (resetTo c s).st = .seeking := rfl
@[simp] theorem resetTo_idx (c : Cfg) (s : State) : (resetTo c s).idx = 0#8 := rfl
@[simp] theorem resetTo_pos (c : Cfg) (s : State) : (resetTo c s).pos = 0 := rfl
@[simp] theorem resetTo_pktOff (c : Cfg) (s : State) : (resetTo c s).pktOff = 0 := rfl
@[simp] theorem resetTo_w (c : Cfg) (s : State) : (resetTo c s).w = [] := rfl
@[simp] theorem resetTo_res (c : Cfg) (s : State) : (resetTo c s).res = none := rfl
@[simp] theorem resetTo_cfg (c : Cfg) (s : State) : (resetTo c s).cfg = c := rfl
@[simp] theorem resetTo_lastErr (c : Cfg) (s : State) : (resetTo c s).lastErr = none := rfl
@[simp] theorem resetTo_inputs (c : Cfg) (s : State) : (resetTo c s).inputs = s.inputs := rfl
@[simp] theorem resetTo_emitted (c : Cfg) (s : State) : (resetTo c s).emitted = [] := rfl
@[simp] theorem resetTo_stream (c : Cfg) (s : State) : (resetTo c s).stream = [] := rfl
@[simp] theorem resetTo_answer (c : Cfg) (s : State) : (resetTo c s).answer = none := rfl

@[simp] theorem answerWith_st (a : Answer) (s : State) : (answerWith a s).st = s.st := rfl
@[simp] theorem answerWith_idx (a : Answer) (s : State) : (answerWith a s).idx = s.idx := rfl
@[simp] theorem answerWith_pos (a : Answer) (s : State) : (answerWith a s).pos = s.pos := rfl
@[simp] theorem answerWith_pktOff (a : Answer) (s : State) : (answerWith a s).pktOff = s.pktOff := rfl
@[simp] theorem answerWith_w (a : Answer) (s : State) : (answerWith a s).w = s.w := rfl
@[simp] theorem answerWith_res (a : Answer) (s : State) : (answerWith a s).res = s.res := rfl
@[simp] theorem answerWith_cfg (a : Answer) (s : State) : (answerWith a s).cfg = s.cfg := rfl
@[simp] theorem answerWith_lastErr (a : Answer) (s : State) : (answerWith a s).lastErr = s.lastErr := rfl
@[simp] theorem answerWith_inputs (a : Answer) (s : State) : (answerWith a s).inputs = s.inputs := rfl
@[simp] theorem answerWith_emitted (a : Answer) (s : State) : (answerWith a s).emitted = s.emitted := rfl
@[simp] theorem answerWith_stream (a : Answer) (s : State) : (answerWith a s).stream = s.stream := rfl
@[simp] theorem answerWith_answer (a : Answer) (s : State) : (answerWith a s).answer = some a := rfl

@[simp] theorem resetWith_st (c : Cfg) : (State.resetWith c).st = .seeking := rfl
@[simp] theorem resetWith_idx (c : Cfg) : (State.resetWith c).idx = 0#8 := rfl
@[simp] theorem resetWith_pos (c : Cfg) : (State.resetWith c).pos = 0 := rfl
@[simp] theorem resetWith_pktOff (c : Cfg) : (State.resetWith c).pktOff = 0 := rfl
@[simp] theorem resetWith_w (c : Cfg) : (State.resetWith c).w = [] := rfl
@[simp] theorem resetWith_res (c : Cfg) : (State.resetWith c).res = none := rfl
@[simp] theorem resetWith_cfg (c : Cfg) : (State.resetWith c).cfg = c := rfl
@[simp] theorem resetWith_lastErr (c : Cfg) : (State.resetWith c).lastErr = none := rfl
@[simp] theorem resetWith_inputs (c : Cfg) : (State.resetWith c).inputs = [] := rfl
@[simp] theorem resetWith_emitted (c : Cfg) : (State.resetWith c).emitted = [] := rfl
@[simp] theorem resetWith_stream (c : Cfg) : (State.resetWith c).stream = [] := rfl
@[simp] theorem resetWith_answer (c : Cfg) : (State.resetWith c).answer = none := rfl

end Sys2Proof.Machine
end

