-- ==== Sys2Proof/Laws/Ops.lean ====
section
/-! SUPPORT. For each shared operation and each meaning, what it can do when it answers a next state; and the meanings
of event rows as `exec` runs them. -/

namespace Sys2Proof.Machine

/-! ## Sequencing and enabling -/

theorem andThen_eq_next {o : Out} {k : State → Out} {t : State} :
    andThen o k = .next t ↔ ∃ s, o = .next s ∧ k s = .next t := by
  cases o <;> simp [andThen]

@[simp] theorem andThen_next (s : State) (k : State → Out) : andThen (.next s) k = k s := rfl

@[simp] theorem whenEnabled_true (o : Out) : whenEnabled true o = o := rfl

@[simp] theorem whenEnabled_false (o : Out) : whenEnabled false o = .fault .eventNotEnabled := rfl

theorem whenEnabled_eq_next {b : Bool} {o : Out} {t : State} :
    whenEnabled b o = .next t ↔ b = true ∧ o = .next t := by
  cases b <;> simp [whenEnabled]

theorem whenRoom_eq_next {s : State} {o : Out} {t : State} :
    whenRoom s o = .next t ↔ s.pos + 1 < Config.streamLimit ∧ o = .next t := by
  unfold whenRoom
  split <;> simp_all

theorem whenRoom_of_lt {s : State} (h : s.pos + 1 < Config.streamLimit) (o : Out) : whenRoom s o = o := if_pos h

theorem inReady_iff (s : State) : inReady s = true ↔ s.st = .seeking ∨ s.st = .decoding := by
  cases h : s.st <;> simp [inReady, h]

theorem outValid_iff (s : State) :
    outValid s = true ↔ s.st = .yield ∨ s.st = .decodeFailed ∨ s.st = .seekFailed := by
  cases h : s.st <;> simp [outValid, St.holding, h]

theorem ended_iff (s : State) : ended s = true ↔ s.st = .terminated ∨ s.st = .fatal := by
  cases h : s.st <;> simp [ended, h]

theorem windowFull_iff (s : State) : windowFull s = true ↔ s.st = .decoding ∧ s.idx = 188#8 := by
  simp [windowFull]

/-- Every state is one of three kinds: it accepts a beat, holds a result, or has ended. -/
theorem kind_cases (s : State) :
    (inReady s = true ∧ outValid s = false ∧ ended s = false) ∨
      (inReady s = false ∧ outValid s = true ∧ ended s = false) ∨
      (inReady s = false ∧ outValid s = false ∧ ended s = true) := by
  cases h : s.st <;> simp [inReady, outValid, St.holding, ended, h]

/-! ## Meanings of events -/

theorem execScanHit_next {s t : State} : execScanHit s = .next t ↔
    s.st = .seeking ∧ s.pos + 1 < Config.streamLimit ∧ acceptByte Config.syncByte (openWindow s) = t := by
  simp [execScanHit, whenEnabled_eq_next, whenRoom_eq_next]

theorem execScanSkip_next {d : Byte} {s t : State} : execScanSkip d s = .next t ↔
    s.st = .seeking ∧ s.pos + 1 < Config.streamLimit ∧ acceptByte d s = t := by
  simp [execScanSkip, whenEnabled_eq_next, whenRoom_eq_next]

theorem execScanEos_next {d : Byte} {s t : State} : execScanEos d s = .next t ↔
    s.st = .seeking ∧ { s with st := .terminated } = t := by
  simp [execScanEos, whenEnabled_eq_next]

theorem execScanIoerr_next {e : Bool} {d c : Byte} {s t : State} : execScanIoerr e d c s = .next t ↔
    s.st = .seeking ∧ raise .syncIo 0#8 c s.pos s = t := by
  simp [execScanIoerr, whenEnabled_eq_next]

theorem execFill_next {d : Byte} {s t : State} : execFill d s = .next t ↔
    s.st = .decoding ∧ s.pos + 1 < Config.streamLimit ∧
      ((s.idx.toNat < 187 ∧ acceptByte d (storeByte d s) = t) ∨
        (s.idx.toNat = 187 ∧ completeWindow (acceptByte d (storeByte d s)) = .next t)) := by
  simp only [execFill, whenEnabled_eq_next, beq_iff_eq]
  constructor
  · rintro ⟨hst, h⟩
    split at h
    · obtain ⟨hroom, h⟩ := whenRoom_eq_next.1 h
      split at h
      · exact ⟨hst, hroom, .inr ⟨by simpa [Config.packetLen] using ‹s.idx.toNat + 1 = Config.packetLen›, h⟩⟩
      · exact ⟨hst, hroom, .inl ⟨by simp only [Config.packetLen] at *; omega, by simpa using h⟩⟩
    · simp at h
  · rintro ⟨hst, hroom, h⟩
    refine ⟨hst, ?_⟩
    rcases h with ⟨hidx, h⟩ | ⟨hidx, h⟩
    · rw [if_pos (by simp only [Config.packetLen]; omega), whenRoom_of_lt hroom,
        if_neg (by simp only [Config.packetLen]; omega), h]
    · rw [if_pos (by simp only [Config.packetLen]; omega), whenRoom_of_lt hroom,
        if_pos (by simp only [Config.packetLen]; omega), h]

theorem execFillEos_next {d : Byte} {s t : State} : execFillEos d s = .next t ↔
    s.st = .decoding ∧ raise .shortBuffer s.idx 0#8 s.pktOff s = t := by
  simp [execFillEos, whenEnabled_eq_next]

theorem execFillIoerr_next {e : Bool} {d c : Byte} {s t : State} : execFillIoerr e d c s = .next t ↔
    s.st = .decoding ∧ raise .readIo 0#8 c s.pos s = t := by
  simp [execFillIoerr, whenEnabled_eq_next]

theorem execOut_next {s t : State} : execOut s = .next t ↔ outValid s = true ∧ takeResult s = t := by
  simp [execOut, whenEnabled_eq_next]

theorem execReset_next {o n : Bool} {c : Cfg} {s t : State} : execReset o n c s = .next t ↔ resetTo c s = t := by
  simp [execReset]

/-- What a packet form can do: load a packet or take a decode error, beside which nothing changes. -/
theorem runForm_next {i : Instr} {s t : State} (h : runForm i s = .next t) :
    windowFull s = true ∧ ((∃ pkt, t = loadPacket pkt s) ∨
      (∃ e info, (e = .badSync ∨ e = .invalidAfLength ∨ e = .reservedAfc) ∧ t = raise e info 0#8 s.pktOff s)) := by
  cases i <;> simp only [runForm, execTsBadSync, execTsReserved, execTsPayload, execTsAfOnly, execTsAfOnlyBadlen,
    execTsAfPayloadEmpty, execTsAfPayload, execTsAfPayloadBadlen, whenEnabled_eq_next, Host.Outcome.next.injEq,
    reduceCtorEq] at h
  case tsBadSync sync hdr afc l f => exact ⟨h.1, .inr ⟨.badSync, sync, .inl rfl, h.2.symm⟩⟩
  case tsReserved sync hdr l f =>
    refine ⟨h.1, ?_⟩
    have h2 := h.2
    split at h2
    · exact .inr ⟨.reservedAfc, _, .inr (.inr rfl), h2.symm⟩
    · exact .inl ⟨_, h2.symm⟩
  case tsPayload => exact ⟨h.1, .inl ⟨_, h.2.symm⟩⟩
  case tsAfOnly => exact ⟨h.1, .inl ⟨_, h.2.symm⟩⟩
  case tsAfOnlyBadlen => exact ⟨h.1, .inr ⟨.invalidAfLength, _, .inr (.inl rfl), h.2.symm⟩⟩
  case tsAfPayloadEmpty => exact ⟨h.1, .inl ⟨_, h.2.symm⟩⟩
  case tsAfPayload => exact ⟨h.1, .inl ⟨_, h.2.symm⟩⟩
  case tsAfPayloadBadlen => exact ⟨h.1, .inr ⟨.invalidAfLength, _, .inr (.inl rfl), h.2.symm⟩⟩

/-! ## Event rows -/

/-- The rows of `30_encoding.md` R78, R79 and the two events of R93. -/
def isEventRow : Instr → Bool
  | .scanIoerr _ _ _ => true
  | .scanEos _ => true
  | .scanHit => true
  | .scanSkip _ => true
  | .fillIoerr _ _ _ => true
  | .fillEos _ => true
  | .fill _ => true
  | .reset _ _ _ => true
  | .out => true
  | .tsBadSync _ _ _ _ _ => false
  | .tsReserved _ _ _ _ => false
  | .tsPayload _ _ _ _ => false
  | .tsAfOnly _ _ _ => false
  | .tsAfOnlyBadlen _ _ _ _ => false
  | .tsAfPayloadEmpty _ _ _ => false
  | .tsAfPayload _ _ _ _ => false
  | .tsAfPayloadBadlen _ _ _ _ => false
  | .findSync => false
  | .decode => false
  | .next => false
  | .isPat => false
  | .hasAf => false
  | .hasPayload => false

/-- The composite operations run event rows as `exec` does. -/
theorem runEvent_eq_exec {i : Instr} (h : isEventRow i = true) (s : State) : runEvent i s = exec i s := by
  cases i <;> first | rfl | simp [isEventRow] at h

/-- Packet forms are run inside `FILL` as `exec` runs them. -/
theorem runForm_decodePacket (cfg : Cfg) (p : BitVec 48) (s : State) :
    runForm (decodePacket cfg p) s = exec (decodePacket cfg p) s := by
  unfold decodePacket
  repeat' split
  all_goals rfl

/-- What an edge's instruction is: a `RESET`, an `OUT`, or the row of an accepted beat. -/
theorem fetch_cases (s : State) (p : Pins) :
    (p.rst = true ∧ ∃ o n, fetch s p = .ok (.reset o n p.cfg)) ∨
    (p.rst = false ∧ outFire s p = true ∧ fetch s p = .ok .out) ∨
    (p.rst = false ∧ inFire s p = true ∧ s.st = .seeking ∧
      fetch s p = .ok (decodeScan (beatWord p.inErr p.inEos p.inData) p.inCause)) ∨
    (p.rst = false ∧ inFire s p = true ∧ s.st = .decoding ∧
      fetch s p = .ok (decodeFill (beatWord p.inErr p.inEos p.inData) p.inCause)) ∨
    (p.rst = false ∧ outFire s p = false ∧ inFire s p = false ∧ fetch s p = .error .noEvent) := by
  obtain ⟨rst, cfg, inValid, inErr, inEos, inData, inCause, outReady⟩ := p
  cases hst : s.st <;> cases rst <;> cases inValid <;> cases outReady <;>
    simp [fetch, edgeEvent, edgeBeat, decodeWord, decodeEvent, eventWord, outFire, inFire, outValid, inReady,
      St.holding, decodeBeat, hst, place]

/-- The beat row of SEEKING by the pins (`30_encoding.md` R78). -/
theorem decodeScan_beatWord (e o : Bool) (d c : Byte) :
    decodeScan (beatWord e o d) c =
      if e then .scanIoerr o d c else if o then .scanEos d else if d = Config.syncByte then .scanHit else .scanSkip d := by
  have hd : beatData (beatWord e o d) = d := by
    apply BitVec.eq_of_getLsbD_eq
    intro i hi
    cases e <;> cases o <;>
      simp [beatData, beatWord, place, BitVec.getLsbD_extractLsb'] <;> interval_cases i <;> simp
  have he : beatErr (beatWord e o d) = e := by
    cases e <;> cases o <;> simp [beatErr, beatWord, place]
  have ho : beatEos (beatWord e o d) = o := by
    cases e <;> cases o <;> simp [beatEos, beatWord, place]
  cases e <;> cases o <;> simp [decodeScan, Beat.ofWord, hd, he, ho]

/-- The beat row of DECODING by the pins (`30_encoding.md` R79). -/
theorem decodeFill_beatWord (e o : Bool) (d c : Byte) :
    decodeFill (beatWord e o d) c = if e then .fillIoerr o d c else if o then .fillEos d else .fill d := by
  have hd : beatData (beatWord e o d) = d := by
    apply BitVec.eq_of_getLsbD_eq
    intro i hi
    cases e <;> cases o <;>
      simp [beatData, beatWord, place, BitVec.getLsbD_extractLsb'] <;> interval_cases i <;> simp
  have he : beatErr (beatWord e o d) = e := by
    cases e <;> cases o <;> simp [beatErr, beatWord, place]
  have ho : beatEos (beatWord e o d) = o := by
    cases e <;> cases o <;> simp [beatEos, beatWord, place]
  cases e <;> cases o <;> simp [decodeFill, Beat.ofWord, hd, he, ho]

end Sys2Proof.Machine
end

