-- ==== Sys2Proof/Laws/Step.lean ====
section
/-! SUPPORT. Once and for all what a step can do: the inversion lemma of `step`, which every invariant is proved from. -/

namespace Sys2Proof.Machine

/-- What one clock edge with pins `p` can do to a state: one case per event row, and the edge without an event. -/
inductive EdgeEffect (s : State) (p : Pins) : State → Prop
  | reset (hrst : p.rst = true) : EdgeEffect s p (resetTo p.cfg s)
  | out (hrst : p.rst = false) (hfire : outFire s p = true) : EdgeEffect s p (takeResult s)
  | scanHit (hrst : p.rst = false) (hfire : inFire s p = true) (hst : s.st = .seeking) (herr : p.inErr = false)
      (heos : p.inEos = false) (hd : p.inData = Config.syncByte) (hroom : s.pos + 1 < Config.streamLimit) :
      EdgeEffect s p (acceptByte Config.syncByte (openWindow s))
  | scanSkip (hrst : p.rst = false) (hfire : inFire s p = true) (hst : s.st = .seeking) (herr : p.inErr = false)
      (heos : p.inEos = false) (hd : p.inData ≠ Config.syncByte) (hroom : s.pos + 1 < Config.streamLimit) :
      EdgeEffect s p (acceptByte p.inData s)
  | scanEos (hrst : p.rst = false) (hfire : inFire s p = true) (hst : s.st = .seeking) (herr : p.inErr = false)
      (heos : p.inEos = true) : EdgeEffect s p { s with st := .terminated }
  | scanIoerr (hrst : p.rst = false) (hfire : inFire s p = true) (hst : s.st = .seeking) (herr : p.inErr = true) :
      EdgeEffect s p (raise .syncIo 0#8 p.inCause s.pos s)
  | fill (hrst : p.rst = false) (hfire : inFire s p = true) (hst : s.st = .decoding) (herr : p.inErr = false)
      (heos : p.inEos = false) (hroom : s.pos + 1 < Config.streamLimit) (hidx : s.idx.toNat < 187) :
      EdgeEffect s p (acceptByte p.inData (storeByte p.inData s))
  | fillLast (hrst : p.rst = false) (hfire : inFire s p = true) (hst : s.st = .decoding) (herr : p.inErr = false)
      (heos : p.inEos = false) (hroom : s.pos + 1 < Config.streamLimit) (hidx : s.idx.toNat = 187) (t : State)
      (ht : completeWindow (acceptByte p.inData (storeByte p.inData s)) = .next t) : EdgeEffect s p t
  | fillEos (hrst : p.rst = false) (hfire : inFire s p = true) (hst : s.st = .decoding) (herr : p.inErr = false)
      (heos : p.inEos = true) : EdgeEffect s p (raise .shortBuffer s.idx 0#8 s.pktOff s)
  | fillIoerr (hrst : p.rst = false) (hfire : inFire s p = true) (hst : s.st = .decoding) (herr : p.inErr = true) :
      EdgeEffect s p (raise .readIo 0#8 p.inCause s.pos s)
  | idle (hrst : p.rst = false) (hout : outFire s p = false) (hin : inFire s p = false) : EdgeEffect s p s

/-- The event of an edge, when it answers a next state, has one of the effects above. -/
theorem edgeEffect_of_exec {s u t : State} {p : Pins} {i : Instr} (hf : fetch s p = .ok i) (h : exec i u = .next t)
    (hst : u.st = s.st) : EdgeEffect u p t := by
  have hov : outFire u p = outFire s p := by simp [outFire, outValid, hst]
  have hiv : inFire u p = inFire s p := by simp [inFire, inReady, hst]
  rcases fetch_cases s p with ⟨hr, o, n, hi⟩ | ⟨hr, hfire, hi⟩ | ⟨hr, hfire, hs, hi⟩ | ⟨hr, hfire, hs, hi⟩ | ⟨_, _, _, hi⟩
  · rw [hf] at hi; cases hi
    have h' : resetTo p.cfg u = t := (execReset_next (o := o) (n := n)).1 h
    exact h' ▸ .reset hr
  · rw [hf] at hi; cases hi
    have h' := execOut_next.1 h
    exact h'.2 ▸ .out hr (hov ▸ hfire)
  · rw [hf, decodeScan_beatWord] at hi; cases hi
    split at h
    · have h' := (execScanIoerr_next (e := p.inEos) (d := p.inData)).1 h
      exact h'.2 ▸ .scanIoerr hr (hiv ▸ hfire) h'.1 ‹_›
    · split at h
      · have h' := (execScanEos_next (d := p.inData)).1 h
        exact h'.2 ▸ .scanEos hr (hiv ▸ hfire) h'.1 (by simpa using ‹¬p.inErr = true›) ‹_›
      · split at h
        · have h' := execScanHit_next.1 h
          exact h'.2.2 ▸ .scanHit hr (hiv ▸ hfire) h'.1 (by simpa using ‹¬p.inErr = true›)
            (by simpa using ‹¬p.inEos = true›) ‹_› h'.2.1
        · have h' := execScanSkip_next.1 h
          exact h'.2.2 ▸ .scanSkip hr (hiv ▸ hfire) h'.1 (by simpa using ‹¬p.inErr = true›)
            (by simpa using ‹¬p.inEos = true›) ‹_› h'.2.1
  · rw [hf, decodeFill_beatWord] at hi; cases hi
    split at h
    · have h' := (execFillIoerr_next (e := p.inEos) (d := p.inData)).1 h
      exact h'.2 ▸ .fillIoerr hr (hiv ▸ hfire) h'.1 ‹_›
    · split at h
      · have h' := (execFillEos_next (d := p.inData)).1 h
        exact h'.2 ▸ .fillEos hr (hiv ▸ hfire) h'.1 (by simpa using ‹¬p.inErr = true›) ‹_›
      · obtain ⟨hd, hroom, ⟨hidx, ht⟩ | ⟨hidx, ht⟩⟩ := execFill_next.1 h
        · exact ht ▸ .fill hr (hiv ▸ hfire) hd (by simpa using ‹¬p.inErr = true›) (by simpa using ‹¬p.inEos = true›)
            hroom hidx
        · exact .fillLast hr (hiv ▸ hfire) hd (by simpa using ‹¬p.inErr = true›) (by simpa using ‹¬p.inEos = true›)
            hroom hidx t ht
  · rw [hf] at hi; cases hi

/-- THE INVERSION OF `step`: with no edge left nothing changes; otherwise the next edge has one of the effects above on
the state with that edge taken off. -/
theorem step_cases {s t : State} (h : step s = .next t) :
    (s.inputs = [] ∧ t = s) ∨
      ∃ p ps, s.inputs = p :: ps ∧ EdgeEffect { s with inputs := ps } p t := by
  unfold step at h
  cases hin : s.inputs with
  | nil => rw [hin] at h; exact .inl ⟨rfl, by simpa using h.symm⟩
  | cons p ps =>
    rw [hin] at h
    refine .inr ⟨p, ps, rfl, ?_⟩
    cases hf : fetch s p with
    | ok i =>
      simp only [hf] at h
      exact edgeEffect_of_exec hf h rfl
    | error e =>
      simp only [hf, Host.Outcome.next.injEq] at h
      rcases fetch_cases s p with ⟨_, _, _, hi⟩ | ⟨_, _, hi⟩ | ⟨_, _, _, hi⟩ | ⟨_, _, _, hi⟩ | ⟨hr, ho, hn, _⟩
      · rw [hf] at hi; cases hi
      · rw [hf] at hi; cases hi
      · rw [hf] at hi; cases hi
      · rw [hf] at hi; cases hi
      · exact h ▸ .idle hr ho hn

/-- A full window's form, when it answers, has loaded a packet or taken a decode error. -/
theorem completeWindow_next {s t : State} (h : completeWindow s = .next t) :
    windowFull s = true ∧ ((∃ pkt, t = loadPacket pkt s) ∨
      (∃ e info, (e = .badSync ∨ e = .invalidAfLength ∨ e = .reservedAfc) ∧ t = raise e info 0#8 s.pktOff s)) :=
  runForm_next h

end Sys2Proof.Machine
end

