-- ==== Sys2Proof/Laws/Forms.lean ====
section
/-! SUPPORT. What a completed window does, said once: the form its prefix selects loads the answer of `decode`. Under it,
the header bytes bit by bit. -/

namespace Sys2Proof.Machine

/-! ## The header bytes, bit by bit (`30_encoding.md` R84) -/

theorem getLsbD_packHeader_1 (h : HdrFields) (afc : BitVec 2) (i : Nat) (hi : i < 8) :
    (packHeader h afc).1.getLsbD i =
      if i = 7 then h.tei else if i = 6 then h.pusi else if i = 5 then h.tp else h.pid.getLsbD (i + 8) := by
  simp only [packHeader, BitVec.getLsbD_or, getLsbD_place, BitVec.getLsbD_extractLsb', BitVec.getLsbD_ofBool]
  interval_cases i <;> simp

theorem getLsbD_packHeader_2 (h : HdrFields) (afc : BitVec 2) (i : Nat) (hi : i < 8) :
    (packHeader h afc).2.1.getLsbD i = h.pid.getLsbD i := by
  simp only [packHeader, BitVec.getLsbD_extractLsb']
  interval_cases i <;> simp

theorem getLsbD_packHeader_3 (h : HdrFields) (afc : BitVec 2) (i : Nat) (hi : i < 8) :
    (packHeader h afc).2.2.getLsbD i =
      if 6 ≤ i then h.tsc.getLsbD (i - 6) else if 4 ≤ i then afc.getLsbD (i - 4) else h.cc.getLsbD i := by
  simp only [packHeader, BitVec.getLsbD_or, getLsbD_place]
  interval_cases i <;> simp

/-- The fields of a prefix are the header unpacked from its bytes 1 to 3. -/
theorem headerOf_prefixOf (b0 b1 b2 b3 b4 b5 : Byte) :
    headerOf (prefixHdr (prefixOf b0 b1 b2 b3 b4 b5)) (prefixAfc (prefixOf b0 b1 b2 b3 b4 b5))
      = unpackHeader b1 b2 b3 := by
  rw [prefixAfc_prefixOf]
  simp only [headerOf, prefixHdr, unpackHeader, Header.mk.injEq, true_and]
  refine ⟨?_, ?_, ?_, ?_, ?_, ?_⟩
  · rw [getLsbD_prefixOf]; simp
  · rw [getLsbD_prefixOf]; simp
  · rw [getLsbD_prefixOf]; simp
  · apply BitVec.eq_of_getLsbD_eq
    intro i hi
    simp only [BitVec.getLsbD_extractLsb', getLsbD_prefixOf, assemblePid, BitVec.getLsbD_setWidth, BitVec.getLsbD_or,
      BitVec.getLsbD_shiftLeft, BitVec.getLsbD_and]
    interval_cases i <;> simp
  · apply BitVec.eq_of_getLsbD_eq
    intro i hi
    simp only [BitVec.getLsbD_extractLsb', getLsbD_prefixOf]
    interval_cases i <;> simp
  · apply BitVec.eq_of_getLsbD_eq
    intro i hi
    simp only [BitVec.getLsbD_extractLsb', getLsbD_prefixOf]
    interval_cases i <;> simp

/-- The byte that holds the control bits is byte 3 of the prefix. -/
theorem headerByte3_prefixOf (b0 b1 b2 b3 b4 b5 : Byte) :
    headerByte3 (prefixHdr (prefixOf b0 b1 b2 b3 b4 b5)) (prefixAfc (prefixOf b0 b1 b2 b3 b4 b5)) = b3 := by
  apply BitVec.eq_of_getLsbD_eq
  intro i hi
  rw [headerByte3, getLsbD_packHeader_3 _ _ _ hi, prefixAfc_prefixOf]
  simp only [prefixHdr, BitVec.getLsbD_extractLsb', getLsbD_prefixOf]
  interval_cases i <;> simp

/-! ## The completed window -/

theorem byteAt_windowBytes (s : State) (i : Nat) (h : i < s.idx.toNat) :
    byteAt (windowBytes s) i = Memory.read s.w i := by
  simp [byteAt, windowBytes, h]

@[simp] theorem length_windowBytes (s : State) : (windowBytes s).length = s.idx.toNat := by simp [windowBytes]

theorem afc_cases : ∀ afc : BitVec 2, afc = 0 ∨ afc = 1 ∨ afc = 2 ∨ afc = 3 := by decide

theorem byte_pos {b : Byte} (h : b ≠ 0#8) : 0#8 < b := by
  have : b.toNat ≠ 0 := fun hb => h (BitVec.eq_of_toNat_eq hb)
  rw [BitVec.lt_def]
  simpa using Nat.pos_of_ne_zero this

/-- THE COMPLETED WINDOW (`43_stream_iterator.md` R165): its form loads what `decode` answers. -/
theorem completeWindow_eq (s : State) (h : windowFull s = true) :
    completeWindow s = .next (loadDecoded (decode s.cfg (windowBytes s)) s) := by
  obtain ⟨-, hidx⟩ := (windowFull_iff s).1 h
  have hlen : ¬ (windowBytes s).length < Config.packetLen := by simp [hidx, Config.packetLen]
  have hb : ∀ i, i < 188 → byteAt (windowBytes s) i = Memory.read s.w i :=
    fun i hi => byteAt_windowBytes s i (by rw [hidx]; exact hi)
  have h1 : headerOf (prefixHdr (windowPrefix s)) (prefixAfc (windowPrefix s)) = _ := headerOf_prefixOf ..
  have h2 : headerByte3 (prefixHdr (windowPrefix s)) (prefixAfc (windowPrefix s)) = _ := headerByte3_prefixOf ..
  have e0 : prefixSync (windowPrefix s) = Memory.read s.w 0 := prefixSync_prefixOf ..
  have e4 : prefixLen (windowPrefix s) = Memory.read s.w 4 := prefixLen_prefixOf ..
  have e5 : prefixFlags (windowPrefix s) = Memory.read s.w 5 := prefixFlags_prefixOf ..
  simp only [decode, if_neg hlen, hb 0 (by omega), hb 1 (by omega), hb 2 (by omega), hb 3 (by omega),
    hb Config.afLenOffset (by decide), hb Config.afFlagsOffset (by decide)]
  rw [← h1]
  unfold completeWindow decodePacket
  rw [e0, e4, e5]
  split
  · simp [runForm, execTsBadSync, h, loadDecoded, DecodeError.code, DecodeError.info]
  · clear h1
    generalize prefixHdr (windowPrefix s) = H at *
    rcases afc_cases (prefixAfc (windowPrefix s)) with ha | ha | ha | ha <;> rw [ha] at h2 ⊢
    · cases hr : s.cfg.afc00Reject <;> simp at h2 <;>
        simp [runForm, execTsReserved, h, hr, loadDecoded, headerOf, Header.hasAf, plainPacket, DecodeError.code,
          DecodeError.info, h2]
    · simp [runForm, execTsPayload, h, loadDecoded, headerOf, Header.hasAf, plainPacket]
    · simp only [headerOf, Header.hasAf, decodeAf, legalLength, Config.afLenOffset, Config.afFlagsOffset]
      by_cases hl : Memory.read s.w 4 = Config.afLenNoPayload
      · simp [hl, runForm, execTsAfOnly, h, loadDecoded, fieldPacket, headerOf]
      · simp [hl, runForm, execTsAfOnlyBadlen, h, loadDecoded, DecodeError.code, DecodeError.info]
    · simp only [headerOf, Header.hasAf, decodeAf, legalLength, Config.afLenOffset, Config.afFlagsOffset]
      by_cases h0 : Memory.read s.w 4 = 0#8
      · simp [h0, runForm, execTsAfPayloadEmpty, h, loadDecoded, fieldPacket, headerOf]
      · by_cases hl : Memory.read s.w 4 ≤ Config.afLenMaxWithPayload
        · simp [h0, byte_pos h0, hl, runForm, execTsAfPayload, h, loadDecoded, fieldPacket, headerOf]
        · simp [h0, hl, runForm, execTsAfPayloadBadlen, h, loadDecoded, DecodeError.code, DecodeError.info]

/-- The state an edge reaches with the byte at offset 187. -/
theorem fillLast_eq {d : Byte} {s t : State} (hst : s.st = .decoding) (hidx : s.idx.toNat = 187)
    (ht : completeWindow (acceptByte d (storeByte d s)) = .next t) :
    t = loadDecoded (decode s.cfg (windowBytes (acceptByte d (storeByte d s)))) (acceptByte d (storeByte d s)) := by
  have hi : s.idx = 187#8 := BitVec.eq_of_toNat_eq (by rw [hidx]; rfl)
  have hf : windowFull (acceptByte d (storeByte d s)) = true := by simp [windowFull, hst, hi]
  rw [completeWindow_eq _ hf] at ht
  simpa using ht.symm

/-- A full window fails with one of the three per-packet errors, each of which carries a byte of it. -/
theorem decode_error_of_full {cfg : Cfg} {buf : List Byte} {e : DecodeError} (h : decode cfg buf = .err e)
    (hl : buf.length = 188) :
    (e.code = .badSync ∨ e.code = .invalidAfLength ∨ e.code = .reservedAfc) ∧ errorState e.code = .decodeFailed ∧
      ∀ n m, e.info n = e.info m := by
  simp only [decode, hl, Config.packetLen] at h
  rw [if_neg (by omega)] at h
  split at h
  · cases h; simp [DecodeError.code, DecodeError.info, errorState]
  split at h
  · cases h; simp [DecodeError.code, DecodeError.info, errorState]
  split at h
  · split at h
    · cases h
    · rename_i heq
      simp only [decodeAf] at heq
      split at heq
      · cases heq
      · cases heq; cases h; simp [DecodeError.code, DecodeError.info, errorState]
  · cases h

/-! ## Loading an answer changes nothing but `RES`, `ST` and, for an error, `LAST_ERR` -/

@[simp] theorem loadDecoded_idx (r : DecodeResult) (s : State) : (loadDecoded r s).idx = s.idx := by cases r <;> rfl
@[simp] theorem loadDecoded_pos (r : DecodeResult) (s : State) : (loadDecoded r s).pos = s.pos := by cases r <;> rfl
@[simp] theorem loadDecoded_pktOff (r : DecodeResult) (s : State) : (loadDecoded r s).pktOff = s.pktOff := by
  cases r <;> rfl
@[simp] theorem loadDecoded_w (r : DecodeResult) (s : State) : (loadDecoded r s).w = s.w := by cases r <;> rfl
@[simp] theorem loadDecoded_cfg (r : DecodeResult) (s : State) : (loadDecoded r s).cfg = s.cfg := by cases r <;> rfl
@[simp] theorem loadDecoded_inputs (r : DecodeResult) (s : State) : (loadDecoded r s).inputs = s.inputs := by
  cases r <;> rfl
@[simp] theorem loadDecoded_emitted (r : DecodeResult) (s : State) : (loadDecoded r s).emitted = s.emitted := by
  cases r <;> rfl
@[simp] theorem loadDecoded_stream (r : DecodeResult) (s : State) : (loadDecoded r s).stream = s.stream := by
  cases r <;> rfl
@[simp] theorem loadDecoded_answer (r : DecodeResult) (s : State) : (loadDecoded r s).answer = s.answer := by
  cases r <;> rfl

end Sys2Proof.Machine
end

