-- ==== Sys2Proof/Laws/PerInstr.lean ====
section
/-! SUPPORT. Statements about every instruction as syntax, one lemma per constructor. `TableRow`: the word of a
well-formed instruction matches that instruction's row of `spec/opcode_table.json` (`30_encoding.md` R93). -/

namespace Sys2Proof

/-- Masking a prefix to its control bits (R80). -/
theorem and_afc_mask (p : BitVec 48) : p &&& 0x300000#48 = place 48 20 (prefixAfc p) := by
  apply BitVec.eq_of_getLsbD_eq
  intro i hi
  rw [BitVec.getLsbD_and, getLsbD_place, prefixAfc, BitVec.getLsbD_extractLsb']
  interval_cases i <;> simp

/-- Masking a prefix to its control bits and its length byte (R80). -/
theorem and_afc_len_mask (p : BitVec 48) :
    p &&& 0x30FF00#48 = place 48 20 (prefixAfc p) ||| place 48 8 (prefixLen p) := by
  apply BitVec.eq_of_getLsbD_eq
  intro i hi
  rw [BitVec.getLsbD_and, BitVec.getLsbD_or, getLsbD_place, getLsbD_place, prefixAfc, prefixLen,
    BitVec.getLsbD_extractLsb', BitVec.getLsbD_extractLsb']
  interval_cases i <;> simp

/-- The control bits of byte 3 as packed (R84). -/
theorem afc_packHeader (h : HdrFields) (afc : BitVec 2) : (packHeader h afc).2.2.extractLsb' 4 2 = afc := by
  apply BitVec.eq_of_getLsbD_eq
  intro i hi
  rw [BitVec.getLsbD_extractLsb']
  simp only [packHeader, BitVec.getLsbD_or, getLsbD_place]
  interval_cases i <;> simp

@[simp] theorem prefixAfc_packPrefix (b0 : Byte) (h : HdrFields) (afc : BitVec 2) (l f : Byte) :
    prefixAfc (packPrefix b0 h afc l f) = afc := by
  rw [packPrefix, prefixAfc_prefixOf, afc_packHeader]

@[simp] theorem prefixLen_packPrefix (b0 : Byte) (h : HdrFields) (afc : BitVec 2) (l f : Byte) :
    prefixLen (packPrefix b0 h afc l f) = l := prefixLen_prefixOf ..

@[simp] theorem prefixSync_packPrefix (b0 : Byte) (h : HdrFields) (afc : BitVec 2) (l f : Byte) :
    prefixSync (packPrefix b0 h afc l f) = b0 := prefixSync_prefixOf ..

@[simp] theorem prefixFlags_packPrefix (b0 : Byte) (h : HdrFields) (afc : BitVec 2) (l f : Byte) :
    prefixFlags (packPrefix b0 h afc l f) = f := prefixFlags_prefixOf ..

/-- Bit `i` of a beat word (R70). -/
theorem getLsbD_beatWord (e o : Bool) (d : Byte) (i : Nat) :
    (beatWord e o d).getLsbD i =
      (decide (i < 10) && ((decide (i = 9) && e) || (decide (i = 8) && o) || d.getLsbD i)) := by
  simp only [beatWord, BitVec.getLsbD_or, getLsbD_place]
  by_cases hi : i < 10
  · interval_cases i <;> simp
  · simp [hi]

/-- The low eight bits of a beat word are its data (R70). -/
theorem data_beatWord (e o : Bool) (d : Byte) : prefixFlags ((beatWord e o d).setWidth 48) = d := by
  apply BitVec.eq_of_getLsbD_eq
  intro i hi
  rw [prefixFlags, BitVec.getLsbD_extractLsb', BitVec.getLsbD_setWidth, getLsbD_beatWord]
  interval_cases i <;> simp

/-- Masking a beat word to `in_err` (R78, R79). -/
theorem and_err_mask (e o : Bool) (d : Byte) :
    (beatWord e o d).setWidth 48 &&& 0x200#48 = place 48 9 (BitVec.ofBool e) := by
  apply BitVec.eq_of_getLsbD_eq
  intro i hi
  rw [BitVec.getLsbD_and, BitVec.getLsbD_setWidth, getLsbD_beatWord, getLsbD_place]
  interval_cases i <;> simp

/-- Masking a beat word to `in_err` and `in_eos` (R78, R79). -/
theorem and_kind_mask (e o : Bool) (d : Byte) :
    (beatWord e o d).setWidth 48 &&& 0x300#48 = place 48 9 (BitVec.ofBool e) ||| place 48 8 (BitVec.ofBool o) := by
  apply BitVec.eq_of_getLsbD_eq
  intro i hi
  rw [BitVec.getLsbD_and, BitVec.getLsbD_setWidth, getLsbD_beatWord, BitVec.getLsbD_or, getLsbD_place, getLsbD_place]
  interval_cases i <;> simp

namespace Laws.TableRow

/-- Where a well-formed instruction can be selected, its word matches its row: the mask and the constraint. -/
def Statement (i : Instr) : Prop :=
  ∀ st cfg w, i.wf = true → i.inContext st cfg = true → encode i = some w → i.row.applies cfg w.bits = true

theorem scanIoerr (e : Bool) (d c : Byte) : Statement (.scanIoerr e d c) := by
  intro st cfg w _ _ hw
  cases hw
  simp [Row.applies, Instr.row, Side.holds, Word.bits, and_err_mask, place]

theorem scanEos (d : Byte) : Statement (.scanEos d) := by
  intro st cfg w _ _ hw
  cases hw
  simp [Row.applies, Instr.row, Side.holds, Word.bits, and_kind_mask, place]

theorem scanHit : Statement .scanHit := by
  intro st cfg w _ _ hw
  cases hw
  simp [Row.applies, Instr.row, Side.holds, Word.bits, beatWord, place]

theorem scanSkip (d : Byte) : Statement (.scanSkip d) := by
  intro st cfg w hwf _ hw
  cases hw
  simpa [Row.applies, Instr.row, Side.holds, Word.bits, and_kind_mask, place, data_beatWord, Instr.wf] using hwf

theorem fillIoerr (e : Bool) (d c : Byte) : Statement (.fillIoerr e d c) := by
  intro st cfg w _ _ hw
  cases hw
  simp [Row.applies, Instr.row, Side.holds, Word.bits, and_err_mask, place]

theorem fillEos (d : Byte) : Statement (.fillEos d) := by
  intro st cfg w _ _ hw
  cases hw
  simp [Row.applies, Instr.row, Side.holds, Word.bits, and_kind_mask, place]

theorem fill (d : Byte) : Statement (.fill d) := by
  intro st cfg w _ _ hw
  cases hw
  simp [Row.applies, Instr.row, Side.holds, Word.bits, and_kind_mask, place]

theorem tsBadSync (b0 : Byte) (h : HdrFields) (afc : BitVec 2) (l f : Byte) : Statement (.tsBadSync b0 h afc l f) := by
  intro st cfg w hwf hctx hw
  cases hw
  simp only [Instr.wf, Instr.inContext, Bool.and_eq_true] at hwf hctx
  simp [Row.applies, Instr.row, Side.holds, Word.bits, hctx.2]
  simpa using hwf

theorem tsReserved (b0 : Byte) (h : HdrFields) (l f : Byte) : Statement (.tsReserved b0 h l f) := by
  intro st cfg w _ _ hw
  cases hw
  simp [Row.applies, Instr.row, Side.holds, Word.bits, and_afc_mask, place]

theorem tsPayload (b0 : Byte) (h : HdrFields) (l f : Byte) : Statement (.tsPayload b0 h l f) := by
  intro st cfg w _ _ hw
  cases hw
  simp [Row.applies, Instr.row, Side.holds, Word.bits, and_afc_mask, place]

theorem tsAfOnly (b0 : Byte) (h : HdrFields) (f : Byte) : Statement (.tsAfOnly b0 h f) := by
  intro st cfg w _ _ hw
  cases hw
  simp [Row.applies, Instr.row, Side.holds, Word.bits, and_afc_len_mask, place]

theorem tsAfOnlyBadlen (b0 : Byte) (h : HdrFields) (l f : Byte) : Statement (.tsAfOnlyBadlen b0 h l f) := by
  intro st cfg w hwf _ hw
  cases hw
  simpa [Row.applies, Instr.row, Side.holds, Word.bits, and_afc_mask, place, Instr.wf] using hwf

theorem tsAfPayloadEmpty (b0 : Byte) (h : HdrFields) (f : Byte) : Statement (.tsAfPayloadEmpty b0 h f) := by
  intro st cfg w _ _ hw
  cases hw
  simp [Row.applies, Instr.row, Side.holds, Word.bits, and_afc_len_mask, place]

theorem tsAfPayload (b0 : Byte) (h : HdrFields) (l f : Byte) : Statement (.tsAfPayload b0 h l f) := by
  intro st cfg w hwf _ hw
  cases hw
  simpa [Row.applies, Instr.row, Side.holds, Word.bits, and_afc_mask, place, Instr.wf] using hwf

theorem tsAfPayloadBadlen (b0 : Byte) (h : HdrFields) (l f : Byte) : Statement (.tsAfPayloadBadlen b0 h l f) := by
  intro st cfg w hwf _ hw
  cases hw
  simpa [Row.applies, Instr.row, Side.holds, Word.bits, and_afc_mask, place, Instr.wf] using hwf

theorem reset (o n : Bool) (c : Cfg) : Statement (.reset o n c) := by
  intro st cfg w _ _ hw
  cases hw
  cases o <;> cases n <;> simp [Row.applies, Instr.row, Side.holds, Word.bits, eventWord, place]

theorem out : Statement .out := by
  intro st cfg w _ _ hw
  cases hw
  simp [Row.applies, Instr.row, Side.holds, Word.bits, eventWord, place]

theorem findSync : Statement .findSync := by
  intro st cfg w _ _ hw
  cases hw

theorem decode : Statement .decode := by
  intro st cfg w _ _ hw
  cases hw

theorem next : Statement .next := by
  intro st cfg w _ _ hw
  cases hw

theorem isPat : Statement .isPat := by
  intro st cfg w _ _ hw
  cases hw

theorem hasAf : Statement .hasAf := by
  intro st cfg w _ _ hw
  cases hw

theorem hasPayload : Statement .hasPayload := by
  intro st cfg w _ _ hw
  cases hw

end Laws.TableRow

end Sys2Proof
end

