-- ==== Sys2Proof/Laws/Runs.lean ====
section
/-! SUPPORT. The edges that `FIND_SYNC` and `NEXT` run: each has one of the effects of a step, so what every edge effect
keeps, the whole run keeps. -/

namespace Sys2Proof.Machine

/-- An edge run by a contract-level operation has an effect of a step. -/
theorem edgeEffect_of_clockEdge {s t : State} {p : Pins} (h : clockEdge p s = .next t) : EdgeEffect s p t := by
  unfold clockEdge at h
  rcases fetch_cases s p with ⟨_, o, n, hf⟩ | ⟨_, _, hf⟩ | ⟨_, _, _, hf⟩ | ⟨_, _, _, hf⟩ | ⟨hr, ho, hn, hf⟩
  · simp only [hf] at h
    exact edgeEffect_of_exec hf h rfl
  · simp only [hf] at h
    exact edgeEffect_of_exec hf h rfl
  · simp only [hf] at h
    rw [runEvent_eq_exec (by rw [decodeScan_beatWord]; repeat' split
                             all_goals rfl)] at h
    exact edgeEffect_of_exec hf h rfl
  · simp only [hf] at h
    rw [runEvent_eq_exec (by rw [decodeFill_beatWord]; repeat' split
                             all_goals rfl)] at h
    exact edgeEffect_of_exec hf h rfl
  · simp only [hf, Host.Outcome.next.injEq] at h
    exact h ▸ .idle hr ho hn

/-- What taking an edge off and every effect but `RESET` keep, a run of edges keeps. -/
theorem runEdges_keeps {P : State → Prop} {stop : State → Bool} (hin : ∀ s ps, P s → P { s with inputs := ps })
    (hedge : ∀ s p t, P s → p.rst = false → EdgeEffect s p t → P t) (ps : List Pins) :
    ∀ s t, P s → runEdges stop ps s = .next t → P t := by
  induction ps with
  | nil =>
    intro s t hp h
    simp only [runEdges, Host.Outcome.next.injEq] at h
    exact h ▸ hin _ _ hp
  | cons p ps ih =>
    intro s t hp h
    simp only [runEdges] at h
    split at h
    · simp only [Host.Outcome.next.injEq] at h
      exact h ▸ hin _ _ hp
    · rename_i hc
      simp only [Bool.or_eq_true, not_or, Bool.not_eq_true] at hc
      obtain ⟨u, hu, h⟩ := andThen_eq_next.1 h
      exact ih u t (hedge { s with inputs := ps } _ _ (hin _ _ hp) hc.2 (edgeEffect_of_clockEdge hu)) h

end Sys2Proof.Machine
end

