-- ==== Sys2Proof/Tests/Slice0.lean ====
section
/-! SUPPORT. The model's own tests. Expected values are the spec's: the words of `30_encoding.md`, the worked examples in
the rules, and the vectors of `95_test_vectors.md` (named by their ids). Then, for every statement with hypotheses, a
state and operands that meet them. -/

set_option maxRecDepth 20000
set_option synthInstance.maxSize 2000

namespace Sys2Proof.Tests

open Sys2Proof Sys2Proof.Machine

/-! ## States to test on -/

/-- Whether an outcome is a next state with a property. -/
def nextWith (o : Out) (f : State → Bool) : Bool :=
  match o with
  | .next t => f t
  | .fault _ => false
  | .refused _ => false

/-- Seeking after `n` bytes 0x00. -/
def seekAt (n : Nat) : State := { State.reset with pos := n, stream := List.replicate n 0#8 }

/-- A window open at offset 0 with `n` bytes of `47 00 00 ...`. -/
def openAt (n : Nat) : State :=
  { State.reset with
    st := .decoding, idx := BitVec.ofNat 8 n, pos := n, w := [(0, 0x47#8)]
    stream := 0x47#8 :: List.replicate (n - 1) 0#8 }

/-- The moment a full window's form is run, on the window `47 00 00 ...`. -/
def full : State := openAt 188

/-- The packet `47 00 00 10` + `184×00` (`95_test_vectors.md`, the packet `ok`). -/
def okPacket : TransportPacket := ⟨⟨false, false, false, 0x0000#16, 0#2, 1#2, 0#4⟩, none⟩

/-- Vector I6 with its packet held. -/
def heldPacket : State :=
  { State.reset with
    st := .yield, idx := 188#8, pos := 188, w := [(0, 0x47#8), (3, 0x10#8)], res := some (.packet okPacket 0)
    stream := [0x47#8, 0#8, 0#8, 0x10#8] ++ List.replicate 184 0#8 }

/-- The header of packet B of program P1. -/
def hdrFields : Header := ⟨false, true, false, 0x0100#16, 0#2, 3#2, 6#4⟩

/-- Packet B of program P1 held. -/
def heldFields : State :=
  { heldPacket with res := some (.packet ⟨hdrFields, some ⟨7#8, some (unpackAfFlags 0x50#8)⟩⟩ 190) }

/-- The same header held with a field of length 0. -/
def heldEmpty : State := { heldPacket with res := some (.packet ⟨hdrFields, some ⟨0#8, none⟩⟩ 190) }

/-- Vector I7 with its error held: 187 bytes of a window. -/
def heldShort : State :=
  { openAt 187 with st := .decodeFailed, res := some (.error .shortBuffer 187#8 0#8 0), lastErr := some .shortBuffer }

/-- A window `47 00 00 ...` (`afc = 00`) rejected as a whole. -/
def heldReserved : State :=
  { openAt 188 with st := .decodeFailed, res := some (.error .reservedAfc 0#8 0#8 0), lastErr := some .reservedAfc }

/-- Program P4b with its error held. -/
def heldReadIo : State :=
  { openAt 50 with st := .seekFailed, res := some (.error .readIo 0#8 0x5A#8 50), lastErr := some .readIo }

/-- The end of a run on garbage (vector I3). -/
def finished : State := { seekAt 3 with st := .terminated }

/-- The end of program P4a. -/
def dead : State := { seekAt 3 with st := .fatal, lastErr := some .syncIo, emitted := [.error .syncIo 0#8 0x5A#8 3] }

/-- A state at a clock edge with the given pins, and none after it. -/
def edge (s : State) (p : Pins) : State := { s with inputs := [p] }

/-- Pins of a reset edge with the `cfg_*` pins (1, 0, 1), a beat and a ready Consumer (vectors Z1, Z3). -/
def resetPins : Pins := ⟨true, ⟨true, false, true⟩, true, false, false, 0x47#8, 0#8, true⟩

/-- The fields of the vectors A1 to A13: `pid = 0x0020`, all else 0. -/
def hdrA : HdrFields := ⟨false, false, false, 0x0020#13, 0#2, 0#4⟩

/-- The packet source `ok`, ended by `EOS`. -/
def okSource : Source := ⟨[0x47#8, 0#8, 0#8, 0x10#8] ++ List.replicate 184 0#8, .eos⟩

/-- Reset, with the beats of `ok`'s window on the coming edges and then a ready Consumer. -/
def beforeOk : State :=
  { State.reset with inputs := (okSource.beats.take 188).map Pins.offer ++ [Pins.take] }

/-! ## The checks of `WellFormed`, each with a term it refuses -/

theorem test_wf_scanSkip : (Instr.scanSkip 0x47#8).wf = false := by decide
theorem test_wf_tsBadSync : (Instr.tsBadSync 0x47#8 hdrA 1#2 0#8 0#8).wf = false := by decide
theorem test_wf_tsAfOnlyBadlen : (Instr.tsAfOnlyBadlen 0x47#8 hdrA 183#8 0#8).wf = false := by decide
theorem test_wf_tsAfPayload_low : (Instr.tsAfPayload 0x47#8 hdrA 0#8 0#8).wf = false := by decide
theorem test_wf_tsAfPayload_high : (Instr.tsAfPayload 0x47#8 hdrA 183#8 0#8).wf = false := by decide
theorem test_wf_tsAfPayloadBadlen : (Instr.tsAfPayloadBadlen 0x47#8 hdrA 182#8 0#8).wf = false := by decide
theorem test_wf_context : (Instr.tsPayload 0x48#8 hdrA 0#8 0#8).inContext .decoding Cfg.recommended = false ∧
    (Instr.tsBadSync 0x48#8 hdrA 1#2 0#8 0#8).inContext .decoding ⟨true, true, false⟩ = false ∧
    Instr.decode.inContext .decoding Cfg.recommended = false := by decide

/-! ## Every constructor's word -/

/-- `30_encoding.md` R78: `1 - --------`, with `in_cause`. -/
theorem test_word_scanIoerr : decodeWord .seeking Cfg.recommended (.beat 0b1011111111#10 0x5A#8)
    = .ok (.scanIoerr false 0xFF#8 0x5A#8) := by rfl
/-- R78: `0 1 --------`. -/
theorem test_word_scanEos : decodeWord .seeking Cfg.recommended (.beat 0b0101000111#10 0#8)
    = .ok (.scanEos 0x47#8) := by rfl
/-- R78: `0 0 01000111`. -/
theorem test_word_scanHit : decodeWord .seeking Cfg.recommended (.beat 0b0001000111#10 0#8) = .ok .scanHit := by rfl
/-- R78: `0 0 dddddddd`; vector S6: 0x46 differs in one bit. -/
theorem test_word_scanSkip : decodeWord .seeking Cfg.recommended (.beat 0b0001000110#10 0#8)
    = .ok (.scanSkip 0x46#8) := by rfl
/-- R79: `1 - --------`; `in_err` wins over `in_eos` (R70). -/
theorem test_word_fillIoerr : decodeWord .decoding Cfg.recommended (.beat 0b1100000000#10 0x09#8)
    = .ok (.fillIoerr true 0#8 0x09#8) := by rfl
/-- R79: `0 1 --------`. -/
theorem test_word_fillEos : decodeWord .decoding Cfg.recommended (.beat 0b0100000001#10 0#8)
    = .ok (.fillEos 1#8) := by rfl
/-- R79: a byte 0x47 inside a window is ordinary data. -/
theorem test_word_fill : decodeWord .decoding Cfg.recommended (.beat 0b0001000111#10 0#8)
    = .ok (.fill 0x47#8) := by rfl
/-- R123's example `48 00 20 10` under `check_sync = 1`. -/
theorem test_word_tsBadSync : decodeWord .decoding Cfg.recommended (.packet 0x480020100000#48)
    = .ok (.tsBadSync 0x48#8 hdrA 1#2 0#8 0#8) := by rfl
/-- R126's example `47 1F FF 00`. -/
theorem test_word_tsReserved : decodeWord .decoding Cfg.recommended (.packet 0x471FFF00FFFF#48)
    = .ok (.tsReserved 0x47#8 ⟨false, false, false, 0x1FFF#13, 0#2, 0#4⟩ 0xFF#8 0xFF#8) := by rfl
/-- R127's example `47 00 00 15`. -/
theorem test_word_tsPayload : decodeWord .decoding Cfg.recommended (.packet 0x47000015FFFE#48)
    = .ok (.tsPayload 0x47#8 ⟨false, false, false, 0#13, 0#2, 5#4⟩ 0xFF#8 0xFE#8) := by rfl
/-- R146's example `47 01 00 22 B7 80`. -/
theorem test_word_tsAfOnly : decodeWord .decoding Cfg.recommended (.packet 0x47010022B780#48)
    = .ok (.tsAfOnly 0x47#8 ⟨false, false, false, 0x0100#13, 0#2, 2#4⟩ 0x80#8) := by rfl
/-- Vector A8: `47 00 20 20 B6`. -/
theorem test_word_tsAfOnlyBadlen : decodeWord .decoding Cfg.recommended (.packet 0x47002020B611#48)
    = .ok (.tsAfOnlyBadlen 0x47#8 hdrA 0xB6#8 0x11#8) := by rfl
/-- R147's example `47 00 20 30 00 FF`. -/
theorem test_word_tsAfPayloadEmpty : decodeWord .decoding Cfg.recommended (.packet 0x4700203000FF#48)
    = .ok (.tsAfPayloadEmpty 0x47#8 hdrA 0xFF#8) := by rfl
/-- R148's example `47 41 00 36 07 50`. -/
theorem test_word_tsAfPayload : decodeWord .decoding Cfg.recommended (.packet 0x474100360750#48)
    = .ok (.tsAfPayload 0x47#8 ⟨false, true, false, 0x0100#13, 0#2, 6#4⟩ 7#8 0x50#8) := by rfl
/-- R144's example `47 01 00 31 B7`. -/
theorem test_word_tsAfPayloadBadlen : decodeWord .decoding Cfg.recommended (.packet 0x47010031B700#48)
    = .ok (.tsAfPayloadBadlen 0x47#8 ⟨false, false, false, 0x0100#13, 0#2, 1#4⟩ 0xB7#8 0#8) := by rfl
/-- R93: event word `1 - -`. -/
theorem test_word_reset : decodeWord .yield Cfg.recommended (.event 0b110#3 ⟨true, false, true⟩)
    = .ok (.reset true false ⟨true, false, true⟩) := by rfl
/-- R93: event word `0 1 0`. -/
theorem test_word_out : decodeWord .decodeFailed Cfg.recommended (.event 0b010#3 Cfg.recommended) = .ok .out := by rfl
/-- R93: the rows of format `function` are selected by no word. -/
theorem test_word_function : encode .findSync = none ∧ encode .decode = none ∧ encode .next = none ∧
    encode .isPat = none ∧ encode .hasAf = none ∧ encode .hasPayload = none := by decide
/-- What selects nothing is rejected by name. -/
theorem test_word_rejected :
    decodeWord .yield Cfg.recommended (.event 0b011#3 Cfg.recommended) = .error .bothFire ∧
    decodeWord .yield Cfg.recommended (.event 0b000#3 Cfg.recommended) = .error .noEvent ∧
    decodeWord .seeking Cfg.recommended (.event 0b010#3 Cfg.recommended) = .error .outNotEnabled ∧
    decodeWord .fatal Cfg.recommended (.beat 0#10 0#8) = .error .beatNotAccepted ∧
    decodeWord .seeking Cfg.recommended (.packet 0#48) = .error .noWindow := ⟨rfl, rfl, rfl, rfl, rfl⟩
/-- R93's words as table words, and the very next step from reset runs them (log 14, log 15). -/
theorem test_tableWord :
    decodeTableWord 16 0x047 = some .scanHit ∧ decodeTableWord 16 0x100 = some (.scanEos 0#8) ∧
    decodeTableWord 8 0x4 = some (.reset false false Cfg.recommended) ∧ decodeTableWord 8 0x2 = some .out ∧
    decodeTableWord 24 0x20B700 = some (.tsAfOnly 0#8 .zero 0#8) ∧
    nextWith (step (State.reset.withFetchWord 16 0x047)) (fun t => t.st == .decoding && t.pos == 1) = true ∧
    nextWith (step (State.reset.withFetchWord 8 0x2)) (fun t => t.st == .seeking) = true := by decide
theorem test_fetchWord_packet :
    nextWith (step (State.reset.withFetchWord 24 0x20B700)) (fun t => t.st == .yield && t.idx == 188#8) = true := by
  decide

/-! ## One event each -/

/-- Vector S2, third beat: `POS = 3`, `PKT_OFF = 2`, `IDX = 1`, `W[0] = 0x47`. -/
theorem test_scanHit : nextWith (exec .scanHit (seekAt 2))
    (fun t => t.st == .decoding && t.pos == 3 && t.pktOff == 2 && t.idx == 1#8 && Memory.read t.w 0 == 0x47#8) = true := by
  decide
/-- R102's example. -/
theorem test_scanSkip : nextWith (exec (.scanSkip 0#8) (seekAt 0)) (fun t => t.st == .seeking && t.pos == 1) = true := by
  decide
/-- R103's example (vector I3). -/
theorem test_scanEos : nextWith (exec (.scanEos 0#8) (seekAt 3))
    (fun t => t.st == .terminated && t.pos == 3 && t.lastErr == none) = true := by decide
/-- Program P4a. -/
theorem test_scanIoerr : nextWith (exec (.scanIoerr false 0#8 0x5A#8) (seekAt 3))
    (fun t => t.st == .seekFailed && t.res == some (.error .syncIo 0#8 0x5A#8 3)) = true := by decide
/-- R164's example: `IDX = 1`, byte 0x00; and the byte 0x47 is data. -/
theorem test_fill : nextWith (exec (.fill 0x47#8) (openAt 1))
    (fun t => t.st == .decoding && t.idx == 2#8 && Memory.read t.w 1 == 0x47#8 && t.pktOff == 0) = true := by decide
/-- Vector I6 up to its last byte: the window completes as `TS_PAYLOAD`. -/
theorem test_fill_last : nextWith (exec (.fill 0#8) { openAt 187 with w := [(0, 0x47#8), (3, 0x10#8)] })
    (fun t => t.st == .yield && t.pos == 188 && t.res == some (.packet okPacket 0)) = true := by decide
/-- Vector I4. -/
theorem test_fillEos : nextWith (exec (.fillEos 0#8) { openAt 1 with pos := 3, pktOff := 2 })
    (fun t => t.res == some (.error .shortBuffer 1#8 0#8 2) && t.st == .decodeFailed) = true := by decide
/-- Program P4b. -/
theorem test_fillIoerr : nextWith (exec (.fillIoerr true 0#8 0x5A#8) (openAt 50)) (· == heldReadIo) = true := by decide
/-- Vector D3's error. -/
theorem test_tsBadSync : nextWith (exec (.tsBadSync 0x48#8 hdrA 1#2 0xFF#8 0xFF#8) full)
    (fun t => t.res == some (.error .badSync 0x48#8 0#8 0) && t.st == .decodeFailed) = true := by decide
/-- Vector A13 under both policies. -/
theorem test_tsReserved_reject : nextWith (exec (.tsReserved 0x47#8 hdrA 0xB7#8 0#8) full)
    (fun t => t.res == some (.error .reservedAfc 0#8 0#8 0)) = true := by decide
theorem test_tsReserved_accept :
    nextWith (exec (.tsReserved 0x47#8 hdrA 0xB7#8 0#8) { full with cfg := ⟨false, true, true⟩ })
      (fun t => t.st == .yield && (outPins t).hasAf == false && (outPins t).hasPayload == false
        && (outPins t).afPresent == false && (outPins t).pid == 0x0020#16) = true := by decide
/-- Vector A12. -/
theorem test_tsPayload : nextWith (exec (.tsPayload 0x47#8 hdrA 0xFF#8 0xFF#8) full)
    (fun t => (outPins t).afPresent == false && (outPins t).hasPayload == true) = true := by decide
/-- Vector A7: flags 0xA5. -/
theorem test_tsAfOnly : nextWith (exec (.tsAfOnly 0x47#8 hdrA 0xA5#8) full)
    (fun t => t.res == some (.packet ⟨⟨false, false, false, 0x0020#16, 0#2, 2#2, 0#4⟩,
      some ⟨183#8, some ⟨true, false, true, false, false, true, false, true⟩⟩⟩ 0)) = true := by decide
/-- Vector A8. -/
theorem test_tsAfOnlyBadlen : nextWith (exec (.tsAfOnlyBadlen 0x47#8 hdrA 0xB6#8 0#8) full)
    (fun t => t.res == some (.error .invalidAfLength 0xB6#8 0#8 0) && outPins t == errorPins .invalidAfLength 0xB6#8 0#8 0)
      = true := by decide
/-- Vector A1: no flags although byte 5 is 0xFF. -/
theorem test_tsAfPayloadEmpty : nextWith (exec (.tsAfPayloadEmpty 0x47#8 hdrA 0xFF#8) full)
    (fun t => (outPins t).afPresent == true && (outPins t).afhPresent == false && (outPins t).afe == false) = true := by
  decide
/-- Packet B of program P1: length 7, flags 0x50. -/
theorem test_tsAfPayload : nextWith (exec (.tsAfPayload 0x47#8 ⟨false, true, false, 0x0100#13, 0#2, 6#4⟩ 7#8 0x50#8) full)
    (fun t => (outPins t).pid == 0x0100#16 && (outPins t).cc == 6#4 && (outPins t).pusi == true
      && (outPins t).afLength == 7#8 && (outPins t).rai == true && (outPins t).pcr == true && (outPins t).di == false
      && (outPins t).isPat == false && (outPins t).hasAf == true) = true := by decide
/-- Vector A4. -/
theorem test_tsAfPayloadBadlen : nextWith (exec (.tsAfPayloadBadlen 0x47#8 hdrA 0xB7#8 0#8) full)
    (fun t => t.res == some (.error .invalidAfLength 0xB7#8 0#8 0)) = true := by decide
/-- Vector Z1: the held packet is lost. -/
theorem test_reset : nextWith (step (edge heldPacket resetPins)) (· == State.resetWith ⟨true, false, true⟩) = true := by
  decide
/-- Vector I6, its `OUT`; and after vector I7's error the run is over whatever `cfg.resync` is. -/
theorem test_out : nextWith (exec .out heldPacket)
    (fun t => t.st == .seeking && t.idx == 0#8 && t.pos == 188 && t.res == none) = true := by decide
theorem test_out_short : nextWith (exec .out heldShort) (fun t => t.st == .fatal && t.lastErr == some .shortBuffer)
    = true := by decide
/-- Vector S2 as an operation, the beat 0xAA not taken. -/
theorem test_findSync :
    nextWith (exec .findSync { State.reset with
        inputs := [Pins.offer (.data 0#8), Pins.offer (.data 0xFF#8), Pins.offer (.data 0x47#8), Pins.offer (.data 0xAA#8)] })
      (fun t => t.answer == some (.sync (.found 2)) && t.pos == 3 && t.pktOff == 2 && t.idx == 1#8
        && t.inputs == [Pins.offer (.data 0xAA#8)]) = true := by decide
/-- Vector S6: an I/O error after four bytes that are not 0x47. -/
theorem test_findSync_function :
    findSync ⟨[0x46#8, 0x45#8, 0xC7#8, 0x07#8], .ioerr 9#8⟩ 0 = .io 9#8 ∧
    findSync ⟨[0x00#8, 0xFF#8, 0x47#8, 0xAA#8], .eos⟩ 3 = .endOfStream := by decide
/-- Vectors D1 and D6: 187 bytes; a bad length past an unchecked sync byte. -/
theorem test_decode_short : nextWith (exec .decode (openAt 187))
    (fun t => t.answer == some (.decoded (.err .shortBuffer))) = true := by decide
theorem test_decode_order :
    decode ⟨true, true, false⟩ ([0#8, 0#8, 0x20#8, 0x30#8, 0xC8#8] ++ List.replicate 183 0x11#8)
      = .err (.invalidAfLength 200#8) ∧
    decode ⟨true, true, true⟩ ([0#8, 0#8, 0x20#8, 0x30#8, 0xC8#8] ++ List.replicate 183 0x11#8)
      = .err (.badSync 0#8) := by decide
/-- Vector I2: the source fails at once, the Consumer takes the one result. -/
theorem test_next :
    nextWith (exec .next { State.reset with inputs := [Pins.offer (.ioerr 9#8), Pins.take] })
      (fun t => t.answer == some (.item (.error .syncIo 0#8 9#8 0)) && t.st == .fatal) = true := by decide
/-- Vector I1: the empty stream ends without a result. -/
theorem test_next_ended : nextWith (exec .next { State.reset with inputs := [Pins.offer .eos] })
    (fun t => t.answer == some .ended && t.st == .terminated) = true := by decide
/-- R130, R131, R132 on vector I6's packet, and an error offers no packet. -/
theorem test_accessors :
    nextWith (exec .isPat heldPacket) (fun t => t.answer == some (.bit true)) = true ∧
    nextWith (exec .hasAf heldPacket) (fun t => t.answer == some (.bit false)) = true ∧
    nextWith (exec .hasPayload heldPacket) (fun t => t.answer == some (.bit true)) = true ∧
    nextWith (exec .isPat heldShort) (fun t => t.answer == some (.bit false)) = true := by decide
/-- Vector F4: flag byte 0x50. -/
theorem test_flags : unpackAfFlags 0x50#8 = ⟨false, true, false, true, false, false, false, false⟩ := by decide
/-- R121's example `(0x41, 0x00, 0x36)`. -/
theorem test_header : unpackHeader 0x41#8 0x00#8 0x36#8 = ⟨false, true, false, 0x0100#16, 0#2, 3#2, 6#4⟩ := by decide
/-- The window read port of program P4b: 50 bytes, and 0 above them. -/
theorem test_window_port : winData heldReadIo 0#8 = 0x47#8 ∧ winData heldReadIo 50#8 = 0#8 := by decide
/-- `STATUS` in FATAL after an I/O error: `LAST_ERR = 1`, `ST = 6` (R33, R190). -/
theorem test_status : statusWord dead = 0b00000000001110#14 := by decide

/-! ## Every statement's hypotheses are met

Each theorem is named after its statement; it gives a state and operands that meet the hypotheses of it, or of each of
its clauses, at a value where clauses meet. -/

theorem witness_ResetWinsOverEveryHandshake :
    (edge heldPacket resetPins).inputs = [resetPins] ∧ resetPins.rst = true ∧
    outFire heldPacket resetPins = true ∧ inFire (openAt 50) resetPins = true := by decide

theorem witness_StepRunsTheInstructionOfTheEdge :
    (edge (seekAt 2) (Pins.offer (.data 0x47#8))).inputs = [Pins.offer (.data 0x47#8)] ∧
    (fetch (seekAt 2) (Pins.offer (.data 0x47#8))).toOption = some .scanHit ∧
    resetPins.rst = true ∧ outValid heldShort = true ∧ Pins.take.outReady = true ∧ Pins.take.rst = false ∧
    (openAt 1).st = .decoding ∧ (Pins.offer .eos).inValid = true ∧ (seekAt 0).st = .seeking ∧
    (seekAt 0).inputs = [] := by decide

theorem witness_EdgeWithoutEventChangesNothing :
    (edge heldPacket (Pins.offer .eos)).inputs = [Pins.offer .eos] ∧ (Pins.offer .eos).rst = false ∧
    (outValid (edge heldPacket (Pins.offer .eos)) = true → (Pins.offer .eos).outReady = false) ∧
    (inReady (edge heldPacket (Pins.offer .eos)) = true → (Pins.offer .eos).inValid = false) := by decide

theorem witness_EventOutsideItsStateStops :
    heldPacket.st ≠ .seeking ∧ heldPacket.st ≠ .decoding ∧ (openAt 188).st = .decoding ∧ 188 ≤ (openAt 188).idx.toNat ∧
    outValid finished = false ∧ ¬((openAt 187).st = .decoding ∧ (openAt 187).idx = 188#8) := by decide

theorem witness_ScanHitOpensTheWindow :
    (seekAt 2).st = .seeking ∧ (seekAt 2).pos + 1 < 2 ^ 64 ∧ Memory.wf (seekAt 2).w = true := by decide

theorem witness_ScanSkipOnlyMovesPos :
    (seekAt 0).st = .seeking ∧ (seekAt 0).pos + 1 < 2 ^ 64 ∧ 0x46#8 ≠ 0x47#8 := by decide

theorem witness_ScanEosTerminates : (seekAt 3).st = .seeking := by decide

theorem witness_ScanIoerrHoldsSyncIo : (seekAt 0).st = .seeking := by decide

theorem witness_FillStoresTheByte :
    ((openAt 1).st = .decoding ∧ (openAt 1).idx.toNat ≤ 187 ∧ (openAt 1).pos + 1 < 2 ^ 64 ∧
      Memory.wf (openAt 1).w = true ∧ (openAt 1).idx.toNat < 187) ∧
    ((openAt 187).st = .decoding ∧ (openAt 187).idx.toNat ≤ 187 ∧ (openAt 187).pos + 1 < 2 ^ 64 ∧
      Memory.wf (openAt 187).w = true ∧ (openAt 187).idx.toNat = 187) := by decide

theorem witness_LastFillLoadsWhatDecodeAnswers :
    (openAt 187).st = .decoding ∧ (openAt 187).idx = 187#8 ∧ (openAt 187).pos + 1 < 2 ^ 64 ∧
    Memory.wf (openAt 187).w = true := by decide

theorem witness_FillEosHoldsShortBuffer : (openAt 187).st = .decoding := by decide

theorem witness_FillIoerrHoldsReadIo : (openAt 1).st = .decoding := by decide

theorem witness_StreamOfTooManyBytesIsRefused :
    { seekAt 0 with pos := 2 ^ 64 - 1 }.st = .seeking ∧ { openAt 1 with pos := 2 ^ 64 - 1 }.st = .decoding ∧
    { openAt 187 with pos := 2 ^ 64 - 1 }.idx.toNat < 188 := by decide

theorem witness_OutTakesTheHeldResult :
    (heldPacket.st = .yield ∧ heldPacket.res = some (.packet okPacket 0)) ∧
    (heldShort.st = .decodeFailed ∧ heldShort.res = some (.error .shortBuffer 187#8 0#8 0)) ∧
    (heldReadIo.st = .seekFailed ∧ heldReadIo.res = some (.error .readIo 0#8 0x5A#8 50)) := by decide

/-- The moment a form is run, for every statement about a packet form. -/
theorem witness_full : full.st = .decoding ∧ full.idx = 188#8 := by decide

theorem witness_BadSyncFormRaises : full.st = .decoding ∧ full.idx = 188#8 := by decide

theorem witness_ReservedFormFollowsThePolicy :
    (full.st = .decoding ∧ full.idx = 188#8 ∧ passesSyncCheck full.cfg 0x47#8 = true ∧ full.cfg.afc00Reject = true) ∧
    { full with cfg := ⟨false, true, false⟩ }.cfg.afc00Reject = false ∧
    passesSyncCheck ⟨false, true, false⟩ 0x48#8 = true := by decide

theorem witness_PayloadFormLoadsAPacket :
    full.st = .decoding ∧ full.idx = 188#8 ∧ passesSyncCheck full.cfg 0x47#8 = true := by decide

theorem witness_AfOnlyFormLoadsAPacket :
    full.st = .decoding ∧ full.idx = 188#8 ∧ passesSyncCheck full.cfg 0x47#8 = true := by decide

theorem witness_AfPayloadEmptyFormLoadsAPacket :
    full.st = .decoding ∧ full.idx = 188#8 ∧ passesSyncCheck full.cfg 0x47#8 = true := by decide

theorem witness_AfPayloadFormLoadsAPacket :
    full.st = .decoding ∧ full.idx = 188#8 ∧ passesSyncCheck full.cfg 0x47#8 = true ∧
    (1 ≤ (1#8).toNat ∧ (1#8).toNat ≤ 182) ∧ (1 ≤ (182#8).toNat ∧ (182#8).toNat ≤ 182) := by decide

theorem witness_BadLengthFormsRaise :
    full.st = .decoding ∧ full.idx = 188#8 ∧ passesSyncCheck full.cfg 0x47#8 = true ∧
    (182#8).toNat ≠ 183 ∧ 183 ≤ (183#8).toNat := by decide

theorem witness_DecodedPacketHasTheWindowsFields :
    decode Cfg.recommended okSource.bytes = .ok okPacket ∧ okPacket.header.afc.toNat < 2 ∧
    decode Cfg.recommended ([0x47#8, 0#8, 0x20#8, 0x30#8] ++ List.replicate 184 0#8)
      = .ok ⟨⟨false, false, false, 0x0020#16, 0#2, 3#2, 0#4⟩, some ⟨0#8, none⟩⟩ ∧ 2 ≤ (3#2).toNat := by decide

/-- Two windows that differ in every byte the decoder does not look at. -/
theorem witness_DecodeLooksAtNothingElse :
    ([0x47#8, 0#8, 0#8, 0x10#8] ++ List.replicate 184 0#8).length
      = ([0x47#8, 0#8, 0#8, 0x10#8] ++ List.replicate 184 1#8).length ∧
    (∀ i, i < 4 → byteAt ([0x47#8, 0#8, 0#8, 0x10#8] ++ List.replicate 184 0#8) i
      = byteAt ([0x47#8, 0#8, 0#8, 0x10#8] ++ List.replicate 184 1#8) i) ∧
    (unpackHeader 0#8 0#8 0x10#8).hasAf = false := by decide

theorem witness_PayloadFillsTheRestOfTheWindow :
    decode Cfg.recommended okSource.bytes = .ok okPacket ∧ okPacket.header.hasPayload = true ∧
    decode ⟨false, true, true⟩ (0x47#8 :: List.replicate 187 0#8)
      = .ok ⟨⟨false, false, false, 0#16, 0#2, 0#2, 0#4⟩, none⟩ ∧
    (⟨false, false, false, 0#16, 0#2, 0#2, 0#4⟩ : Header).hasPayload = false := by decide

theorem witness_AccessorsReadTheOfferedPacket :
    (outValid heldPacket = true ∧ heldPacket.res = some (.packet okPacket 0)) ∧ outValid finished = false ∧
    outValid heldShort = true ∧ heldShort.res = some (.error .shortBuffer 187#8 0#8 0) := by decide

theorem witness_FindSyncIsIdempotent : findSync ⟨[0x00#8, 0xFF#8, 0x47#8, 0xAA#8], .eos⟩ 0 = .found 2 := by decide

theorem witness_FindSyncOperationAgreesWithTheFunction :
    (seekAt 1).st = .seeking ∧ (seekAt 1).pos ≤ [0#8, 0x47#8].length ∧ [0#8, 0x47#8].length < 2 ^ 64 ∧
    Memory.wf (seekAt 1).w = true ∧
    { seekAt 1 with inputs := [Pins.offer (.data 0x47#8), Pins.offer .eos, Pins.take] }.inputs
      = ((⟨[0#8, 0x47#8], .eos⟩ : Source).beats.drop (seekAt 1).pos).map Pins.offer ++ [Pins.take] ∧
    findSync ⟨[0#8, 0x47#8], .eos⟩ 1 = .found 1 ∧ findSync ⟨[0#8], .eos⟩ 1 = .endOfStream ∧
    findSync ⟨[0#8], .ioerr 9#8⟩ 1 = .io 9#8 := by decide

theorem witness_NextDeliversAtMostOneResult :
    StateInv { heldPacket with inputs := [Pins.take] } ∧
    { heldPacket with inputs := [Pins.take] }.pos + { heldPacket with inputs := [Pins.take] }.inputs.length < 2 ^ 64 ∧
    StateInv finished ∧ StateInv (openAt 1) := by decide

theorem witness_NextDeliversTheNextWindow :
    StateInv beforeOk ∧ beforeOk.st = .seeking ∧ beforeOk.pos ≤ okSource.bytes.length ∧
    okSource.bytes.length < 2 ^ 64 ∧
    beforeOk.inputs = ((okSource.beats.drop 0).take (0 + 188 - 0)).map Pins.offer ++ Pins.take :: [] ∧
    (findSync okSource 0 = .found 0 ∧ 0 + 188 ≤ okSource.bytes.length) ∧
    (findSync ⟨[0x47#8], .eos⟩ 0 = .found 0 ∧ [0x47#8].length < 0 + 188) ∧
    findSync ⟨[], .eos⟩ 0 = .endOfStream ∧ findSync ⟨[], .ioerr 9#8⟩ 0 = .io 9#8 := by decide

theorem witness_OnlyResetChangesCfg :
    ((∀ o n c, Instr.out ≠ .reset o n c) ∧ ∃ t, exec .out heldPacket = .next t) ∧
    ({ Pins.take with cfg := ⟨false, true, false⟩ } ≠ Pins.take ∧ Pins.take.rst = false ∧
      nextWith (step (edge heldPacket Pins.take)) (fun t => t.emitted == [.packet okPacket 0]) = true) :=
  ⟨⟨fun _ _ _ h => (by cases h), _, rfl⟩, by decide⟩

theorem witness_LastErrIsSticky :
    (edge (openAt 1) (Pins.offer .eos)).inputs = [Pins.offer .eos] ∧ (Pins.offer .eos).rst = false ∧
    ∃ t, step (edge (openAt 1) (Pins.offer .eos)) = .next t := ⟨rfl, rfl, _, rfl⟩

theorem witness_PosCountsTheDataBeats :
    (edge (openAt 1) (Pins.offer (.data 0#8))).inputs = [Pins.offer (.data 0#8)] ∧
    ∃ t, step (edge (openAt 1) (Pins.offer (.data 0#8))) = .next t := ⟨rfl, _, rfl⟩

theorem witness_TransitionsAreThoseOfTheTable :
    (edge (openAt 187) (Pins.offer (.data 0#8))).inputs = [Pins.offer (.data 0#8)] ∧
    nextWith (step (edge (openAt 187) (Pins.offer (.data 0#8)))) (fun t => t.st == .decodeFailed) = true := by decide

theorem witness_TerminalStatesAreLeftByResetOnly :
    finished.st = .terminated ∧ dead.st = .fatal ∧ (edge dead Pins.take).inputs = [Pins.take] ∧ Pins.take.rst = false ∧
    (edge dead resetPins).inputs = [resetPins] ∧ resetPins.rst = true := by decide

theorem witness_TerminalBeatIsTheLastBeat :
    ((edge (openAt 1) (Pins.offer .eos)).inputs = [Pins.offer .eos] ∧ (Pins.offer .eos).rst = false ∧
      inFire (edge (openAt 1) (Pins.offer .eos)) (Pins.offer .eos) = true ∧ (Pins.offer .eos).inEos = true ∧
      nextWith (step (edge (openAt 1) (Pins.offer .eos))) closed = true) ∧
    (closed (edge heldShort Pins.take) = true ∧ nextWith (step (edge heldShort Pins.take)) closed = true) := by decide

/-- A held packet of each adaptation-field shape (none, without flags, with flags), and a held error. -/
theorem witness_OutputPinsAreStableWhileHeld :
    ((edge heldPacket (Pins.offer .eos)).inputs = [Pins.offer .eos] ∧ (Pins.offer .eos).rst = false ∧
      outValid (edge heldPacket (Pins.offer .eos)) = true ∧ (Pins.offer .eos).outReady = false ∧
      nextWith (step (edge heldPacket (Pins.offer .eos))) outValid = true) ∧
    (outValid heldPacket = true ∧ heldPacket.res = some (.packet ⟨okPacket.header, none⟩ 0)) ∧
    (outValid heldFields = true ∧
      heldFields.res = some (.packet ⟨hdrFields, some ⟨7#8, some (unpackAfFlags 0x50#8)⟩⟩ 190)) ∧
    (outValid heldEmpty = true ∧ heldEmpty.res = some (.packet ⟨hdrFields, some ⟨0#8, none⟩⟩ 190)) ∧
    (outValid heldReadIo = true ∧ heldReadIo.res = some (.error .readIo 0#8 0x5A#8 50)) := by decide

theorem witness_WindowPortShowsTheHeldBytes :
    StateInv heldReadIo ∧ outValid heldReadIo = true ∧ (49#8).toNat < heldReadIo.idx.toNat ∧
    heldReadIo.idx.toNat ≤ (50#8).toNat ∧ StateInv (openAt 50) ∧ outValid (openAt 50) = false := by decide

/-- The invariant holds in every kind of state. -/
theorem witness_EveryStepKeepsInv :
    StateInv (seekAt 3) ∧ StateInv (openAt 187) ∧ StateInv heldPacket ∧ StateInv heldShort ∧ StateInv heldReserved ∧
    StateInv heldReadIo ∧ StateInv finished ∧ StateInv dead ∧
    nextWith (step (edge (openAt 187) (Pins.offer (.data 1#8)))) (fun t => t.st == .decodeFailed) = true := by decide

theorem witness_EveryInstructionKeepsTheWindowCanonical :
    Memory.wf (openAt 1).w = true ∧ Memory.inWindow (openAt 1).w = true ∧
    nextWith (exec (.fill 1#8) (openAt 1)) (fun t => t.w == [(0, 0x47#8), (1, 1#8)]) = true := by decide

theorem witness_EveryStepKeepsPacketsWellFormed :
    (heldPacket.emitted ++ heldPacket.res.toList).all Result.packetOk = true ∧
    nextWith (step (edge heldPacket Pins.take)) (fun t => t.emitted == [.packet okPacket 0]) = true := by decide

theorem witness_EveryStepKeepsTheRunInOrder :
    StateInv (edge heldPacket Pins.take) ∧ spaced (edge heldPacket Pins.take).emitted = true ∧
    (edge heldPacket Pins.take).emitted = [] ∧ (edge heldPacket Pins.take).st ≠ .fatal ∧
    nextWith (step (edge heldPacket Pins.take)) (fun t => frontier t == 188) = true := by decide

theorem witness_ComposedBlockNeverRaisesBadSync : StateInv heldReserved ∧ heldError heldReserved = some .reservedAfc := by
  decide

/-- Vector I2 as a run. -/
theorem witness_EventsRealiseTheFunction :
    nextWith (drive [⟨true, true⟩, ⟨false, false⟩, ⟨false, true⟩] [.ioerr 9#8] (State.resetWith Cfg.recommended))
      (fun t => ended t && t.emitted == [.error .syncIo 0#8 9#8 0]) = true ∧
    (⟨[], .ioerr 9#8⟩ : Source).beats = [.ioerr 9#8] ∧ (⟨[], .ioerr 9#8⟩ : Source).bytes.length < 2 ^ 64 := by decide

theorem witness_EveryFiniteStreamReachesAnEnd :
    (⟨[0#8], .eos⟩ : Source).bytes.length < 2 ^ 64 ∧
    2 * ((⟨[0#8], .eos⟩ : Source).bytes.length + 1) ≤ (List.replicate 4 (⟨true, true⟩ : Turn)).count ⟨true, true⟩ := by
  decide

/-- Two states with different windows, offsets, last errors and records. -/
theorem witness_NoHistoryInfluencesLaterResults :
    (seekAt 188).st = .seeking ∧ { heldPacket with st := .seeking, idx := 0#8, res := none }.st = .seeking ∧
    (seekAt 188).pos = { heldPacket with st := .seeking, idx := 0#8, res := none }.pos ∧
    (seekAt 188).cfg = heldPacket.cfg ∧ Memory.wf (seekAt 188).w = true ∧ Memory.wf heldPacket.w = true ∧
    nextWith (drive [⟨true, true⟩, ⟨true, true⟩] [.data 0x47#8, .eos] (seekAt 188)) (fun t => t.st == .decodeFailed)
      = true := by decide

theorem witness_DecodeOfEncodeIsTheInstruction :
    (Instr.tsAfPayload 0x47#8 hdrA 182#8 0xFF#8).wf = true ∧
    (Instr.tsAfPayload 0x47#8 hdrA 182#8 0xFF#8).inContext .decoding Cfg.recommended = true ∧
    (encode (.tsAfPayload 0x47#8 hdrA 182#8 0xFF#8)).isSome = true := by decide

theorem witness_EncodeOfDecodeIsTheWord :
    decodeWord .decoding Cfg.recommended (.packet 0x47002030B6FF#48) = .ok (.tsAfPayload 0x47#8 hdrA 182#8 0xFF#8) := by
  rfl

end Sys2Proof.Tests
end

section
/-! PROOF. The state after `RESET` as its pins show it, and the reset value of every piece of state (`10_state.md` R39). -/

namespace Sys2Proof.Machine

/-- `RESET` completes from every state, whatever its side values. -/
theorem exec_reset (o n : Bool) (c : Cfg) (s : State) : exec (.reset o n c) s = .next (resetTo c s) :=
  rfl

/-- While no result is offered every pin of the output port is 0 (R43, R234). -/
theorem outPins_of_outValid_false {s : State} (h : outValid s = false) : outPins s = OutPins.zero := by
  simp [outPins, h]

@[simp] theorem inReady_resetTo (c : Cfg) (s : State) : inReady (resetTo c s) = true :=
  (inReady_iff _).2 (.inl (resetTo_st c s))

@[simp] theorem outValid_resetTo (c : Cfg) (s : State) : outValid (resetTo c s) = false := by
  simp [outValid, St.holding]

@[simp] theorem outPins_resetTo (c : Cfg) (s : State) : outPins (resetTo c s) = OutPins.zero :=
  outPins_of_outValid_false (outValid_resetTo c s)

/-- SEEKING, no error and `IDX` 0 have the code 0, so every bit of `STATUS` is 0 (R33). -/
@[simp] theorem statusWord_resetTo (c : Cfg) (s : State) : statusWord (resetTo c s) = 0#14 := by
  simp [statusWord, stCode, optErrCode, place]

@[simp] theorem stPos_resetTo (c : Cfg) (s : State) : stPos (resetTo c s) = 0#64 := by
  simp [stPos]

@[simp] theorem stPktOff_resetTo (c : Cfg) (s : State) : stPktOff (resetTo c s) = 0#64 := by
  simp [stPktOff]

/-- Settles O1: the next state is `resetTo c s`, whose fields and pins are read off by the lemmas about it. -/
theorem resetGivesEveryStateItsResetValue : Obligations.ResetGivesEveryStateItsResetValue := by
  intro o n c s
  refine ⟨resetTo c s, exec_reset o n c s, ?_⟩
  have hw (a : Nat) : Memory.read (resetTo c s).w a = 0#8 := by rw [resetTo_w, Memory.read_nil]
  exact ⟨resetTo_st c s, resetTo_idx c s, resetTo_pos c s, resetTo_pktOff c s, hw, resetTo_res c s, resetTo_cfg c s,
    resetTo_lastErr c s, inReady_resetTo c s, outValid_resetTo c s, outPins_resetTo c s, statusWord_resetTo c s,
    stPos_resetTo c s, stPktOff_resetTo c s⟩

end Sys2Proof.Machine
end

section
/-! PROOFS. The family of `20_memory.md`: after a terminal beat no beat is accepted until `RESET` (R65). -/

namespace Sys2Proof.Machine

/-- A step with an edge left has one of that edge's effects on the state with the edge taken off. -/
theorem edgeEffect_of_step {s t : State} {p : Pins} {ps : List Pins} (hin : s.inputs = p :: ps)
    (h : step s = .next t) : EdgeEffect { s with inputs := ps } p t := by
  obtain ⟨hnil, -⟩ | ⟨q, qs, hcons, heff⟩ := step_cases h
  · rw [hin] at hnil; cases hnil
  · rw [hin] at hcons; cases hcons
    exact heff

/-- No edge both takes a result and accepts a beat (R160). -/
theorem outFire_eq_false_of_inFire {s : State} {p : Pins} (h : inFire s p = true) : outFire s p = false := by
  simp only [inFire, Bool.and_eq_true] at h
  obtain ⟨-, hov, -⟩ | ⟨hir, -⟩ | ⟨hir, -⟩ := kind_cases s
  · simp [outFire, hov]
  · simp [hir] at h
  · simp [hir] at h

theorem closed_iff (s : State) : closed s = true ↔
    s.st = .terminated ∨ s.st = .fatal ∨ s.st = .seekFailed ∨
      (s.st = .decodeFailed ∧ heldError s = some .shortBuffer) := by
  simp [closed, ended_iff, or_assoc]

/-- An I/O error or `ShortBuffer`, once taken, is held in a closed state. -/
theorem closed_raise {e : ErrCode} (he : e = .syncIo ∨ e = .readIo ∨ e = .shortBuffer) (info cause : Byte) (off : Nat)
    (s : State) : closed (raise e info cause off s) = true := by
  rw [closed_iff]
  rcases he with rfl | rfl | rfl <;> simp [errorState, heldError]

theorem inReady_of_closed {s : State} (h : closed s = true) : inReady s = false := by
  rcases (closed_iff s).1 h with hst | hst | hst | ⟨hst, -⟩ <;> simp [inReady, hst]

theorem inFire_of_closed {s : State} (h : closed s = true) (p : Pins) : inFire s p = false := by
  simp [inFire, inReady_of_closed h]

/-- The errors that a closed state holds end the run whatever `cfg.resync` is (R168). -/
theorem afterOut_of_closed {s : State} (h : closed s = true) (hov : outValid s = true) : afterOut s = .fatal := by
  rcases (closed_iff s).1 h with hst | hst | hst | ⟨hst, herr⟩
  · simp [outValid, St.holding, hst] at hov
  · simp [outValid, St.holding, hst] at hov
  · simp [afterOut, hst]
  · simp [afterOut, hst, herr]

/-- An accepted terminal beat ends the run or raises an I/O error or `ShortBuffer` (R103, R104, R166, R167). -/
theorem EdgeEffect.closed_of_terminal {s t : State} {p : Pins} (h : EdgeEffect s p t) (hrst : p.rst = false)
    (hfire : inFire s p = true) (hterm : p.inErr = true ∨ p.inEos = true) : closed t = true := by
  have not_data (herr : p.inErr = false) (heos : p.inEos = false) : False := by simp [herr, heos] at hterm
  cases h with
  | reset hr => simp [hr] at hrst
  | out _ hout => simp [outFire_eq_false_of_inFire hfire] at hout
  | scanHit _ _ _ herr heos => exact (not_data herr heos).elim
  | scanSkip _ _ _ herr heos => exact (not_data herr heos).elim
  | scanEos => exact (closed_iff _).2 (.inl rfl)
  | scanIoerr => exact closed_raise (.inl rfl) ..
  | fill _ _ _ herr heos => exact (not_data herr heos).elim
  | fillLast _ _ _ herr heos => exact (not_data herr heos).elim
  | fillEos => exact closed_raise (.inr (.inr rfl)) ..
  | fillIoerr => exact closed_raise (.inr (.inl rfl)) ..
  | idle _ _ hin => simp [hfire] at hin

/-- In a closed state no beat is accepted, so without a reset only an `OUT`, which leads to FATAL, changes it. -/
theorem EdgeEffect.closed_of_closed {s t : State} {p : Pins} (h : EdgeEffect s p t) (hrst : p.rst = false)
    (hc : closed s = true) : closed t = true := by
  have no_beat (hfire : inFire s p = true) : False := by simp [inFire_of_closed hc] at hfire
  cases h with
  | reset hr => simp [hr] at hrst
  | out _ hout =>
    simp only [outFire, Bool.and_eq_true] at hout
    exact (closed_iff _).2 (.inr (.inl (afterOut_of_closed hc hout.1)))
  | idle => exact hc
  | scanHit _ hfire | scanSkip _ hfire | scanEos _ hfire | scanIoerr _ hfire | fill _ hfire | fillLast _ hfire
  | fillEos _ hfire | fillIoerr _ hfire => exact (no_beat hfire).elim

/-- Settles O43, by cases on the effect of the edge: an accepted terminal beat enters `closed`, every edge without `rst`
keeps it. Taking the edge off `inputs` changes neither `inFire` nor `closed`. -/
theorem terminalBeatIsTheLastBeat : Obligations.TerminalBeatIsTheLastBeat := by
  refine ⟨?_, fun _ => inReady_of_closed, ?_⟩
  · intro s t p ps hin hrst hfire hterm h
    exact (edgeEffect_of_step hin h).closed_of_terminal hrst hfire hterm
  · intro s t p ps hin hrst hc h
    exact (edgeEffect_of_step hin h).closed_of_closed hrst hc

end Sys2Proof.Machine
end

section
/-! PROOFS. The family of `40_synchronizer.md`: the function `find_sync` (R100) and the beats of SEEKING (R101 to R104). -/

namespace Sys2Proof.Machine

/-! ## The function `find_sync` -/

/-- `firstSync` is the library's search for a first index, counted from `p`. -/
theorem firstSync_eq_findIdx? (l : List Byte) (p : Nat) :
    firstSync l p = (l.findIdx? (· == Config.syncByte)).map (p + ·) := by
  induction l generalizing p with
  | nil => rfl
  | cons b l ih =>
    by_cases hb : b = Config.syncByte
    · simp [firstSync, List.findIdx?_cons, hb]
    · simp [firstSync, List.findIdx?_cons, hb, ih, Function.comp_def, Nat.add_comm, Nat.add_left_comm]

theorem firstSync_eq_some {l : List Byte} {p q : Nat} : firstSync l p = some q ↔
    ∃ k, q = p + k ∧ l[k]? = some Config.syncByte ∧ ∀ j < k, l[j]? ≠ some Config.syncByte := by
  simp only [firstSync_eq_findIdx?, Option.map_eq_some_iff, List.findIdx?_eq_some_iff_getElem, beq_iff_eq, ne_eq,
    List.getElem?_eq_some_iff]
  constructor
  · rintro ⟨k, ⟨hk, hat, hbelow⟩, rfl⟩
    exact ⟨k, rfl, ⟨hk, hat⟩, fun j hj ⟨_, hsync⟩ => hbelow j hj hsync⟩
  · rintro ⟨k, rfl, ⟨hk, hat⟩, hbelow⟩
    exact ⟨k, ⟨hk, hat, fun j hj hsync => hbelow j hj ⟨_, hsync⟩⟩, rfl⟩

theorem firstSync_eq_none {l : List Byte} {p : Nat} :
    firstSync l p = none ↔ ∀ k : Nat, l[k]? ≠ some Config.syncByte := by
  have hmem : firstSync l p = none ↔ Config.syncByte ∉ l := by
    simp [firstSync_eq_findIdx?, List.forall_mem_ne']
  rw [hmem, List.mem_iff_getElem?, not_exists]

/-- The search from offset `p` finds the first sync byte at `p` or above. -/
theorem firstSync_drop_eq_some {l : List Byte} {p q : Nat} : firstSync (l.drop p) p = some q ↔
    p ≤ q ∧ l[q]? = some Config.syncByte ∧ ∀ r, p ≤ r → r < q → l[r]? ≠ some Config.syncByte := by
  simp only [firstSync_eq_some, List.getElem?_drop]
  constructor
  · rintro ⟨k, rfl, hat, hbelow⟩
    refine ⟨Nat.le_add_right p k, hat, fun r hpr hr => ?_⟩
    obtain ⟨j, rfl⟩ := Nat.exists_eq_add_of_le hpr
    exact hbelow j (by omega)
  · rintro ⟨hpq, hat, hbelow⟩
    obtain ⟨k, rfl⟩ := Nat.exists_eq_add_of_le hpq
    exact ⟨k, rfl, hat, fun j hj => hbelow (p + j) (by omega) (by omega)⟩

/-- The search from offset `p` fails exactly when no sync byte stands at `p` or above. -/
theorem firstSync_drop_eq_none {l : List Byte} {p : Nat} :
    firstSync (l.drop p) p = none ↔ ∀ r, p ≤ r → l[r]? ≠ some Config.syncByte := by
  simp only [firstSync_eq_none, List.getElem?_drop]
  constructor
  · intro hnone r hpr
    obtain ⟨j, rfl⟩ := Nat.exists_eq_add_of_le hpr
    exact hnone j
  · exact fun hnone k => hnone (p + k) (Nat.le_add_right p k)

/-- What `find_sync` can answer: the offset searched for, or without one the terminator's error (R100). -/
theorem findSync_eq_iff {S : Source} {p : Nat} {r : SyncResult} : findSync S p = r ↔
    (∃ q, firstSync (S.bytes.drop p) p = some q ∧ r = .found q) ∨
    (firstSync (S.bytes.drop p) p = none ∧ S.term = .eos ∧ r = .endOfStream) ∨
    (firstSync (S.bytes.drop p) p = none ∧ ∃ c, S.term = .ioerr c ∧ r = .io c) := by
  unfold findSync
  cases firstSync (S.bytes.drop p) p with
  | some q => simp [eq_comm]
  | none => cases S.term <;> simp [eq_comm]

theorem findSync_eq_found {S : Source} {p q : Nat} :
    findSync S p = .found q ↔ firstSync (S.bytes.drop p) p = some q := by
  simp [findSync_eq_iff]

theorem findSync_eq_endOfStream {S : Source} {p : Nat} :
    findSync S p = .endOfStream ↔ firstSync (S.bytes.drop p) p = none ∧ S.term = .eos := by
  simp [findSync_eq_iff]

theorem findSync_eq_io {S : Source} {p : Nat} {c : Byte} :
    findSync S p = .io c ↔ firstSync (S.bytes.drop p) p = none ∧ S.term = .ioerr c := by
  simp [findSync_eq_iff]

/-- Settles O33: the search of `firstSync` from `p` decides between `found` and the terminator's answer. -/
theorem findSyncFindsTheLeastOffset : Obligations.FindSyncFindsTheLeastOffset := by
  intro S p
  refine ⟨fun q => findSync_eq_found.trans firstSync_drop_eq_some, ?_, fun c => ?_⟩
  · rw [findSync_eq_endOfStream, firstSync_drop_eq_none]
  · rw [findSync_eq_io, firstSync_drop_eq_none]

/-! ## The beats of SEEKING -/

/-- Settles O7: the next state is the opened window with the sync byte accepted, whose fields and window bytes are read
off by the lemmas about them. -/
theorem scanHitOpensTheWindow : Obligations.ScanHitOpensTheWindow := by
  intro s hst hroom hwf
  refine ⟨acceptByte Config.syncByte (openWindow s), execScanHit_next.2 ⟨hst, hroom, rfl⟩,
    Memory.read_write_same hwf, fun a ha => Memory.read_write_other ha, ?_⟩
  simp

/-- Settles O8: the next state is `acceptByte d s`, which differs from `s` in `POS` and the record of the stream only. -/
theorem scanSkipOnlyMovesPos : Obligations.ScanSkipOnlyMovesPos := by
  intro s d hst hroom _
  exact ⟨acceptByte d s, execScanSkip_next.2 ⟨hst, hroom, rfl⟩, rfl⟩

/-- Settles O9: in SEEKING the beat is enabled, and its meaning writes `ST` only. -/
theorem scanEosTerminates : Obligations.ScanEosTerminates := by
  intro s d hst
  exact (execScanEos_next (d := d)).2 ⟨hst, rfl⟩

/-- Settles O10: the beat raises `SyncIo` at offset `POS`, and an I/O error is held in SEEK_FAILED (R200). -/
theorem scanIoerrHoldsSyncIo : Obligations.ScanIoerrHoldsSyncIo := by
  intro s e d c hst
  exact (execScanIoerr_next (e := e) (d := d)).2 ⟨hst, rfl⟩

end Sys2Proof.Machine
end

section
/-! PROOFS. The family of `41_header_decoder.md`: which form the packed bytes select (`30_encoding.md` R80), the forms
without an adaptation field (R123, R126, R127), and what the function `decode` looks at (R125, R134). -/

namespace Sys2Proof

/-! ## The form that packed bytes select -/

/-- The header fields read from packed bytes are the fields they were packed from (R84). -/
@[simp] theorem prefixHdr_packPrefix (b0 : Byte) (h : HdrFields) (afc : BitVec 2) (l f : Byte) :
    prefixHdr (packPrefix b0 h afc l f) = h := by
  obtain ⟨tei, pusi, tp, pid, tsc, cc⟩ := h
  simp only [prefixHdr, packPrefix, HdrFields.mk.injEq]
  refine ⟨?tei, ?pusi, ?tp, ?pid, ?tsc, ?cc⟩
  case tei | pusi | tp =>
    rw [getLsbD_prefixOf, Machine.getLsbD_packHeader_1 _ _ _ (by decide)]
    simp
  case pid | tsc | cc =>
    apply BitVec.eq_of_getLsbD_eq
    intro i hi
    simp only [packHeader, BitVec.getLsbD_extractLsb', getLsbD_prefixOf, getLsbD_place, BitVec.getLsbD_or]
    interval_cases i <;> simp

/-- The condition of the first row of R80 is that the sync check fails. -/
theorem badSync_eq_not_passesSyncCheck (cfg : Cfg) (b0 : Byte) :
    (cfg.checkSync && b0 != Config.syncByte) = !passesSyncCheck cfg b0 := by
  simp [passesSyncCheck, bne]

theorem passesSyncCheck_eq_false_iff (cfg : Cfg) (b0 : Byte) :
    passesSyncCheck cfg b0 = false ↔ cfg.checkSync = true ∧ b0 ≠ Config.syncByte := by
  simp [passesSyncCheck]

/-- The first row of R80 is tried before everything read from bytes 1 to 5 (R123). -/
theorem decodePacket_of_badSync {cfg : Cfg} {b0 : Byte} (hsync : passesSyncCheck cfg b0 = false) (h : HdrFields)
    (afc : BitVec 2) (l f : Byte) : decodePacket cfg (packPrefix b0 h afc l f) = .tsBadSync b0 h afc l f := by
  simp [decodePacket, badSync_eq_not_passesSyncCheck, hsync]

/-- Past the sync check one of the rows below `TS_BAD_SYNC` is selected, whichever the control bits and the length. -/
theorem decodePacket_ne_tsBadSync {cfg : Cfg} {p : BitVec 48} (hsync : passesSyncCheck cfg (prefixSync p) = true)
    (b0 : Byte) (h : HdrFields) (afc : BitVec 2) (l f : Byte) : decodePacket cfg p ≠ .tsBadSync b0 h afc l f := by
  rw [decodePacket, badSync_eq_not_passesSyncCheck, hsync, Bool.not_true, if_neg Bool.false_ne_true]
  split_ifs <;> nofun

theorem decodePacket_eq_tsBadSync_iff (cfg : Cfg) (b0 : Byte) (h : HdrFields) (afc : BitVec 2) (l f : Byte) :
    decodePacket cfg (packPrefix b0 h afc l f) = .tsBadSync b0 h afc l f ↔ passesSyncCheck cfg b0 = false := by
  refine ⟨fun heq => ?_, fun hsync => decodePacket_of_badSync hsync h afc l f⟩
  by_contra hsync
  exact decodePacket_ne_tsBadSync (by simpa using hsync) b0 h afc l f heq

theorem decodePacket_of_reserved {cfg : Cfg} {b0 : Byte} (hsync : passesSyncCheck cfg b0 = true) (h : HdrFields)
    (l f : Byte) : decodePacket cfg (packPrefix b0 h 0b00#2 l f) = .tsReserved b0 h l f := by
  simp [decodePacket, badSync_eq_not_passesSyncCheck, hsync]

theorem decodePacket_of_payload {cfg : Cfg} {b0 : Byte} (hsync : passesSyncCheck cfg b0 = true) (h : HdrFields)
    (l f : Byte) : decodePacket cfg (packPrefix b0 h 0b01#2 l f) = .tsPayload b0 h l f := by
  simp [decodePacket, badSync_eq_not_passesSyncCheck, hsync]

end Sys2Proof

namespace Sys2Proof.Machine

/-! ## The forms without an adaptation field -/

/-- The header made of a form's operands is the header unpacked from its bytes 1 to 3. -/
theorem headerOf_eq_unpackHeader (h : HdrFields) (afc : BitVec 2) :
    headerOf h afc = unpackHeader (packHeader h afc).1 (packHeader h afc).2.1 (packHeader h afc).2.2 := by
  have hpack := headerOf_prefixOf 0#8 (packHeader h afc).1 (packHeader h afc).2.1 (packHeader h afc).2.2 0#8 0#8
  rwa [← packPrefix, prefixHdr_packPrefix, prefixAfc_packPrefix] at hpack

@[simp] theorem hasAf_headerOf (h : HdrFields) (afc : BitVec 2) : (headerOf h afc).hasAf = afc.getLsbD 1 := rfl

@[simp] theorem hasPayload_headerOf (h : HdrFields) (afc : BitVec 2) :
    (headerOf h afc).hasPayload = afc.getLsbD 0 := rfl

theorem exec_tsBadSync {s : State} (hfull : windowFull s = true) (b0 : Byte) (h : HdrFields) (afc : BitVec 2)
    (l f : Byte) : exec (.tsBadSync b0 h afc l f) s = .next (raise .badSync b0 0#8 s.pktOff s) := by
  simp [exec, execTsBadSync, hfull]

theorem exec_tsReserved_of_reject {s : State} (hfull : windowFull s = true) (hrej : s.cfg.afc00Reject = true)
    (b0 : Byte) (h : HdrFields) (l f : Byte) :
    exec (.tsReserved b0 h l f) s = .next (raise .reservedAfc (packHeader h 0b00#2).2.2 0#8 s.pktOff s) := by
  simp [exec, execTsReserved, hfull, hrej, headerByte3]

theorem exec_tsReserved_of_accept {s : State} (hfull : windowFull s = true) (hacc : s.cfg.afc00Reject = false)
    (b0 : Byte) (h : HdrFields) (l f : Byte) :
    exec (.tsReserved b0 h l f) s = .next (loadPacket (plainPacket h 0b00#2) s) := by
  simp [exec, execTsReserved, hfull, hacc]

theorem exec_tsPayload {s : State} (hfull : windowFull s = true) (b0 : Byte) (h : HdrFields) (l f : Byte) :
    exec (.tsPayload b0 h l f) s = .next (loadPacket (plainPacket h 0b01#2) s) := by
  simp [exec, execTsPayload, hfull]

/-- Settles O17: the form is selected exactly when the sync check fails, and raising `BadSync` writes `RES`, `LAST_ERR`
and `ST` only. -/
theorem badSyncFormRaises : Obligations.BadSyncFormRaises := by
  refine ⟨fun cfg b0 h afc l f => ?_, fun s b0 h afc l f hst hidx => ?_⟩
  · exact (decodePacket_eq_tsBadSync_iff cfg b0 h afc l f).trans (passesSyncCheck_eq_false_iff cfg b0)
  · exact exec_tsBadSync ((windowFull_iff s).2 ⟨hst, hidx⟩) b0 h afc l f

/-- Settles O18: one clause for the selection and one for each value of `cfg.afc00_reject`. -/
theorem reservedFormFollowsThePolicy : Obligations.ReservedFormFollowsThePolicy := by
  intro s b0 h l f hst hidx
  have hfull : windowFull s = true := (windowFull_iff s).2 ⟨hst, hidx⟩
  refine ⟨fun hsync => decodePacket_of_reserved hsync h l f, fun hrej => ?_, fun hacc => ?_⟩
  · exact exec_tsReserved_of_reject hfull hrej b0 h l f
  · exact ⟨headerOf h 0b00#2, exec_tsReserved_of_accept hfull hacc b0 h l f, headerOf_eq_unpackHeader h _, by simp,
      by simp⟩

/-- Settles O19: past the sync check the control bits select the form, whose packet has the header of its operands. -/
theorem payloadFormLoadsAPacket : Obligations.PayloadFormLoadsAPacket := by
  intro s b0 h l f hst hidx
  have hfull : windowFull s = true := (windowFull_iff s).2 ⟨hst, hidx⟩
  refine ⟨fun hsync => decodePacket_of_payload hsync h l f, headerOf h 0b01#2, ?_⟩
  exact ⟨exec_tsPayload hfull b0 h l f, headerOf_eq_unpackHeader h _, by simp, by simp⟩

/-! ## What the function `decode` looks at -/

/-- `decode_af` reads byte 5 only when the length is not 0 (R134). -/
theorem decodeAf_congr {afc : BitVec 2} {b4 b5 b5' : Byte} (hflags : b4 ≠ 0#8 → b5 = b5') :
    decodeAf afc b4 b5 = decodeAf afc b4 b5' := by
  by_cases hlen : b4 = 0#8
  · simp [decodeAf, hlen]
  · rw [hflags hlen]

/-- Settles O29, by whether the header announces an adaptation field: without one `decode` reads bytes 0 to 3 only; with
one it passes bytes 4 and 5 to `decode_af`, which reads byte 5 only when the length is not 0. -/
theorem decodeLooksAtNothingElse : Obligations.DecodeLooksAtNothingElse := by
  intro cfg buf buf' hn hbytes hlen hflags
  have h0 := hbytes 0 (by decide)
  have h1 := hbytes 1 (by decide)
  have h2 := hbytes 2 (by decide)
  have h3 := hbytes 3 (by decide)
  simp only [decode, ← hn, ← h0, ← h1, ← h2, ← h3]
  cases haf : (unpackHeader (byteAt buf 1) (byteAt buf 2) (byteAt buf 3)).hasAf with
  | false => rfl
  | true => rw [← hlen haf, decodeAf_congr (hflags haf)]

end Sys2Proof.Machine
end

section
/-! PROOFS. The family of `42_adaptation_field.md`: what an answer of `decode` with a packet holds (R140 to R145), which
form packed bytes with an adaptation field select, and what the five such forms do (R144, R146 to R148). -/

namespace Sys2Proof

/-! ## The form that packed bytes with an adaptation field select -/

/-- Past the sync check `afc = 0b10` leaves the choice to the length: 183 or any other (R80). -/
theorem decodePacket_of_afOnly {cfg : Cfg} {b0 : Byte} (hsync : passesSyncCheck cfg b0 = true) (h : HdrFields)
    (l f : Byte) : decodePacket cfg (packPrefix b0 h 0b10#2 l f) =
      if l = Config.afLenNoPayload then .tsAfOnly b0 h f else .tsAfOnlyBadlen b0 h l f := by
  simp [decodePacket, badSync_eq_not_passesSyncCheck, hsync]

/-- Past the sync check `afc = 0b11` leaves the choice to the length: 0, up to 182, or more (R80). -/
theorem decodePacket_of_afPayload {cfg : Cfg} {b0 : Byte} (hsync : passesSyncCheck cfg b0 = true) (h : HdrFields)
    (l f : Byte) : decodePacket cfg (packPrefix b0 h 0b11#2 l f) =
      if l = 0#8 then .tsAfPayloadEmpty b0 h f
      else if l ≤ Config.afLenMaxWithPayload then .tsAfPayload b0 h l f else .tsAfPayloadBadlen b0 h l f := by
  simp [decodePacket, badSync_eq_not_passesSyncCheck, hsync]

end Sys2Proof

namespace Sys2Proof.Machine

/-! ## The function `decode` where it answers a packet -/

theorem hasAf_iff (hdr : Header) : hdr.hasAf = true ↔ 2 ≤ hdr.afc.toNat := by
  have hbit : ∀ afc : BitVec 2, afc.getLsbD 1 = true ↔ 2 ≤ afc.toNat := by decide
  exact hbit hdr.afc

/-- `decode_af` checks the length first; a legal one is kept, with flags when it is not 0 (R143, R145). -/
theorem decodeAf_eq_ok_iff {afc : BitVec 2} {b4 b5 : Byte} {af : AdaptationField} : decodeAf afc b4 b5 = .ok af ↔
    legalLength afc b4 = true ∧ af.length = b4 ∧ af.header = if b4 = 0#8 then none else some (unpackAfFlags b5) := by
  obtain ⟨length, header⟩ := af
  have hflags : (if 0#8 < b4 then some (unpackAfFlags b5) else none)
      = if b4 = 0#8 then none else some (unpackAfFlags b5) := by
    by_cases hzero : b4 = 0#8
    · simp [hzero]
    · simp [hzero, byte_pos hzero]
  rw [decodeAf, hflags]
  by_cases hlegal : legalLength afc b4 = true
  · simp [hlegal, eq_comm (a := length), eq_comm (a := header)]
  · simp [hlegal]

/-- What `decode` answers when it answers a packet: the unpacked header, and the field of `decode_af` exactly when the
header announces one (R120, R142). -/
theorem decode_ok_fields {cfg : Cfg} {buf : List Byte} {pkt : TransportPacket} (h : decode cfg buf = .ok pkt) :
    pkt.header = unpackHeader (byteAt buf 1) (byteAt buf 2) (byteAt buf 3) ∧
      ((pkt.header.hasAf = false ∧ pkt.adaptationField = none) ∨
        (pkt.header.hasAf = true ∧ ∃ af, pkt.adaptationField = some af ∧
          decodeAf pkt.header.afc (byteAt buf 4) (byteAt buf 5) = .ok af)) := by
  simp only [decode] at h
  split at h
  · cases h
  split at h
  · cases h
  split at h
  · cases h
  split at h
  case isTrue haf =>
    split at h
    case h_1 af hok => cases h; exact ⟨rfl, .inr ⟨haf, af, rfl, hok⟩⟩
    case h_2 => cases h
  case isFalse haf => cases h; exact ⟨rfl, .inl ⟨by simpa using haf, rfl⟩⟩

/-- Settles O28, by whether the header announces an adaptation field: with one, `decode_af` says what it holds. -/
theorem decodedPacketHasTheWindowsFields : Obligations.DecodedPacketHasTheWindowsFields := by
  intro cfg buf pkt hok
  obtain ⟨hhdr, ⟨haf, hnone⟩ | ⟨haf, af, hsome, hdec⟩⟩ := decode_ok_fields hok
  · refine ⟨hhdr, fun _ => hnone, fun htwo => ?_⟩
    rw [(hasAf_iff _).2 htwo] at haf
    cases haf
  · obtain ⟨-, hlen, hflags⟩ := decodeAf_eq_ok_iff.1 hdec
    refine ⟨hhdr, fun hlt => absurd ((hasAf_iff _).1 haf) (Nat.not_le.2 hlt), fun _ => ⟨af, hsome, hlen, ?_, ?_⟩⟩
    · intro hzero; rw [hflags, ← hlen, if_pos hzero]
    · intro hzero; rw [hflags, ← hlen, if_neg hzero]

/-! ## The forms with an adaptation field -/

theorem exec_tsAfOnly {s : State} (hfull : windowFull s = true) (b0 : Byte) (h : HdrFields) (f : Byte) :
    exec (.tsAfOnly b0 h f) s =
      .next (loadPacket (fieldPacket h 0b10#2 Config.afLenNoPayload (some (unpackAfFlags f))) s) := by
  simp [exec, execTsAfOnly, hfull]

theorem exec_tsAfOnlyBadlen {s : State} (hfull : windowFull s = true) (b0 : Byte) (h : HdrFields) (l f : Byte) :
    exec (.tsAfOnlyBadlen b0 h l f) s = .next (raise .invalidAfLength l 0#8 s.pktOff s) := by
  simp [exec, execTsAfOnlyBadlen, hfull]

theorem exec_tsAfPayloadEmpty {s : State} (hfull : windowFull s = true) (b0 : Byte) (h : HdrFields) (f : Byte) :
    exec (.tsAfPayloadEmpty b0 h f) s = .next (loadPacket (fieldPacket h 0b11#2 0#8 none) s) := by
  simp [exec, execTsAfPayloadEmpty, hfull]

theorem exec_tsAfPayload {s : State} (hfull : windowFull s = true) (b0 : Byte) (h : HdrFields) (l f : Byte) :
    exec (.tsAfPayload b0 h l f) s = .next (loadPacket (fieldPacket h 0b11#2 l (some (unpackAfFlags f))) s) := by
  simp [exec, execTsAfPayload, hfull]

theorem exec_tsAfPayloadBadlen {s : State} (hfull : windowFull s = true) (b0 : Byte) (h : HdrFields) (l f : Byte) :
    exec (.tsAfPayloadBadlen b0 h l f) s = .next (raise .invalidAfLength l 0#8 s.pktOff s) := by
  simp [exec, execTsAfPayloadBadlen, hfull]

/-- Settles O20: length 183 selects the form, whose packet has the header of its operands. -/
theorem afOnlyFormLoadsAPacket : Obligations.AfOnlyFormLoadsAPacket := by
  intro s b0 h f hst hidx
  have hfull : windowFull s = true := (windowFull_iff s).2 ⟨hst, hidx⟩
  refine ⟨fun hsync => ?_, headerOf h 0b10#2, exec_tsAfOnly hfull b0 h f, headerOf_eq_unpackHeader h _, by simp, by simp⟩
  rw [decodePacket_of_afOnly hsync, if_pos rfl]

/-- Settles O21: length 0 selects the form before byte 5 is looked at, and its packet has no flags. -/
theorem afPayloadEmptyFormLoadsAPacket : Obligations.AfPayloadEmptyFormLoadsAPacket := by
  intro s b0 h f hst hidx
  have hfull : windowFull s = true := (windowFull_iff s).2 ⟨hst, hidx⟩
  refine ⟨fun hsync => ?_, headerOf h 0b11#2, exec_tsAfPayloadEmpty hfull b0 h f, headerOf_eq_unpackHeader h _, by simp,
    by simp⟩
  rw [decodePacket_of_afPayload hsync, if_pos rfl]

/-- Settles O22: a length of 1 to 182 passes both comparisons of the last row's selection. -/
theorem afPayloadFormLoadsAPacket : Obligations.AfPayloadFormLoadsAPacket := by
  intro s b0 h l f hst hidx hlow hhigh
  have hfull : windowFull s = true := (windowFull_iff s).2 ⟨hst, hidx⟩
  have hpos : l ≠ 0#8 := by rintro rfl; exact absurd hlow (by decide)
  have hmax : l ≤ Config.afLenMaxWithPayload := BitVec.le_def.2 hhigh
  refine ⟨fun hsync => ?_, headerOf h 0b11#2, exec_tsAfPayload hfull b0 h l f, headerOf_eq_unpackHeader h _, by simp,
    by simp⟩
  rw [decodePacket_of_afPayload hsync, if_neg hpos, if_pos hmax]

/-- Settles O23: each bad length fails the comparisons of the legal rows, and raising `InvalidAdaptationFieldLength`
writes `RES`, `LAST_ERR` and `ST` only. -/
theorem badLengthFormsRaise : Obligations.BadLengthFormsRaise := by
  intro s b0 h l f hst hidx
  have hfull : windowFull s = true := (windowFull_iff s).2 ⟨hst, hidx⟩
  constructor
  · intro hne
    have hbad : l ≠ Config.afLenNoPayload := by rintro rfl; exact hne rfl
    refine ⟨fun hsync => ?_, exec_tsAfOnlyBadlen hfull b0 h l f⟩
    rw [decodePacket_of_afOnly hsync, if_neg hbad]
  · intro hge
    have hpos : l ≠ 0#8 := by rintro rfl; exact absurd hge (by decide)
    have hbad : ¬ l ≤ Config.afLenMaxWithPayload := fun hle => absurd (hge.trans (BitVec.le_def.1 hle)) (by decide)
    refine ⟨fun hsync => ?_, exec_tsAfPayloadBadlen hfull b0 h l f⟩
    rw [decodePacket_of_afPayload hsync, if_neg hpos, if_neg hbad]

end Sys2Proof.Machine
end

section
/-! PROOFS. The family of `43_stream_iterator.md`: the events enabled (R160), the beats of DECODING (R164 to R167),
the completed window (R165), `OUT` (R168), and the transition table (R170). -/

namespace Sys2Proof.Machine

/-! ## The completed window -/

/-- What loading the answer of `decode` on a full window does: it loads the packet, or raises an error of the kind that
is held in DECODE_FAILED (R165). -/
theorem loadDecoded_cases {cfg : Cfg} {u : State} (hidx : u.idx = 188#8) :
    (∃ pkt, decode cfg (windowBytes u) = .ok pkt ∧
      loadDecoded (decode cfg (windowBytes u)) u = loadPacket pkt u) ∨
    (∃ e, decode cfg (windowBytes u) = .err e ∧ errorState e.code = .decodeFailed ∧
      loadDecoded (decode cfg (windowBytes u)) u = raise e.code (e.info 188#8) 0#8 u.pktOff u) := by
  cases hdec : decode cfg (windowBytes u) with
  | ok pkt => exact .inl ⟨pkt, rfl, rfl⟩
  | err e =>
    obtain ⟨-, hheld, -⟩ := decode_error_of_full hdec (by simp [hidx])
    exact .inr ⟨e, rfl, hheld, by rw [loadDecoded, hidx]⟩

/-- Where the answer of `decode` on a full window is held: a packet in YIELD, an error in DECODE_FAILED. -/
theorem loadDecoded_st_of_full {cfg : Cfg} {u : State} (hidx : u.idx = 188#8) :
    (loadDecoded (decode cfg (windowBytes u)) u).st =
      if (decode cfg (windowBytes u)).isOk = true then .yield else .decodeFailed := by
  obtain ⟨pkt, hdec, hload⟩ | ⟨e, hdec, hheld, hload⟩ := loadDecoded_cases (cfg := cfg) hidx
  · rw [hload, hdec]; rfl
  · rw [hload, hdec]; exact hheld

/-- Loading an answer leaves the bytes it was decoded from. -/
@[simp] theorem windowBytes_loadDecoded (r : DecodeResult) (u : State) :
    windowBytes (loadDecoded r u) = windowBytes u := by
  simp [windowBytes]

/-- The byte stored at offset 187 makes the window full. -/
theorem idx_fill_last {s : State} (hidx : s.idx = 187#8) (d : Byte) :
    (acceptByte d (storeByte d s)).idx = 188#8 := by
  simp [hidx]

/-- The byte at offset 187 completes the window, and the answer of `decode` on it is loaded in the same event. -/
theorem exec_fill_last {d : Byte} {s : State} (hst : s.st = .decoding) (hidx : s.idx = 187#8)
    (hroom : s.pos + 1 < Config.streamLimit) :
    exec (.fill d) s = .next (loadDecoded (decode s.cfg (windowBytes (acceptByte d (storeByte d s))))
      (acceptByte d (storeByte d s))) := by
  have hfull : windowFull (acceptByte d (storeByte d s)) = true :=
    (windowFull_iff _).2 ⟨hst, idx_fill_last hidx d⟩
  exact execFill_next.2 ⟨hst, hroom, .inr ⟨by simp [hidx], completeWindow_eq _ hfull⟩⟩

/-- Settles O12: the next state is the completed window with the answer of `decode` loaded, which writes `RES`, `ST` and
for an error `LAST_ERR` only. -/
theorem lastFillLoadsWhatDecodeAnswers : Obligations.LastFillLoadsWhatDecodeAnswers := by
  intro s d hst hidx hroom hwf
  have hoff : s.idx.toNat = 187 := by simp [hidx]
  refine ⟨_, exec_fill_last hst hidx hroom, ?_, fun a ha => ?_, ?_⟩
  · simpa [hoff] using Memory.read_write_same hwf
  · simpa [hoff] using Memory.read_write_other ha
  refine ⟨by simp [hidx], by simp, by simp, by simp, by simp, by simp, by simp, ?_⟩
  rw [windowBytes_loadDecoded]
  obtain ⟨pkt, hdec, hload⟩ | ⟨e, hdec, hheld, hload⟩ := loadDecoded_cases (cfg := s.cfg) (idx_fill_last hidx d)
  · exact .inl ⟨pkt, hdec, by simp [hload]⟩
  · exact .inr ⟨e, hdec, by simp [hload, hheld]⟩

/-! ## The beats of DECODING -/

theorem exec_fill_of_lt {d : Byte} {s : State} (hst : s.st = .decoding) (hidx : s.idx.toNat < 187)
    (hroom : s.pos + 1 < Config.streamLimit) : exec (.fill d) s = .next (acceptByte d (storeByte d s)) :=
  execFill_next.2 ⟨hst, hroom, .inl ⟨hidx, rfl⟩⟩

/-- Settles O11, by whether the byte completes the window. -/
theorem fillStoresTheByte : Obligations.FillStoresTheByte := by
  intro s d hst hle hroom hwf
  have hread : Memory.read (Memory.write s.w s.idx.toNat d) s.idx.toNat = d := Memory.read_write_same hwf
  have hother (a : Nat) (ha : a ≠ s.idx.toNat) :
      Memory.read (Memory.write s.w s.idx.toNat d) a = Memory.read s.w a := Memory.read_write_other ha
  have hnext : (s.idx + 1#8).toNat = s.idx.toNat + 1 := by bv_omega
  obtain hlt | heq := Nat.lt_or_eq_of_le hle
  · exact ⟨_, exec_fill_of_lt hst hlt hroom, hread, hother, rfl, hnext, rfl, rfl, rfl, rfl, rfl,
      fun _ => ⟨hst, rfl, rfl⟩, fun h => absurd h hlt.ne⟩
  · have hidx : s.idx = 187#8 := BitVec.eq_of_toNat_eq heq
    refine ⟨_, exec_fill_last hst hidx hroom, by simpa using hread, fun a ha => by simpa using hother a ha, by simp,
      by simpa using hnext, by simp, by simp, by simp, by simp, by simp, fun h => absurd heq h.ne, fun _ => ?_⟩
    rw [outValid_iff, windowBytes_loadDecoded, loadDecoded_st_of_full (idx_fill_last hidx d)]
    by_cases hok : (decode s.cfg (windowBytes (acceptByte d (storeByte d s)))).isOk = true <;> simp [hok]

/-- Settles O13: in DECODING the beat raises `ShortBuffer`, held in DECODE_FAILED (R200). -/
theorem fillEosHoldsShortBuffer : Obligations.FillEosHoldsShortBuffer := by
  intro s d hst
  exact (execFillEos_next (d := d)).2 ⟨hst, rfl⟩

/-- Settles O14: in DECODING the beat raises `ReadIo` at offset `POS`, held in SEEK_FAILED (R200). -/
theorem fillIoerrHoldsReadIo : Obligations.FillIoerrHoldsReadIo := by
  intro s e d c hst
  exact (execFillIoerr_next (e := e) (d := d)).2 ⟨hst, rfl⟩

/-! ## Enabling and `OUT` -/

theorem ended_iff_not_enabled (s : State) : ended s = true ↔ inReady s = false ∧ outValid s = false := by
  obtain ⟨hin, hout, hend⟩ | ⟨hin, hout, hend⟩ | ⟨hin, hout, hend⟩ := kind_cases s <;> simp [hin, hout, hend]

theorem fetch_of_rst {s : State} {p : Pins} (hrst : p.rst = true) : ∃ o n, fetch s p = .ok (.reset o n p.cfg) := by
  obtain ⟨-, hreset⟩ | ⟨hno, -⟩ | ⟨hno, -⟩ | ⟨hno, -⟩ | ⟨hno, -⟩ := fetch_cases s p
  · exact hreset
  all_goals simp [hrst] at hno

/-- Settles O5: the three kinds of state exclude one another, and a reset edge is fetched as `RESET` in each. -/
theorem atMostOneHandshakeIsEnabled : Obligations.AtMostOneHandshakeIsEnabled := by
  intro s
  refine ⟨inReady_iff s, outValid_iff s, ended_iff_not_enabled s, ?_, ?_, fun _ => fetch_of_rst⟩
  · rintro ⟨hin, hout⟩
    obtain ⟨-, hno, -⟩ | ⟨hno, -⟩ | ⟨hno, -⟩ := kind_cases s
    · simp [hout] at hno
    all_goals simp [hin] at hno
  · rintro p ⟨hin, hout⟩
    simp [outFire_eq_false_of_inFire hin] at hout

/-- Where `OUT` leads from a holding state (R168). -/
theorem afterOut_of_outValid {s : State} (h : outValid s = true) :
    afterOut s = if s.st = .yield ∨ (s.st = .decodeFailed ∧ heldError s ≠ some .shortBuffer ∧ s.cfg.resync = true)
      then .seeking else .fatal := by
  obtain hst | hst | hst := (outValid_iff s).1 h <;> simp [afterOut, hst]

/-- Settles O16: `takeResult` emits the held result, and `afterOut` says where it leads. -/
theorem outTakesTheHeldResult : Obligations.OutTakesTheHeldResult := by
  intro s r hst hres
  have hov : outValid s = true := (outValid_iff s).2 hst
  refine execOut_next.2 ⟨hov, ?_⟩
  rw [takeResult, hres, afterOut_of_outValid hov, Option.toList_some]

/-! ## The transition table -/

theorem inValid_of_inFire {s : State} {p : Pins} (h : inFire s p = true) : p.inValid = true := by
  simp only [inFire, Bool.and_eq_true] at h
  exact h.2

/-- Settles O41, by cases on the effect of the edge: each is one row of the table. On an edge without an event
the pins lack what the kind of state asks for: a beat, or the Consumer. -/
theorem transitionsAreThoseOfTheTable : Obligations.TransitionsAreThoseOfTheTable := by
  intro s t p ps hin h
  obtain ⟨u, heff, hu⟩ : ∃ u, EdgeEffect u p t ∧
      u.st = s.st ∧ u.idx = s.idx ∧ u.cfg = s.cfg ∧ heldError u = heldError s :=
    ⟨_, edgeEffect_of_step hin h, rfl, rfl, rfl, rfl⟩
  obtain ⟨ust, uidx, ucfg, uheld⟩ := hu
  rw [← ust, ← uidx, ← ucfg, ← uheld]
  cases heff with
  | reset hrst => simp [hrst]
  | out hrst hfire =>
    simp only [outFire, Bool.and_eq_true] at hfire
    obtain ⟨hov, hready⟩ := hfire
    rw [takeResult_st, afterOut_of_outValid hov]
    obtain hst | hst | hst := (outValid_iff u).1 hov <;> simp [hrst, hready, hst]
  | scanHit hrst hfire hst herr heos hd => simp [hrst, inValid_of_inFire hfire, hst, herr, heos, hd]
  | scanSkip hrst hfire hst herr heos hd =>
    have hskip : p.inData ≠ 0x47#8 := hd
    simp [hrst, inValid_of_inFire hfire, hst, herr, heos, hskip]
  | scanEos hrst hfire hst herr heos => simp [hrst, inValid_of_inFire hfire, hst, herr, heos]
  | scanIoerr hrst hfire hst herr => simp [hrst, inValid_of_inFire hfire, hst, herr, errorState]
  | fill hrst hfire hst herr heos _ hidx => simp [hrst, inValid_of_inFire hfire, hst, herr, heos, hidx]
  | fillLast hrst hfire hst herr heos _ hidx t ht =>
    have hlast : u.idx = 187#8 := BitVec.eq_of_toNat_eq hidx
    rw [fillLast_eq hst hidx ht, windowBytes_loadDecoded, loadDecoded_st_of_full (idx_fill_last hlast _)]
    simp [hrst, inValid_of_inFire hfire, hst, herr, heos, hidx]
  | fillEos hrst hfire hst herr heos => simp [hrst, inValid_of_inFire hfire, hst, herr, heos, errorState]
  | fillIoerr hrst hfire hst herr => simp [hrst, inValid_of_inFire hfire, hst, herr, errorState]
  | idle hrst hout hin =>
    obtain ⟨hir, -⟩ | ⟨-, hov, -⟩ | ⟨-, -, hend⟩ := kind_cases t
    · have hvalid : p.inValid = false := by simpa [inFire, hir] using hin
      obtain hst | hst := (inReady_iff t).1 hir <;> simp [hrst, hvalid, hst]
    · have hready : p.outReady = false := by simpa [outFire, hov] using hout
      obtain hst | hst | hst := (outValid_iff t).1 hov <;> simp [hrst, hready, hst]
    · obtain hst | hst := (ended_iff t).1 hend <;> simp [hrst, hst]

end Sys2Proof.Machine
end

section
/-! PROOFS. The family of `60_exceptions.md`: the order in which the function `decode` makes its checks, and the one
failure it reports (R195). -/

namespace Sys2Proof.Machine

/-! ## The checks of `decode` -/

/-- The sync check is on and byte 0 fails it (R123). -/
def BadSync (cfg : Cfg) (b0 : Byte) : Prop := cfg.checkSync = true ∧ b0 ≠ Config.syncByte

/-- The control bits are `00` and `cfg` rejects them (R126). -/
def ReservedAfc (cfg : Cfg) (afc : BitVec 2) : Prop := cfg.afc00Reject = true ∧ afc = 0b00#2

/-- A length the control bits do not allow, without a payload and with one (R143, R144). -/
def BadLength (afc : BitVec 2) (length : Byte) : Prop :=
  (afc = 0b10#2 ∧ length.toNat ≠ 183) ∨ (afc = 0b11#2 ∧ 183 ≤ length.toNat)

/-- A length is bad exactly when the header announces a field and the length fails the check of `decode_af`. -/
theorem badLength_iff (hdr : Header) (length : Byte) :
    BadLength hdr.afc length ↔ hdr.hasAf = true ∧ legalLength hdr.afc length = false := by
  have heq : length = Config.afLenNoPayload ↔ length.toNat = 183 := BitVec.toNat_inj.symm
  have hle : length ≤ Config.afLenMaxWithPayload ↔ length.toNat < 183 := BitVec.le_def.trans Nat.lt_succ_iff.symm
  rcases afc_cases hdr.afc with hafc | hafc | hafc | hafc
  · simp [BadLength, Header.hasAf, hafc]
  · simp [BadLength, Header.hasAf, hafc]
  · simp [BadLength, Header.hasAf, legalLength, hafc, heq]
  · simp [BadLength, Header.hasAf, legalLength, hafc, hle]

/-- The control bits `00` announce no field, so these two checks never both fail. -/
theorem not_badLength_of_reservedAfc {cfg : Cfg} {afc : BitVec 2} (h : ReservedAfc cfg afc) (length : Byte) :
    ¬ BadLength afc length := by
  simp [BadLength, h.2]

theorem decodeAf_eq_error_iff {afc : BitVec 2} {b4 b5 : Byte} {e : DecodeError} :
    decodeAf afc b4 b5 = .error e ↔ legalLength afc b4 = false ∧ e = .invalidAfLength b4 := by
  rw [decodeAf]
  cases legalLength afc b4 <;> simp [eq_comm (a := e)]

/-! ## The first failure -/

/-- What `decode` can answer on a buffer whose header is `hdr`: the failure of one check, those before it having passed,
or a packet, all having passed. -/
inductive DecodeOutcome (cfg : Cfg) (buf : List Byte) (hdr : Header) : DecodeResult → Prop where
  | shortBuffer (hshort : buf.length < 188) : DecodeOutcome cfg buf hdr (.err .shortBuffer)
  | badSync (hshort : ¬ buf.length < 188) (hsync : BadSync cfg (byteAt buf 0)) :
      DecodeOutcome cfg buf hdr (.err (.badSync (byteAt buf 0)))
  | reservedAfc (hshort : ¬ buf.length < 188) (hsync : ¬ BadSync cfg (byteAt buf 0)) (hres : ReservedAfc cfg hdr.afc) :
      DecodeOutcome cfg buf hdr (.err (.reservedAfc (byteAt buf 3)))
  | badLength (hshort : ¬ buf.length < 188) (hsync : ¬ BadSync cfg (byteAt buf 0)) (hres : ¬ ReservedAfc cfg hdr.afc)
      (hlen : BadLength hdr.afc (byteAt buf 4)) : DecodeOutcome cfg buf hdr (.err (.invalidAfLength (byteAt buf 4)))
  | packet (hshort : ¬ buf.length < 188) (hsync : ¬ BadSync cfg (byteAt buf 0)) (hres : ¬ ReservedAfc cfg hdr.afc)
      (hlen : ¬ BadLength hdr.afc (byteAt buf 4)) (pkt : TransportPacket) : DecodeOutcome cfg buf hdr (.ok pkt)

/-- The branches of `decode`, in the order of its checks. -/
theorem decode_outcome (cfg : Cfg) (buf : List Byte) :
    DecodeOutcome cfg buf (unpackHeader (byteAt buf 1) (byteAt buf 2) (byteAt buf 3)) (decode cfg buf) := by
  simp only [decode]
  generalize unpackHeader (byteAt buf 1) (byteAt buf 2) (byteAt buf 3) = hdr
  split
  case isTrue hshort => exact .shortBuffer hshort
  rename_i hshort
  split
  case isTrue hsync => exact .badSync hshort (by simpa [BadSync] using hsync)
  rename_i hsync
  replace hsync : ¬ BadSync cfg (byteAt buf 0) := by simpa [BadSync] using hsync
  split
  case isTrue hres => exact .reservedAfc hshort hsync (by simpa [ReservedAfc, and_comm] using hres)
  rename_i hres
  replace hres : ¬ ReservedAfc cfg hdr.afc := by simpa [ReservedAfc, and_comm] using hres
  split
  case isFalse haf => exact .packet hshort hsync hres (fun hbad => haf ((badLength_iff _ _).1 hbad).1) _
  rename_i haf
  split
  case h_1 af hok =>
    obtain ⟨hlegal, -⟩ := decodeAf_eq_ok_iff.1 hok
    refine .packet hshort hsync hres (fun hbad => ?_) _
    exact Bool.eq_false_iff.1 ((badLength_iff _ _).1 hbad).2 hlegal
  case h_2 e herr =>
    obtain ⟨hillegal, rfl⟩ := decodeAf_eq_error_iff.1 herr
    exact .badLength hshort hsync hres ((badLength_iff _ _).2 ⟨haf, hillegal⟩)

/-- Settles O27, by cases on the outcome of `decode`: each says which checks passed and which one failed. -/
theorem decodeReportsTheFirstFailure : Obligations.DecodeReportsTheFirstFailure := by
  intro cfg buf hdr short badSync reserved badLength
  have hout : DecodeOutcome cfg buf hdr (decode cfg buf) := decode_outcome cfg buf
  have hs : short ↔ buf.length < 188 := Iff.rfl
  have hb : badSync ↔ BadSync cfg (byteAt buf 0) := Iff.rfl
  have hr : reserved ↔ ReservedAfc cfg hdr.afc := Iff.rfl
  have hl : badLength ↔ BadLength hdr.afc (byteAt buf 4) := Iff.rfl
  rw [hs, hb, hr, hl]
  generalize decode cfg buf = r at hout ⊢
  cases hout with
  | shortBuffer hshort => simp [hshort, DecodeResult.isOk]
  | badSync hshort hsync => simp [hshort, hsync, DecodeResult.isOk]
  | reservedAfc hshort hsync hres =>
    simp [hshort, hsync, hres, not_badLength_of_reservedAfc hres, DecodeResult.isOk]
  | badLength hshort hsync hres hlen => simp [hshort, hsync, hres, hlen, DecodeResult.isOk]
  | packet hshort hsync hres hlen pkt => simp [hshort, hsync, hres, hlen, DecodeResult.isOk]

end Sys2Proof.Machine
end

section
/-! PROOFS. The family of `70_reset_and_hazards.md`: an edge without an event changes nothing (R232), and `CFG` is
fixed for a run (R235). -/

namespace Sys2Proof.Machine

/-! ## The edge without an event -/

/-- An edge without `rst` on which neither handshake happens makes no event word but the empty one (R93). -/
theorem fetch_of_no_event {s : State} {p : Pins} (hrst : p.rst = false) (hout : outFire s p = false)
    (hin : inFire s p = false) : fetch s p = .error .noEvent := by
  obtain ⟨hr, -⟩ | ⟨-, ho, -⟩ | ⟨-, hi, -⟩ | ⟨-, hi, -⟩ | ⟨-, -, -, hnone⟩ := fetch_cases s p
  · simp [hrst] at hr
  · simp [hout] at ho
  · simp [hin] at hi
  · simp [hin] at hi
  · exact hnone

theorem step_of_fetch_ok {s : State} {p : Pins} {ps : List Pins} {i : Instr} (hin : s.inputs = p :: ps)
    (hf : fetch s p = .ok i) : step s = exec i { s with inputs := ps } := by
  simp [step, hin, hf]

theorem step_of_fetch_error {s : State} {p : Pins} {ps : List Pins} {e : Reject} (hin : s.inputs = p :: ps)
    (hf : fetch s p = .error e) : step s = .next { s with inputs := ps } := by
  simp [step, hin, hf]

/-- Settles O4: with neither handshake completed the edge selects no instruction, so the step only takes it off. -/
theorem edgeWithoutEventChangesNothing : Obligations.EdgeWithoutEventChangesNothing := by
  intro s p ps hin hrst hout hbeat
  have hof : outFire s p = false := by simpa [outFire] using hout
  have hif : inFire s p = false := by simpa [inFire] using hbeat
  exact step_of_fetch_error hin (fetch_of_no_event hrst hof hif)

/-! ## `CFG` is written by `RESET` only -/

/-- Running a form changes no policy: it loads `RES` and writes `ST` and `LAST_ERR`. -/
theorem runForm_keeps_cfg {i : Instr} {s t : State} (h : runForm i s = .next t) : t.cfg = s.cfg := by
  obtain ⟨-, ⟨pkt, rfl⟩ | ⟨e, info, -, rfl⟩⟩ := runForm_next h
  · exact loadPacket_cfg pkt s
  · exact raise_cfg e info _ _ s

theorem completeWindow_keeps_cfg {s t : State} (h : completeWindow s = .next t) : t.cfg = s.cfg :=
  runForm_keeps_cfg h

theorem execFill_keeps_cfg {d : Byte} {s t : State} (h : execFill d s = .next t) : t.cfg = s.cfg := by
  obtain ⟨-, -, ⟨-, rfl⟩ | ⟨-, hform⟩⟩ := execFill_next.1 h
  · simp
  · simpa using completeWindow_keeps_cfg hform

/-- No event on an edge without `rst` writes `CFG`. -/
theorem EdgeEffect.keeps_cfg {s t : State} {p : Pins} (h : EdgeEffect s p t) (hrst : p.rst = false) :
    t.cfg = s.cfg := by
  cases h with
  | reset hr => simp [hr] at hrst
  | fillLast _ _ _ _ _ _ _ t ht => simpa using completeWindow_keeps_cfg ht
  | out | scanHit | scanSkip | scanEos | scanIoerr | fill | fillEos | fillIoerr | idle => simp

/-- The composite operations stop before a reset edge, so the edges they run keep `CFG`. -/
theorem runEdges_keeps_cfg {stop : State → Bool} {ps : List Pins} {s t : State}
    (h : runEdges stop ps s = .next t) : t.cfg = s.cfg :=
  runEdges_keeps (P := fun u => u.cfg = s.cfg) (fun _ _ hu => hu)
    (fun _ _ _ hu hrst heff => (heff.keeps_cfg hrst).trans hu) ps s t rfl h

theorem execFindSync_keeps_cfg {s t : State} (h : execFindSync s = .next t) : t.cfg = s.cfg := by
  obtain ⟨-, hrun⟩ := whenEnabled_eq_next.1 h
  obtain ⟨u, hu, hans⟩ := andThen_eq_next.1 hrun
  cases hans
  simpa using runEdges_keeps_cfg hu

theorem execNext_keeps_cfg {s t : State} (h : execNext s = .next t) : t.cfg = s.cfg := by
  obtain ⟨held, hheld, hrest⟩ := andThen_eq_next.1 h
  have hcfg : held.cfg = s.cfg := runEdges_keeps_cfg hheld
  split at hrest
  · obtain ⟨u, htaken, hans⟩ := andThen_eq_next.1 hrest
    cases hans
    simpa using (runEdges_keeps_cfg htaken).trans hcfg
  · cases hrest
    exact hcfg

/-- An enabled event or form whose one outcome is `u` keeps `CFG` if `u` does. -/
theorem whenEnabled_keeps_cfg {enabled : Bool} {s t u : State} (h : whenEnabled enabled (.next u) = .next t)
    (hu : u.cfg = s.cfg) : t.cfg = s.cfg := by
  obtain ⟨-, hnext⟩ := whenEnabled_eq_next.1 h
  cases hnext
  exact hu

/-- Every instruction but `RESET` keeps `CFG` (R235). -/
theorem exec_keeps_cfg {i : Instr} {s t : State} (hi : ∀ o n c, i ≠ .reset o n c) (h : exec i s = .next t) :
    t.cfg = s.cfg := by
  cases i with
  | reset o n c => exact absurd rfl (hi o n c)
  | scanHit => obtain ⟨-, -, rfl⟩ := execScanHit_next.1 h; simp
  | scanSkip => obtain ⟨-, -, rfl⟩ := execScanSkip_next.1 h; simp
  | fill => exact execFill_keeps_cfg h
  | scanEos | scanIoerr | fillEos | fillIoerr | out => exact whenEnabled_keeps_cfg h (by simp)
  | tsReserved b0 hdr l f => exact runForm_keeps_cfg (i := .tsReserved b0 hdr l f) h
  | tsBadSync | tsPayload | tsAfOnly | tsAfOnlyBadlen | tsAfPayloadEmpty | tsAfPayload | tsAfPayloadBadlen =>
    exact whenEnabled_keeps_cfg h (by simp)
  | findSync => exact execFindSync_keeps_cfg h
  | next => exact execNext_keeps_cfg h
  | decode | isPat | hasAf | hasPayload => cases h; simp

/-! ## The `cfg_*` pins are read by `RESET` only -/

/-- Bit 2 of the event word is `rst` (R93). -/
theorem getLsbD_eventWord_2 (rst outFire inFire : Bool) : (eventWord rst outFire inFire).getLsbD 2 = rst := by
  cases rst <;> cases outFire <;> cases inFire <;> rfl

/-- An event word without `rst` selects its row whatever the `cfg_*` pins hold. -/
theorem decodeEvent_cfgPins_irrel {w : BitVec 3} (hw : w.getLsbD 2 = false) (st : St) (c c' : Cfg) :
    decodeEvent st w c = decodeEvent st w c' := by
  simp only [decodeEvent, hw, Bool.false_eq_true, if_false]

/-- The handshakes and the beat word of an edge leave its `cfg_*` pins unread, so only `RESET` could read them. -/
theorem fetch_cfgPins_irrel {p : Pins} (hrst : p.rst = false) (s : State) (c : Cfg) :
    fetch s { p with cfg := c } = fetch s p := by
  have hevent : decodeWord s.st s.cfg (edgeEvent s { p with cfg := c }) = decodeWord s.st s.cfg (edgeEvent s p) :=
    decodeEvent_cfgPins_irrel (by rw [getLsbD_eventWord_2, hrst]) s.st c p.cfg
  have hbeat : edgeBeat { p with cfg := c } = edgeBeat p := rfl
  rw [fetch, hevent, hbeat, fetch]

/-- The pins of an edge reach the next state through the instruction they select, and no other way. -/
theorem step_eq_of_fetch_eq {s : State} {p q : Pins} (h : fetch s p = fetch s q) (ps : List Pins) :
    step { s with inputs := p :: ps } = step { s with inputs := q :: ps } := by
  cases hq : fetch s q with
  | ok i =>
    have hp : fetch s p = .ok i := h.trans hq
    rw [step_of_fetch_ok (s := { s with inputs := p :: ps }) rfl hp,
      step_of_fetch_ok (s := { s with inputs := q :: ps }) rfl hq]
  | error e =>
    have hp : fetch s p = .error e := h.trans hq
    rw [step_of_fetch_error (s := { s with inputs := p :: ps }) rfl hp,
      step_of_fetch_error (s := { s with inputs := q :: ps }) rfl hq]

/-- Settles O38: every instruction but `RESET` keeps `CFG`, and an edge without `rst` selects the same instruction
whatever its `cfg_*` pins hold. -/
theorem onlyResetChangesCfg : Obligations.OnlyResetChangesCfg :=
  ⟨fun _ _ _ => exec_keeps_cfg, fun s _ ps c hrst => step_eq_of_fetch_eq (fetch_cfgPins_irrel hrst s c) ps⟩

end Sys2Proof.Machine
end

section
/-! PROOFS. Which instruction an edge selects, and what a step can do, in both directions: the effects of an edge are
exactly the next states of `step` and of the edges that the contract-level operations run. -/

namespace Sys2Proof.Machine

/-! ## The kinds of states and edges exclude one another -/

theorem outValid_eq_false_of_inReady {s : State} (h : inReady s = true) : outValid s = false := by
  obtain hst | hst := (inReady_iff s).1 h <;> simp [outValid, St.holding, hst]

theorem inReady_eq_false_of_outValid {s : State} (h : outValid s = true) : inReady s = false := by
  obtain hst | hst | hst := (outValid_iff s).1 h <;> simp [inReady, hst]

theorem ended_eq_false_of_inReady {s : State} (h : inReady s = true) : ended s = false := by
  obtain hst | hst := (inReady_iff s).1 h <;> simp [ended, hst]

theorem ended_eq_false_of_outValid {s : State} (h : outValid s = true) : ended s = false := by
  obtain hst | hst | hst := (outValid_iff s).1 h <;> simp [ended, hst]

theorem closed_eq_false_of_inReady {s : State} (h : inReady s = true) : closed s = false :=
  Bool.eq_false_iff.2 fun hclosed => by simp [inReady_of_closed hclosed] at h

theorem st_ne_fatal_of_inReady {s : State} (h : inReady s = true) : s.st ≠ .fatal := by
  obtain hst | hst := (inReady_iff s).1 h <;> simp [hst]

theorem st_ne_fatal_of_outValid {s : State} (h : outValid s = true) : s.st ≠ .fatal := by
  obtain hst | hst | hst := (outValid_iff s).1 h <;> simp [hst]

theorem outValid_of_outFire {s : State} {p : Pins} (h : outFire s p = true) : outValid s = true := by
  simp only [outFire, Bool.and_eq_true] at h
  exact h.1

theorem inReady_of_inFire {s : State} {p : Pins} (h : inFire s p = true) : inReady s = true := by
  simp only [inFire, Bool.and_eq_true] at h
  exact h.1

theorem inFire_eq_false_of_outFire {s : State} {p : Pins} (h : outFire s p = true) : inFire s p = false :=
  Bool.eq_false_iff.2 fun hin => by simp [outFire_eq_false_of_inFire hin] at h

/-! ## The instruction of an edge -/

theorem getLsbD_eventWord_1 (rst outFire inFire : Bool) : (eventWord rst outFire inFire).getLsbD 1 = outFire := by
  cases rst <;> cases outFire <;> cases inFire <;> rfl

theorem getLsbD_eventWord_0 (rst outFire inFire : Bool) : (eventWord rst outFire inFire).getLsbD 0 = inFire := by
  cases rst <;> cases outFire <;> cases inFire <;> rfl

theorem fetch_eq_reset {p : Pins} (hrst : p.rst = true) (s : State) :
    fetch s p = .ok (.reset (outFire s p) (inFire s p) p.cfg) := by
  simp only [fetch, edgeEvent, decodeWord, decodeEvent, getLsbD_eventWord_2, getLsbD_eventWord_1, getLsbD_eventWord_0,
    hrst, if_true]

theorem fetch_eq_out {s : State} {p : Pins} (hrst : p.rst = false) (hfire : outFire s p = true) :
    fetch s p = .ok .out := by
  have hin := inFire_eq_false_of_outFire hfire
  obtain ⟨hr, -⟩ | ⟨-, -, hout⟩ | ⟨-, hi, -⟩ | ⟨-, hi, -⟩ | ⟨-, ho, -⟩ := fetch_cases s p
  · simp [hrst] at hr
  · exact hout
  · simp [hin] at hi
  · simp [hin] at hi
  · simp [hfire] at ho

/-- The row of R78 for the pins of a beat accepted in SEEKING. -/
theorem fetch_eq_scan {s : State} {p : Pins} (hrst : p.rst = false) (hfire : inFire s p = true)
    (hst : s.st = .seeking) : fetch s p = .ok (if p.inErr then .scanIoerr p.inEos p.inData p.inCause
      else if p.inEos then .scanEos p.inData else if p.inData = Config.syncByte then .scanHit
      else .scanSkip p.inData) := by
  obtain ⟨hr, -⟩ | ⟨-, ho, -⟩ | ⟨-, -, -, hscan⟩ | ⟨-, -, hs, -⟩ | ⟨-, -, hi, -⟩ := fetch_cases s p
  · simp [hrst] at hr
  · simp [outFire_eq_false_of_inFire hfire] at ho
  · rw [hscan, decodeScan_beatWord]
  · simp [hst] at hs
  · simp [hfire] at hi

/-- The row of R79 for the pins of a beat accepted in DECODING. -/
theorem fetch_eq_fill {s : State} {p : Pins} (hrst : p.rst = false) (hfire : inFire s p = true)
    (hst : s.st = .decoding) : fetch s p = .ok (if p.inErr then .fillIoerr p.inEos p.inData p.inCause
      else if p.inEos then .fillEos p.inData else .fill p.inData) := by
  obtain ⟨hr, -⟩ | ⟨-, ho, -⟩ | ⟨-, -, hs, -⟩ | ⟨-, -, -, hfill⟩ | ⟨-, -, hi, -⟩ := fetch_cases s p
  · simp [hrst] at hr
  · simp [outFire_eq_false_of_inFire hfire] at ho
  · simp [hst] at hs
  · rw [hfill, decodeFill_beatWord]
  · simp [hfire] at hi

/-! ## The effects of an edge are its next states -/

/-- The converse of `edgeEffect_of_exec`: an effect is that of the event row the edge selects, or of no event. -/
theorem EdgeEffect.fetched {s t : State} {p : Pins} (h : EdgeEffect s p t) :
    (∃ i, fetch s p = .ok i ∧ isEventRow i = true ∧ exec i s = .next t) ∨ (fetch s p = .error .noEvent ∧ t = s) := by
  cases h with
  | reset hrst => exact .inl ⟨_, fetch_eq_reset hrst s, rfl, exec_reset ..⟩
  | out hrst hfire =>
    exact .inl ⟨_, fetch_eq_out hrst hfire, rfl, execOut_next.2 ⟨outValid_of_outFire hfire, rfl⟩⟩
  | scanHit hrst hfire hst herr heos hd hroom =>
    refine .inl ⟨.scanHit, ?_, rfl, execScanHit_next.2 ⟨hst, hroom, rfl⟩⟩
    simp [fetch_eq_scan hrst hfire hst, herr, heos, hd]
  | scanSkip hrst hfire hst herr heos hd hroom =>
    refine .inl ⟨.scanSkip p.inData, ?_, rfl, execScanSkip_next.2 ⟨hst, hroom, rfl⟩⟩
    simp [fetch_eq_scan hrst hfire hst, herr, heos, hd]
  | scanEos hrst hfire hst herr heos =>
    refine .inl ⟨.scanEos p.inData, ?_, rfl, (execScanEos_next (d := p.inData)).2 ⟨hst, rfl⟩⟩
    simp [fetch_eq_scan hrst hfire hst, herr, heos]
  | scanIoerr hrst hfire hst herr =>
    refine .inl ⟨.scanIoerr p.inEos p.inData p.inCause, ?_, rfl,
      (execScanIoerr_next (e := p.inEos) (d := p.inData)).2 ⟨hst, rfl⟩⟩
    simp [fetch_eq_scan hrst hfire hst, herr]
  | fill hrst hfire hst herr heos hroom hidx =>
    refine .inl ⟨.fill p.inData, ?_, rfl, execFill_next.2 ⟨hst, hroom, .inl ⟨hidx, rfl⟩⟩⟩
    simp [fetch_eq_fill hrst hfire hst, herr, heos]
  | fillLast hrst hfire hst herr heos hroom hidx t ht =>
    refine .inl ⟨.fill p.inData, ?_, rfl, execFill_next.2 ⟨hst, hroom, .inr ⟨hidx, ht⟩⟩⟩
    simp [fetch_eq_fill hrst hfire hst, herr, heos]
  | fillEos hrst hfire hst herr heos =>
    refine .inl ⟨.fillEos p.inData, ?_, rfl, (execFillEos_next (d := p.inData)).2 ⟨hst, rfl⟩⟩
    simp [fetch_eq_fill hrst hfire hst, herr, heos]
  | fillIoerr hrst hfire hst herr =>
    refine .inl ⟨.fillIoerr p.inEos p.inData p.inCause, ?_, rfl,
      (execFillIoerr_next (e := p.inEos) (d := p.inData)).2 ⟨hst, rfl⟩⟩
    simp [fetch_eq_fill hrst hfire hst, herr]
  | idle hrst hout hin => exact .inr ⟨fetch_of_no_event hrst hout hin, rfl⟩

theorem clockEdge_eq_next {s t : State} {p : Pins} : clockEdge p s = .next t ↔ EdgeEffect s p t := by
  refine ⟨edgeEffect_of_clockEdge, fun h => ?_⟩
  obtain ⟨i, hf, hrow, hex⟩ | ⟨hf, rfl⟩ := h.fetched
  · simp only [clockEdge, hf]; exact (runEvent_eq_exec hrow s).trans hex
  · simp only [clockEdge, hf]

theorem step_eq_next {s t : State} {p : Pins} {ps : List Pins} (hin : s.inputs = p :: ps) :
    step s = .next t ↔ EdgeEffect { s with inputs := ps } p t := by
  refine ⟨edgeEffect_of_step hin, fun h => ?_⟩
  obtain ⟨i, hf, -, hex⟩ | ⟨hf, rfl⟩ := h.fetched
  · exact (step_of_fetch_ok hin hf).trans hex
  · exact step_of_fetch_error hin hf

/-- An edge has an effect unless it offers a `FILL` no window offset, or a byte too many (R22, R239). -/
theorem exists_edgeEffect {s : State} {p : Pins} (hidx : s.st = .decoding → s.idx.toNat ≤ 187)
    (hroom : inFire s p = true → p.inErr = false → p.inEos = false → s.pos + 1 < Config.streamLimit) :
    ∃ t, EdgeEffect s p t := by
  cases hrst : p.rst with
  | true => exact ⟨_, .reset hrst⟩
  | false =>
  cases hin : inFire s p with
  | false =>
    cases hout : outFire s p with
    | true => exact ⟨_, .out hrst hout⟩
    | false => exact ⟨_, .idle hrst hout hin⟩
  | true =>
    obtain hst | hst := (inReady_iff s).1 (inReady_of_inFire hin)
    · cases herr : p.inErr with
      | true => exact ⟨_, .scanIoerr hrst hin hst herr⟩
      | false =>
      cases heos : p.inEos with
      | true => exact ⟨_, .scanEos hrst hin hst herr heos⟩
      | false =>
      by_cases hd : p.inData = Config.syncByte
      · exact ⟨_, .scanHit hrst hin hst herr heos hd (hroom hin herr heos)⟩
      · exact ⟨_, .scanSkip hrst hin hst herr heos hd (hroom hin herr heos)⟩
    · cases herr : p.inErr with
      | true => exact ⟨_, .fillIoerr hrst hin hst herr⟩
      | false =>
      cases heos : p.inEos with
      | true => exact ⟨_, .fillEos hrst hin hst herr heos⟩
      | false =>
      obtain hlt | heq := Nat.lt_or_eq_of_le (hidx hst)
      · exact ⟨_, .fill hrst hin hst herr heos (hroom hin herr heos) hlt⟩
      · have hlast : s.idx = 187#8 := BitVec.eq_of_toNat_eq heq
        exact ⟨_, .fillLast hrst hin hst herr heos (hroom hin herr heos) heq _
          (completeWindow_eq _ ((windowFull_iff _).2 ⟨hst, idx_fill_last hlast p.inData⟩))⟩

/-- Settles O2: a reset edge is fetched as `RESET` with the values on its `cfg_*` pins. -/
theorem resetWinsOverEveryHandshake : Obligations.ResetWinsOverEveryHandshake :=
  fun _ _ _ hin hrst => (step_eq_next hin).2 (.reset hrst)

/-- Settles O3: a clause for the step and one for each kind of instruction an edge can select. -/
theorem stepRunsTheInstructionOfTheEdge : Obligations.StepRunsTheInstructionOfTheEdge := by
  refine ⟨fun s p ps i => step_of_fetch_ok, fun s p hrst => fetch_eq_reset hrst s, fun s p hrst hov hready => ?_,
    fun s p hrst hst hvalid => ?_, fun s p hrst hst hvalid => ?_, fun s hin => ?_⟩
  · exact fetch_eq_out hrst (by simp [outFire, hov, hready])
  · exact fetch_eq_scan hrst (by simp [inFire, inReady, hst, hvalid]) hst
  · exact fetch_eq_fill hrst (by simp [inFire, inReady, hst, hvalid]) hst
  · simp [step, hin]

end Sys2Proof.Machine
end

section
/-! PROOFS. The invariant of reachable states (R172) kept by every step, and the canonical form of the window kept by
every instruction. -/

namespace Sys2Proof.Machine

/-! ## The canonical form of the window -/

/-- The window is canonical and lists offsets 0 to 187 only. -/
def WindowOk (m : Memory) : Prop := Memory.wf m = true ∧ Memory.inWindow m = true

theorem WindowOk.nil : WindowOk [] := ⟨rfl, rfl⟩

theorem WindowOk.write {m : Memory} (h : WindowOk m) {a : Nat} (ha : a < Config.packetLen) (v : Byte) :
    WindowOk (Memory.write m a v) :=
  ⟨Memory.wf_write h.1, Memory.inWindow_write h.2 ha⟩

theorem WindowOk.openWindow {s : State} (h : WindowOk s.w) (d : Byte) :
    WindowOk (acceptByte d (openWindow s)).w :=
  h.write (by decide) _

theorem WindowOk.storeByte {s : State} (h : WindowOk s.w) (hidx : s.idx.toNat ≤ 187) (d : Byte) :
    WindowOk (acceptByte d (storeByte d s)).w :=
  h.write (Nat.lt_succ_of_le hidx) d

/-- A packet form writes no window byte. -/
theorem runForm_keeps_w {i : Instr} {s t : State} (h : runForm i s = .next t) : t.w = s.w := by
  obtain ⟨-, ⟨pkt, rfl⟩ | ⟨e, info, -, rfl⟩⟩ := runForm_next h
  · exact loadPacket_w pkt s
  · exact raise_w e info _ _ s

theorem EdgeEffect.keeps_windowOk {s t : State} {p : Pins} (h : EdgeEffect s p t) (hw : WindowOk s.w) :
    WindowOk t.w := by
  cases h with
  | reset => exact WindowOk.nil
  | scanHit => exact hw.openWindow _
  | fill _ _ _ _ _ _ hidx => exact hw.storeByte hidx.le _
  | fillLast _ _ _ _ _ _ hidx t ht =>
    rw [runForm_keeps_w ht]
    exact hw.storeByte hidx.le _
  | out | scanSkip | scanEos | scanIoerr | fillEos | fillIoerr | idle => exact hw

theorem runEdges_keeps_windowOk {stop : State → Bool} {ps : List Pins} {s t : State}
    (h : runEdges stop ps s = .next t) (hw : WindowOk s.w) : WindowOk t.w :=
  runEdges_keeps (P := fun u => WindowOk u.w) (fun _ _ hu => hu) (fun _ _ _ hu _ heff => heff.keeps_windowOk hu)
    ps s t hw h

theorem execFill_keeps_windowOk {d : Byte} {s t : State} (h : execFill d s = .next t) (hw : WindowOk s.w) :
    WindowOk t.w := by
  obtain ⟨-, -, ⟨hidx, rfl⟩ | ⟨hidx, hform⟩⟩ := execFill_next.1 h
  · exact hw.storeByte hidx.le d
  · rw [runForm_keeps_w hform]
    exact hw.storeByte hidx.le d

theorem execFindSync_keeps_windowOk {s t : State} (h : execFindSync s = .next t) (hw : WindowOk s.w) :
    WindowOk t.w := by
  obtain ⟨-, hrun⟩ := whenEnabled_eq_next.1 h
  obtain ⟨u, hu, hans⟩ := andThen_eq_next.1 hrun
  have hkept : WindowOk u.w := runEdges_keeps_windowOk hu hw
  cases hans
  exact hkept

theorem execNext_keeps_windowOk {s t : State} (h : execNext s = .next t) (hw : WindowOk s.w) : WindowOk t.w := by
  obtain ⟨held, hheld, hrest⟩ := andThen_eq_next.1 h
  have hwheld : WindowOk held.w := runEdges_keeps_windowOk hheld hw
  split at hrest
  · obtain ⟨u, htaken, hans⟩ := andThen_eq_next.1 hrest
    have hkept : WindowOk u.w := runEdges_keeps_windowOk htaken hwheld
    cases hans
    exact hkept
  · cases hrest
    exact hwheld

/-- An enabled event or form whose one outcome is `u` keeps the window if `u` does. -/
theorem whenEnabled_keeps_w {enabled : Bool} {s t u : State} (h : whenEnabled enabled (.next u) = .next t)
    (hu : u.w = s.w) : t.w = s.w := by
  obtain ⟨-, hnext⟩ := whenEnabled_eq_next.1 h
  cases hnext
  exact hu

/-- Settles O49: only `SCAN_HIT` and `FILL`, and the operations that run edges, write the window, each inside it. -/
theorem everyInstructionKeepsTheWindowCanonical : Obligations.EveryInstructionKeepsTheWindowCanonical := by
  intro i s t hwf hin h
  have hw : WindowOk s.w := ⟨hwf, hin⟩
  have same (heq : t.w = s.w) : WindowOk t.w := heq ▸ hw
  change WindowOk t.w
  cases i with
  | scanHit => obtain ⟨-, -, rfl⟩ := execScanHit_next.1 h; exact hw.openWindow _
  | scanSkip => obtain ⟨-, -, rfl⟩ := execScanSkip_next.1 h; exact hw
  | fill => exact execFill_keeps_windowOk h hw
  | reset o n c => cases h; exact WindowOk.nil
  | scanEos | scanIoerr | fillEos | fillIoerr | out => exact same (whenEnabled_keeps_w h rfl)
  | tsReserved b0 hdr l f => exact same (runForm_keeps_w (i := .tsReserved b0 hdr l f) h)
  | tsBadSync | tsPayload | tsAfOnly | tsAfOnlyBadlen | tsAfPayloadEmpty | tsAfPayload | tsAfPayloadBadlen =>
    exact same (whenEnabled_keeps_w h rfl)
  | findSync => exact execFindSync_keeps_windowOk h hw
  | next => exact execNext_keeps_windowOk h hw
  | decode | isPat | hasAf | hasPayload => cases h; exact hw

/-! ## The invariant, state by state -/

/-- What holds in every state: the window's form, and `POS` as the number of bytes accepted (R22). -/
def RunInv (s : State) : Prop :=
  WindowOk s.w ∧ s.pos = s.stream.length ∧ s.pos < Config.streamLimit

/-- The row of R172's table for the state's `ST`. -/
def RowInv (s : State) : Prop :=
  match s.st with
  | .seeking => s.idx = 0#8 ∧ s.res = none
  | .decoding => 1 ≤ s.idx.toNat ∧ s.idx.toNat ≤ 187 ∧ s.res = none ∧ WindowOpen s
  | .yield => YieldInv s
  | .decodeFailed => DecodeFailedInv s
  | .seekFailed => SeekFailedInv s
  | .terminated => s.idx = 0#8 ∧ s.res = none
  | .fatal => s.idx = 0#8 ∧ s.res = none ∧ s.lastErr ≠ none

theorem stateInv_iff (s : State) : StateInv s ↔ RunInv s ∧ RowInv s := by
  unfold StateInv RunInv RowInv WindowOk
  cases hst : s.st <;> simp [and_assoc]

theorem rowInv_seeking {s : State} (hst : s.st = .seeking) : RowInv s ↔ s.idx = 0#8 ∧ s.res = none := by
  rw [RowInv, hst]

theorem rowInv_decoding {s : State} (hst : s.st = .decoding) :
    RowInv s ↔ 1 ≤ s.idx.toNat ∧ s.idx.toNat ≤ 187 ∧ s.res = none ∧ WindowOpen s := by
  rw [RowInv, hst]

theorem rowInv_yield {s : State} (hst : s.st = .yield) : RowInv s ↔ YieldInv s := by
  rw [RowInv, hst]

theorem rowInv_decodeFailed {s : State} (hst : s.st = .decodeFailed) : RowInv s ↔ DecodeFailedInv s := by
  rw [RowInv, hst]

theorem rowInv_seekFailed {s : State} (hst : s.st = .seekFailed) : RowInv s ↔ SeekFailedInv s := by
  rw [RowInv, hst]

theorem rowInv_terminated {s : State} (hst : s.st = .terminated) : RowInv s ↔ s.idx = 0#8 ∧ s.res = none := by
  rw [RowInv, hst]

theorem rowInv_fatal {s : State} (hst : s.st = .fatal) :
    RowInv s ↔ s.idx = 0#8 ∧ s.res = none ∧ s.lastErr ≠ none := by
  rw [RowInv, hst]

/-! ## The held error and the open window -/

@[simp] theorem heldError_raise (e : ErrCode) (info cause : Byte) (off : Nat) (s : State) :
    heldError (raise e info cause off s) = some e := rfl

theorem windowOpen_scanHit {s : State} (hw : WindowOk s.w) (hpos : s.pos = s.stream.length) :
    WindowOpen (acceptByte Config.syncByte (openWindow s)) := by
  refine ⟨Memory.read_write_same hw.1, rfl, fun i hi => ?_⟩
  obtain rfl : i = 0 := Nat.lt_one_iff.1 hi
  simp [Memory.read_write_same hw.1, hpos]

/-- Storing a byte keeps the window a piece of the stream: the byte joins both at their end. -/
theorem windowOpen_storeByte {s : State} (hw : WindowOk s.w) (hpos : s.pos = s.stream.length)
    (hlow : 1 ≤ s.idx.toNat) (hidx : s.idx.toNat ≤ 187) (h : WindowOpen s) (d : Byte) :
    WindowOpen (acceptByte d (storeByte d s)) := by
  obtain ⟨hsync, hoff, hread⟩ := h
  have hnext : (s.idx + 1#8).toNat = s.idx.toNat + 1 := by bv_omega
  refine ⟨?_, ?_, fun i hi => ?_⟩
  · simpa [Memory.read_write_other (show 0 ≠ s.idx.toNat by omega)] using hsync
  · simp only [acceptByte_pktOff, storeByte_pktOff, acceptByte_idx, storeByte_idx, acceptByte_pos, storeByte_pos, hnext]
    omega
  · simp only [acceptByte_idx, storeByte_idx, hnext] at hi
    obtain hlt | rfl := Nat.lt_or_eq_of_le (Nat.le_of_lt_succ hi)
    · simp only [acceptByte_w, storeByte_w, Memory.read_write_other hlt.ne, hread i hlt, acceptByte_stream,
        storeByte_stream, acceptByte_pktOff, storeByte_pktOff]
      rw [List.getD_append _ _ _ _ (by omega)]
    · simp [Memory.read_write_same hw.1, hoff, hpos]

/-! ## Every effect keeps the invariant -/

theorem EdgeEffect.keeps_runInv {s t : State} {p : Pins} (h : EdgeEffect s p t) (hs : RunInv s) : RunInv t := by
  obtain ⟨hw, hpos, hlimit⟩ := hs
  refine ⟨h.keeps_windowOk hw, ?_⟩
  cases h with
  | reset => exact ⟨rfl, by simp⟩
  | scanHit | scanSkip | fill => exact ⟨by simp [hpos], by simpa⟩
  | fillLast _ _ hst _ _ hroom hidx t ht =>
    rw [fillLast_eq hst hidx ht]
    exact ⟨by simp [hpos], by simpa⟩
  | out | scanEos | scanIoerr | fillEos | fillIoerr | idle => exact ⟨hpos, hlimit⟩

/-- A full window's answer, loaded, meets the row of YIELD or of DECODE_FAILED. -/
theorem rowInv_loadDecoded {u : State} (hidx : u.idx = 188#8) (hopen : WindowOpen u) :
    RowInv (loadDecoded (decode u.cfg (windowBytes u)) u) := by
  obtain ⟨pkt, hdec, hload⟩ | ⟨e, hdec, hheld, hload⟩ := loadDecoded_cases (cfg := u.cfg) hidx
  · rw [hload, rowInv_yield (loadPacket_st pkt u)]
    refine ⟨hidx, hopen, ?_, ?_⟩
    · change (decode u.cfg (windowBytes u)).isOk = true
      rw [hdec]; rfl
    · change some _ = some ((decode u.cfg (windowBytes u)).toResult u.pktOff u.idx)
      rw [hdec]; rfl
  · obtain ⟨hcode, -⟩ := decode_error_of_full hdec (by simp [hidx])
    rw [hload, rowInv_decodeFailed hheld]
    refine ⟨hopen, rfl, .inr ⟨hidx, ?_, ?_, by simpa using hcode⟩⟩
    · change (decode u.cfg (windowBytes u)).isOk = false
      rw [hdec]; rfl
    · change some _ = some ((decode u.cfg (windowBytes u)).toResult u.pktOff u.idx)
      rw [hdec, hidx]; rfl

/-- `OUT` leads from a held result to SEEKING or FATAL with `IDX` and `RES` cleared (R168). -/
theorem rowInv_takeResult {s : State} (h : RowInv s) (hov : outValid s = true) : RowInv (takeResult s) := by
  have hseek (hst : afterOut s = .seeking) : RowInv (takeResult s) := (rowInv_seeking hst).2 ⟨rfl, rfl⟩
  have hfatal (hst : afterOut s = .fatal) (herr : s.lastErr = heldError s) (hheld : heldError s ≠ none) :
      RowInv (takeResult s) := (rowInv_fatal hst).2 ⟨rfl, rfl, by rwa [takeResult_lastErr, herr]⟩
  obtain hst | hst | hst := (outValid_iff s).1 hov
  · exact hseek (by simp [afterOut, hst])
  · obtain ⟨-, herr, hcase⟩ := (rowInv_decodeFailed hst).1 h
    have hheld : heldError s ≠ none := by
      obtain ⟨-, -, hres⟩ | ⟨-, -, -, hcode⟩ := hcase
      · simp [heldError, hres]
      · rcases hcode with hcode | hcode | hcode <;> simp [hcode]
    rw [afterOut_of_outValid hov] at hseek hfatal
    split at hseek
    · exact hseek rfl
    · exact hfatal (if_neg ‹_›) herr hheld
  · obtain ⟨herr, -, hcase⟩ := (rowInv_seekFailed hst).1 h
    refine hfatal (by simp [afterOut, hst]) herr ?_
    obtain ⟨hcode, -⟩ | ⟨hcode, -⟩ := hcase <;> simp [hcode]

theorem EdgeEffect.keeps_rowInv {s t : State} {p : Pins} (h : EdgeEffect s p t) (hrun : RunInv s) (hs : RowInv s) :
    RowInv t := by
  obtain ⟨hw, hpos, -⟩ := hrun
  cases h with
  | reset => exact (rowInv_seeking rfl).2 ⟨rfl, rfl⟩
  | out _ hfire => exact rowInv_takeResult hs (outValid_of_outFire hfire)
  | scanHit _ _ hst =>
    obtain ⟨-, hres⟩ := (rowInv_seeking hst).1 hs
    exact (rowInv_decoding rfl).2 ⟨by simp, by simp, hres, windowOpen_scanHit hw hpos⟩
  | scanSkip _ _ hst => exact (rowInv_seeking (s := acceptByte p.inData s) hst).2 ((rowInv_seeking hst).1 hs)
  | scanEos _ _ hst => exact (rowInv_terminated rfl).2 ((rowInv_seeking hst).1 hs)
  | scanIoerr _ _ hst =>
    obtain ⟨hidx, -⟩ := (rowInv_seeking hst).1 hs
    exact (rowInv_seekFailed rfl).2 ⟨rfl, rfl, .inl ⟨rfl, hidx⟩⟩
  | fill _ _ hst _ _ _ hidx =>
    obtain ⟨hlow, hhigh, hres, hopen⟩ := (rowInv_decoding hst).1 hs
    have hnext : (s.idx + 1#8).toNat = s.idx.toNat + 1 := by bv_omega
    refine (rowInv_decoding (s := acceptByte p.inData (storeByte p.inData s)) hst).2
      ⟨?_, ?_, hres, windowOpen_storeByte hw hpos hlow hhigh hopen _⟩
    · rw [acceptByte_idx, storeByte_idx, hnext]; omega
    · rw [acceptByte_idx, storeByte_idx, hnext]; omega
  | fillLast _ _ hst _ _ _ hidx t ht =>
    obtain ⟨hlow, hhigh, -, hopen⟩ := (rowInv_decoding hst).1 hs
    have hlast : s.idx = 187#8 := BitVec.eq_of_toNat_eq hidx
    rw [fillLast_eq hst hidx ht]
    exact rowInv_loadDecoded (idx_fill_last hlast _) (windowOpen_storeByte hw hpos hlow hhigh hopen _)
  | fillEos _ _ hst =>
    obtain ⟨hlow, hhigh, -, hopen⟩ := (rowInv_decoding hst).1 hs
    exact (rowInv_decodeFailed rfl).2 ⟨hopen, rfl, .inl ⟨hlow, hhigh, rfl⟩⟩
  | fillIoerr _ _ hst =>
    obtain ⟨hlow, hhigh, -, hopen⟩ := (rowInv_decoding hst).1 hs
    exact (rowInv_seekFailed rfl).2 ⟨rfl, rfl, .inr ⟨rfl, hlow, hhigh, hopen⟩⟩
  | idle => exact hs

theorem EdgeEffect.keeps_stateInv {s t : State} {p : Pins} (h : EdgeEffect s p t) (hs : StateInv s) : StateInv t := by
  obtain ⟨hrun, hrow⟩ := (stateInv_iff s).1 hs
  exact (stateInv_iff t).2 ⟨h.keeps_runInv hrun, h.keeps_rowInv hrun hrow⟩

/-- Settles O48: the effect of the edge keeps what holds in every state and meets the row of the state it leads to. -/
theorem everyStepKeepsInv : Obligations.EveryStepKeepsInv := by
  intro s t hs h
  obtain ⟨-, rfl⟩ | ⟨p, ps, -, heff⟩ := step_cases h
  · exact hs
  · exact heff.keeps_stateInv hs

theorem runEdges_keeps_stateInv {stop : State → Bool} {ps : List Pins} {s t : State}
    (h : runEdges stop ps s = .next t) (hs : StateInv s) : StateInv t :=
  runEdges_keeps (fun _ _ hu => hu) (fun _ _ _ hu _ heff => heff.keeps_stateInv hu) ps s t hs h

theorem stateInv_resetWith (c : Cfg) : StateInv (State.resetWith c) :=
  (stateInv_iff _).2 ⟨⟨WindowOk.nil, rfl, by simp⟩, (rowInv_seeking rfl).2 ⟨rfl, rfl⟩⟩

end Sys2Proof.Machine
end

section
/-! PROOFS. What every step keeps of a run's results: their order and the one that ends the run (R163, R205), with what
the invariant says of a held result; and what a step does to `POS` and `LAST_ERR` (`10_state.md` R22, R33, R44). -/

namespace Sys2Proof.Machine

/-! ## The kinds of edges -/

/-- An edge resets, takes the held result, accepts a beat, or changes nothing. -/
theorem EdgeEffect.kind {s t : State} {p : Pins} (h : EdgeEffect s p t) :
    (p.rst = true ∧ t = resetTo p.cfg s) ∨ (p.rst = false ∧ outFire s p = true ∧ t = takeResult s) ∨
      (p.rst = false ∧ inFire s p = true) ∨ (p.rst = false ∧ outFire s p = false ∧ inFire s p = false ∧ t = s) := by
  cases h with
  | reset hrst => exact .inl ⟨hrst, rfl⟩
  | out hrst hfire => exact .inr (.inl ⟨hrst, hfire, rfl⟩)
  | idle hrst hout hin => exact .inr (.inr (.inr ⟨hrst, hout, hin, rfl⟩))
  | scanHit hrst hfire | scanSkip hrst hfire | scanEos hrst hfire | scanIoerr hrst hfire | fill hrst hfire
  | fillLast hrst hfire | fillEos hrst hfire | fillIoerr hrst hfire => exact .inr (.inr (.inl ⟨hrst, hfire⟩))

theorem st_loadDecoded_of_full {cfg : Cfg} {u : State} (hidx : u.idx = 188#8) :
    (loadDecoded (decode cfg (windowBytes u)) u).st = .yield ∨
      (loadDecoded (decode cfg (windowBytes u)) u).st = .decodeFailed := by
  rw [loadDecoded_st_of_full hidx]
  split <;> simp

theorem outValid_loadDecoded_of_full {cfg : Cfg} {u : State} (hidx : u.idx = 188#8) :
    outValid (loadDecoded (decode cfg (windowBytes u)) u) = true :=
  (outValid_iff _).2 ((st_loadDecoded_of_full hidx).imp id .inl)

/-- An accepted beat takes no result. -/
theorem EdgeEffect.emitted_of_inFire {s t : State} {p : Pins} (h : EdgeEffect s p t) (hrst : p.rst = false)
    (hfire : inFire s p = true) : t.emitted = s.emitted := by
  cases h with
  | reset hr => simp [hr] at hrst
  | out _ hout => simp [outFire_eq_false_of_inFire hfire] at hout
  | fillLast _ _ hst _ _ _ hidx t ht => simp [fillLast_eq hst hidx ht]
  | scanHit | scanSkip | scanEos | scanIoerr | fill | fillEos | fillIoerr | idle => rfl

/-! ## The held result -/

/-- The three errors a full window fails with end the run exactly without `cfg.resync` (R205). -/
theorem endsRun_of_perPacket {e : ErrCode} (he : e = .badSync ∨ e = .invalidAfLength ∨ e = .reservedAfc) (cfg : Cfg)
    (info cause : Byte) (q : Nat) : (Result.error e info cause q).endsRun cfg = !cfg.resync := by
  rcases he with rfl | rfl | rfl <;> rfl

theorem heldError_eq_some {s : State} {e : ErrCode} :
    heldError s = some e ↔ ∃ info cause q, s.res = some (.error e info cause q) := by
  unfold heldError
  cases s.res with
  | none => simp
  | some r => cases r <;> simp

theorem YieldInv.held {s : State} (h : YieldInv s) : ∃ pkt, s.res = some (.packet pkt s.pktOff) := by
  obtain ⟨-, -, hok, hres⟩ := h
  cases hdec : decode s.cfg (windowBytes s) with
  | ok pkt => exact ⟨pkt, by rw [hres, hdec]; rfl⟩
  | err e => rw [hdec] at hok; cases hok

/-- The result of a failed full window: one of the three per-packet errors, at the window's offset. -/
theorem ResultIsDecoded.held {s : State} (hidx : s.idx = 188#8)
    (hok : (decode s.cfg (windowBytes s)).isOk = false) (hres : ResultIsDecoded s) :
    ∃ e info, (e = ErrCode.badSync ∨ e = .invalidAfLength ∨ e = .reservedAfc) ∧
      s.res = some (.error e info 0#8 s.pktOff) := by
  cases hdec : decode s.cfg (windowBytes s) with
  | ok pkt => rw [hdec] at hok; cases hok
  | err e => exact ⟨e.code, _, (decode_error_of_full hdec (by simp [hidx])).1, by rw [hres, hdec]; rfl⟩

theorem pos_of_full {s : State} (hidx : s.idx = 188#8) (hopen : WindowOpen s) : s.pktOff + 188 = s.pos := by
  obtain ⟨-, hoff, -⟩ := hopen
  simpa [hidx] using hoff

/-- THE HELD RESULT: it lies at the frontier or above; it ends the run exactly when `OUT` leads to FATAL; and when `OUT`
leads back to SEEKING, `POS` is a packet's length above it. -/
theorem exists_held {s : State} (hs : StateInv s) (hov : outValid s = true) :
    ∃ r, s.res = some r ∧ frontier s ≤ r.offset ∧
      ((r.endsRun s.cfg = true ∧ afterOut s = .fatal) ∨
        (r.endsRun s.cfg = false ∧ afterOut s = .seeking ∧ r.offset + 188 ≤ s.pos)) := by
  obtain ⟨-, hrow⟩ := (stateInv_iff s).1 hs
  obtain hst | hst | hst := (outValid_iff s).1 hov
  · have hy := (rowInv_yield hst).1 hrow
    obtain ⟨pkt, hres⟩ := hy.held
    obtain ⟨hidx, hopen, -, -⟩ := hy
    exact ⟨_, hres, by rw [frontier, hst]; exact le_rfl,
      .inr ⟨rfl, by simp [afterOut, hst], (pos_of_full hidx hopen).le⟩⟩
  · obtain ⟨hopen, -, ⟨-, -, hres⟩ | ⟨hidx, hok, hdec, -⟩⟩ := (rowInv_decodeFailed hst).1 hrow
    · exact ⟨_, hres, by rw [frontier, hst]; exact le_rfl, .inl ⟨rfl, by simp [afterOut, hst, heldError, hres]⟩⟩
    · obtain ⟨e, info, he, hres⟩ := ResultIsDecoded.held hidx hok hdec
      have hheld : heldError s = some e := heldError_eq_some.2 ⟨_, _, _, hres⟩
      have hne : e ≠ .shortBuffer := by rintro rfl; simp at he
      refine ⟨_, hres, by rw [frontier, hst]; exact le_rfl, ?_⟩
      rw [endsRun_of_perPacket he, afterOut_of_outValid hov]
      cases hr : s.cfg.resync with
      | false => exact .inl ⟨rfl, by simp [hst]⟩
      | true => exact .inr ⟨rfl, by simp [hst, hheld, hne], (pos_of_full hidx hopen).le⟩
  · obtain ⟨-, hoff, hcase⟩ := (rowInv_seekFailed hst).1 hrow
    obtain ⟨e, he, info, cause, q, hres⟩ : ∃ e, (e = ErrCode.syncIo ∨ e = .readIo) ∧
        ∃ info cause q, s.res = some (.error e info cause q) := by
      obtain ⟨herr, -⟩ | ⟨herr, -⟩ := hcase
      · exact ⟨_, .inl rfl, heldError_eq_some.1 herr⟩
      · exact ⟨_, .inr rfl, heldError_eq_some.1 herr⟩
    simp only [hres, Option.map_some, Option.some.injEq] at hoff
    refine ⟨_, hres, by rw [frontier, hst, hoff]; exact Nat.sub_le .., .inl ⟨?_, by simp [afterOut, hst]⟩⟩
    rcases he with rfl | rfl <;> rfl

/-! ## The order of the results -/

theorem spaced_iff_isChain (l : List Result) :
    spaced l = true ↔ l.IsChain fun r r' => r.offset + Config.packetLen ≤ r'.offset := by
  induction l with
  | nil => simp [spaced]
  | cons r l ih =>
    cases l with
    | nil => simp [spaced]
    | cons r' l => simp [spaced, ih]

theorem spaced_concat {l : List Result} {r : Result} : spaced (l ++ [r]) = true ↔
    spaced l = true ∧ ∀ r', l.getLast? = some r' → r'.offset + Config.packetLen ≤ r.offset := by
  simp [spaced_iff_isChain, List.isChain_append]

/-- While a beat is accepted the run goes on, and the frontier stays where it is unless a byte is skipped. -/
theorem EdgeEffect.frontier_of_inFire {s t : State} {p : Pins} (h : EdgeEffect s p t) (hs : StateInv s)
    (hrst : p.rst = false) (hfire : inFire s p = true) : t.st ≠ .fatal ∧
      (frontier t = frontier s ∨ (s.st = .seeking ∧ p.inErr = false ∧ p.inEos = false ∧ p.inData ≠ Config.syncByte ∧
        t = acceptByte p.inData s)) := by
  obtain ⟨-, hrow⟩ := (stateInv_iff s).1 hs
  cases h with
  | reset hr => simp [hr] at hrst
  | out _ hout => simp [outFire_eq_false_of_inFire hfire] at hout
  | idle _ _ hin => simp [hfire] at hin
  | scanHit _ _ hst => exact ⟨nofun, .inl (by simp [frontier, hst])⟩
  | scanSkip _ _ hst herr heos hd => exact ⟨by simp [hst], .inr ⟨hst, herr, heos, hd, rfl⟩⟩
  | scanEos _ _ hst => exact ⟨nofun, .inl (by simp [frontier, hst])⟩
  | scanIoerr _ _ hst =>
    obtain ⟨hidx, -⟩ := (rowInv_seeking hst).1 hrow
    exact ⟨nofun, .inl (by simp [frontier, hst, hidx, errorState])⟩
  | fill _ _ hst => exact ⟨by simp [hst], .inl (by simp [frontier, hst])⟩
  | fillLast _ _ hst _ _ _ hidx t ht =>
    rw [fillLast_eq hst hidx ht]
    obtain ht | ht := st_loadDecoded_of_full (cfg := s.cfg)
      (idx_fill_last (BitVec.eq_of_toNat_eq (y := 187#8) hidx) p.inData) <;> simp [frontier, hst, ht]
  | fillEos _ _ hst => exact ⟨nofun, .inl (by simp [frontier, hst, errorState])⟩
  | fillIoerr _ _ hst =>
    obtain ⟨-, -, -, -, hoff, -⟩ := (rowInv_decoding hst).1 hrow
    exact ⟨nofun, .inl (by simp [frontier, hst, errorState, ← hoff])⟩

theorem EdgeEffect.frontier_le_of_inFire {s t : State} {p : Pins} (h : EdgeEffect s p t) (hs : StateInv s)
    (hrst : p.rst = false) (hfire : inFire s p = true) : frontier s ≤ frontier t := by
  obtain ⟨-, hfront | ⟨hst, -, -, -, rfl⟩⟩ := h.frontier_of_inFire hs hrst hfire
  · exact hfront.ge
  · simp [frontier, hst]

/-- `OUT` appends the held result, which lies far enough from the results before it. -/
theorem spacedRun_takeResult {s : State} (hs : StateInv s) (hov : outValid s = true) (hspaced : SpacedRun s) :
    SpacedRun (takeResult s) := by
  obtain ⟨hsp, hnext⟩ := hspaced
  have hst := st_ne_fatal_of_outValid hov
  obtain ⟨r, hres, hfront, hcase⟩ := exists_held hs hov
  rw [SpacedRun, takeResult_emitted, hres, Option.toList_some, spaced_concat, List.getLast?_concat]
  refine ⟨⟨hsp, fun r' hr' => (hnext hst r' hr').trans hfront⟩, ?_⟩
  rintro hne r' ⟨⟩
  obtain ⟨-, hfatal⟩ | ⟨-, hseek, hpos⟩ := hcase
  · exact absurd hfatal hne
  · rw [frontier, takeResult_st, hseek]
    exact hpos

/-- `OUT` appends the held result, which ends the run exactly when it leads to FATAL. -/
theorem oneEnd_takeResult {s : State} (hs : StateInv s) (hov : outValid s = true) (hone : OneEnd s) :
    OneEnd (takeResult s) := by
  obtain ⟨-, hnone, -⟩ := hone
  have hst := st_ne_fatal_of_outValid hov
  obtain ⟨r, hres, -, hcase⟩ := exists_held hs hov
  rw [OneEnd, takeResult_emitted, hres, Option.toList_some, List.dropLast_concat, List.getLast?_concat, takeResult_st,
    takeResult_cfg]
  refine ⟨hnone hst, fun hne r' hr' => ?_, fun hfatal => ?_⟩
  · obtain ⟨-, hfatal⟩ | ⟨hends, -⟩ := hcase
    · exact absurd hfatal hne
    · obtain hr' | hr' := List.mem_append.1 hr'
      · exact hnone hst r' hr'
      · rwa [List.mem_singleton.1 hr']
  · obtain ⟨hends, -⟩ | ⟨-, hseek, -⟩ := hcase
    · rw [Option.map_some, hends]
    · rw [hseek] at hfatal; cases hfatal

theorem EdgeEffect.keeps_order {s t : State} {p : Pins} (h : EdgeEffect s p t) (hs : StateInv s)
    (hspaced : SpacedRun s) (hone : OneEnd s) : SpacedRun t ∧ OneEnd t := by
  obtain ⟨-, rfl⟩ | ⟨-, hfire, rfl⟩ | ⟨hrst, hfire⟩ | ⟨-, -, -, rfl⟩ := h.kind
  · simp [SpacedRun, OneEnd, spaced]
  · exact ⟨spacedRun_takeResult hs (outValid_of_outFire hfire) hspaced,
      oneEnd_takeResult hs (outValid_of_outFire hfire) hone⟩
  · obtain ⟨ht, -⟩ := h.frontier_of_inFire hs hrst hfire
    have hfront := h.frontier_le_of_inFire hs hrst hfire
    have hst := st_ne_fatal_of_inReady (inReady_of_inFire hfire)
    rw [SpacedRun, OneEnd, h.emitted_of_inFire hrst hfire, h.keeps_cfg hrst]
    exact ⟨⟨hspaced.1, fun _ r hr => (hspaced.2 hst r hr).trans hfront⟩, hone.1, fun _ => hone.2.1 hst,
      fun hfatal => absurd hfatal ht⟩
  · exact ⟨hspaced, hone⟩

/-- Settles O51, by the kind of edge: a beat moves the frontier only, `OUT` appends the held result. -/
theorem everyStepKeepsTheRunInOrder : Obligations.EveryStepKeepsTheRunInOrder := by
  intro s t hs hspaced hone h
  obtain ⟨-, rfl⟩ | ⟨p, ps, -, heff⟩ := step_cases h
  · exact ⟨hspaced, hone⟩
  · exact heff.keeps_order hs hspaced hone

/-- Settles O47: after reset nothing is held and nothing has been taken. -/
theorem invHoldsAtReset : Obligations.InvHoldsAtReset := by
  intro c
  exact ⟨stateInv_resetWith c, by simp [PacketsOk], by simp [SpacedRun, spaced], by simp [OneEnd]⟩

/-! ## `POS`, `LAST_ERR` and the window port -/

/-- `POS` counts the `DATA` beats, by cases on the effect of the edge. -/
theorem EdgeEffect.pos_eq {s t : State} {p : Pins} (h : EdgeEffect s p t) :
    t.pos = if p.rst = true then 0
      else if inFire s p = true ∧ p.inErr = false ∧ p.inEos = false then s.pos + 1 else s.pos := by
  cases h with
  | reset hrst => simp [hrst]
  | out hrst hfire => simp [hrst, inFire_eq_false_of_outFire hfire]
  | scanHit hrst hfire _ herr heos | scanSkip hrst hfire _ herr heos | fill hrst hfire _ herr heos =>
    simp [hrst, hfire, herr, heos]
  | fillLast hrst hfire hst herr heos _ hidx t ht => simp [fillLast_eq hst hidx ht, hrst, hfire, herr, heos]
  | scanEos hrst _ _ _ heos | fillEos hrst _ _ _ heos => simp [hrst, heos]
  | scanIoerr hrst _ _ herr | fillIoerr hrst _ _ herr => simp [hrst, herr]
  | idle hrst _ hin => simp [hrst, hin]

/-- Settles O40: the step has an effect of the edge, on the state with that edge taken off. -/
theorem posCountsTheDataBeats : Obligations.PosCountsTheDataBeats :=
  fun _ _ _ _ hin h => (edgeEffect_of_step hin h).pos_eq

/-- A raised error is the one `RES` offers. -/
theorem raise_offers (e : ErrCode) (info cause : Byte) (off : Nat) (s : State) :
    heldError (raise e info cause off s) = some e ∧ outValid (raise e info cause off s) = true := by
  refine ⟨rfl, ?_⟩
  cases e <;> rfl

/-- Settles O39, by cases on the effect of the edge: only raising an error writes `LAST_ERR`. -/
theorem lastErrIsSticky : Obligations.LastErrIsSticky := by
  intro s t p ps hin hrst h
  have heff := edgeEffect_of_step hin h
  have hlast : ({ s with inputs := ps } : State).lastErr = s.lastErr := rfl
  rw [← hlast]
  generalize ({ s with inputs := ps } : State) = u at heff
  cases heff with
  | reset hr => simp [hr] at hrst
  | out | scanHit | scanSkip | scanEos | fill | idle => exact .inl rfl
  | fillLast _ _ _ _ _ _ _ t ht =>
    obtain ⟨-, ⟨pkt, rfl⟩ | ⟨e, info, -, rfl⟩⟩ := completeWindow_next ht
    · exact .inl rfl
    · exact .inr ⟨e, rfl, raise_offers ..⟩
  | scanIoerr | fillEos | fillIoerr => exact .inr ⟨_, rfl, raise_offers ..⟩

/-- Settles O45: a held result's window is open, or `IDX` is 0 and no address is below it. -/
theorem windowPortShowsTheHeldBytes : Obligations.WindowPortShowsTheHeldBytes := by
  intro s a hs
  have hlt : a < s.idx ↔ a.toNat < s.idx.toNat := BitVec.lt_def
  refine ⟨fun hov ha => ?_, fun hov ha => ?_, fun hov => ?_⟩
  · obtain ⟨-, hrow⟩ := (stateInv_iff s).1 hs
    have hmatch : WindowMatchesStream s := by
      obtain hst | hst | hst := (outValid_iff s).1 hov
      · obtain ⟨-, ⟨-, -, hmatch⟩, -⟩ := (rowInv_yield hst).1 hrow
        exact hmatch
      · obtain ⟨⟨-, -, hmatch⟩, -⟩ := (rowInv_decodeFailed hst).1 hrow
        exact hmatch
      · obtain ⟨-, -, ⟨-, hidx⟩ | ⟨-, -, -, -, -, hmatch⟩⟩ := (rowInv_seekFailed hst).1 hrow
        · simp [hidx] at ha
        · exact hmatch
    simp [winData, hov, hlt, ha, hmatch]
  · simp [winData, hlt, ha]
  · simp [winData, hov]

end Sys2Proof.Machine
end

section
/-! PROOFS. The words of `30_encoding.md`: every word is the packing of its fields, so decoding and encoding agree in
both directions (R78 to R80, R93), and the decoder selects the first row of the table that matches. -/

namespace Sys2Proof

open Machine

/-! ## A word is the packing of its fields -/

/-- Every beat word is that of its three fields (R70). -/
theorem beatWord_fields (w : BitVec 10) : beatWord (beatErr w) (beatEos w) (beatData w) = w := by
  apply BitVec.eq_of_getLsbD_eq
  intro i hi
  rw [getLsbD_beatWord, beatErr, beatEos, beatData, BitVec.getLsbD_extractLsb']
  interval_cases i <;> simp

/-- Every word of a packet's first six bytes is that of its fields (R71 to R76). -/
theorem packPrefix_fields (p : BitVec 48) :
    packPrefix (prefixSync p) (prefixHdr p) (prefixAfc p) (prefixLen p) (prefixFlags p) = p := by
  apply BitVec.eq_of_getLsbD_eq
  intro i hi
  simp only [packPrefix, getLsbD_prefixOf, packHeader, BitVec.getLsbD_or, getLsbD_place, BitVec.getLsbD_extractLsb',
    prefixSync, prefixHdr, prefixAfc, prefixLen, prefixFlags, BitVec.getLsbD_ofBool]
  interval_cases i <;> simp

/-- Every event word is that of its three bits (R93). -/
theorem eventWord_bits (w : BitVec 3) : eventWord (w.getLsbD 2) (w.getLsbD 1) (w.getLsbD 0) = w := by
  revert w; decide

/-! ## Decoding a word made of fields -/

theorem decodeWord_beat_seeking (cfg : Cfg) (e o : Bool) (d c : Byte) :
    decodeWord .seeking cfg (.beat (beatWord e o d) c) = .ok (if e then .scanIoerr o d c else if o then .scanEos d
      else if d = Config.syncByte then .scanHit else .scanSkip d) := by
  rw [← decodeScan_beatWord]; rfl

theorem decodeWord_beat_decoding (cfg : Cfg) (e o : Bool) (d c : Byte) :
    decodeWord .decoding cfg (.beat (beatWord e o d) c) =
      .ok (if e then .fillIoerr o d c else if o then .fillEos d else .fill d) := by
  rw [← decodeFill_beatWord]; rfl

theorem decodeWord_event_of_rst {w : BitVec 3} (hw : w.getLsbD 2 = true) (st : St) (cfg cfgPins : Cfg) :
    decodeWord st cfg (.event w cfgPins) = .ok (.reset (w.getLsbD 1) (w.getLsbD 0) cfgPins) := by
  rw [decodeWord, decodeEvent, if_pos hw]

/-- Without `rst` an event word selects `OUT`, in a holding state, or nothing. -/
theorem decodeWord_event_of_not_rst {w : BitVec 3} (hw : w.getLsbD 2 = false) {st : St} {cfg cfgPins : Cfg}
    {i : Instr} : decodeWord st cfg (.event w cfgPins) = .ok i ↔
      w.getLsbD 1 = true ∧ w.getLsbD 0 = false ∧ st.holding = true ∧ i = .out := by
  rw [decodeWord, decodeEvent, hw, if_neg Bool.false_ne_true]
  cases w.getLsbD 1 <;> cases w.getLsbD 0 <;> cases st.holding <;> simp [eq_comm (b := i)]

theorem decodeWord_packet (cfg : Cfg) (p : BitVec 48) :
    decodeWord .decoding cfg (.packet p) = .ok (decodePacket cfg p) := by
  rw [decodeWord, if_pos rfl]

/-- A length of 1 or more is not 0. -/
theorem ne_zero_of_one_le {l : Byte} (h : 1#8 ≤ l) : l ≠ 0#8 := by
  rintro rfl
  exact absurd h (by decide)

/-- A length of 183 or more is neither 0 nor one of those a packet with payload can have (R143). -/
theorem not_le_max_of_badlen {l : Byte} (h : Config.afLenNoPayload ≤ l) :
    1#8 ≤ l ∧ ¬ l ≤ Config.afLenMaxWithPayload := by
  have hlow : 183 ≤ l.toNat := BitVec.le_def.1 h
  refine ⟨BitVec.le_def.2 (Nat.le_trans (by decide) hlow), fun hle => ?_⟩
  exact absurd (hlow.trans (BitVec.le_def.1 hle)) (by decide)

/-- The context of the rows below `TS_BAD_SYNC`. -/
theorem packet_context {st : St} {cfg : Cfg} {b0 : Byte} (h : (st == .decoding && passesSyncCheck cfg b0) = true) :
    st = .decoding ∧ passesSyncCheck cfg b0 = true := by
  simpa using h

/-- The row of R80 that packed bytes select, with the condition of each row. -/
inductive PrefixRow (cfg : Cfg) (b0 : Byte) (h : HdrFields) (l f : Byte) : BitVec 2 → Instr → Prop where
  | badSync (hcheck : cfg.checkSync = true) (hne : b0 ≠ Config.syncByte) (afc : BitVec 2) :
      PrefixRow cfg b0 h l f afc (.tsBadSync b0 h afc l f)
  | reserved (hsync : passesSyncCheck cfg b0 = true) : PrefixRow cfg b0 h l f 0b00#2 (.tsReserved b0 h l f)
  | payload (hsync : passesSyncCheck cfg b0 = true) : PrefixRow cfg b0 h l f 0b01#2 (.tsPayload b0 h l f)
  | afOnly (hsync : passesSyncCheck cfg b0 = true) (hlen : l = Config.afLenNoPayload) :
      PrefixRow cfg b0 h l f 0b10#2 (.tsAfOnly b0 h f)
  | afOnlyBadlen (hsync : passesSyncCheck cfg b0 = true) (hlen : l ≠ Config.afLenNoPayload) :
      PrefixRow cfg b0 h l f 0b10#2 (.tsAfOnlyBadlen b0 h l f)
  | afPayloadEmpty (hsync : passesSyncCheck cfg b0 = true) (hlen : l = 0#8) :
      PrefixRow cfg b0 h l f 0b11#2 (.tsAfPayloadEmpty b0 h f)
  | afPayload (hsync : passesSyncCheck cfg b0 = true) (hlow : 1#8 ≤ l) (hhigh : l ≤ Config.afLenMaxWithPayload) :
      PrefixRow cfg b0 h l f 0b11#2 (.tsAfPayload b0 h l f)
  | afPayloadBadlen (hsync : passesSyncCheck cfg b0 = true) (hlow : Config.afLenNoPayload ≤ l) :
      PrefixRow cfg b0 h l f 0b11#2 (.tsAfPayloadBadlen b0 h l f)

theorem prefixRow_decodePacket (cfg : Cfg) (b0 : Byte) (h : HdrFields) (afc : BitVec 2) (l f : Byte) :
    PrefixRow cfg b0 h l f afc (decodePacket cfg (packPrefix b0 h afc l f)) := by
  by_cases hsync : passesSyncCheck cfg b0 = true
  · obtain rfl | rfl | rfl | rfl : afc = 0b00#2 ∨ afc = 0b01#2 ∨ afc = 0b10#2 ∨ afc = 0b11#2 := afc_cases afc
    · rw [decodePacket_of_reserved hsync]; exact .reserved hsync
    · rw [decodePacket_of_payload hsync]; exact .payload hsync
    · rw [decodePacket_of_afOnly hsync]
      split
      · exact .afOnly hsync ‹_›
      · exact .afOnlyBadlen hsync ‹_›
    · rw [decodePacket_of_afPayload hsync]
      split
      · exact .afPayloadEmpty hsync ‹_›
      split
      · exact .afPayload hsync (BitVec.le_def.2 (BitVec.lt_def.1 (byte_pos ‹_›))) ‹_›
      · rename_i hbad
        have hlt : 182 < l.toNat := BitVec.lt_def.1 (BitVec.not_le.1 hbad)
        exact .afPayloadBadlen hsync (BitVec.le_def.2 hlt)
  · rw [Bool.not_eq_true] at hsync
    obtain ⟨hcheck, hne⟩ := (passesSyncCheck_eq_false_iff cfg b0).1 hsync
    rw [decodePacket_of_badSync hsync]; exact .badSync hcheck hne afc

/-! ## The two directions -/

/-- Settles O57, by cases on the instruction: past the sync check (or by failing it) the control bits and the length of
the packed bytes select its row. -/
theorem decodeOfEncodeIsTheInstruction : Obligations.DecodeOfEncodeIsTheInstruction := by
  intro i st cfg w hwf hctx hw
  cases i with
  | scanIoerr | scanEos | scanHit =>
    obtain rfl : st = .seeking := by simpa [Instr.inContext] using hctx
    cases hw
    rw [decodeWord_beat_seeking]
    rfl
  | scanSkip d =>
    obtain rfl : st = .seeking := by simpa [Instr.inContext] using hctx
    have hne : d ≠ Config.syncByte := by simpa [Instr.wf] using hwf
    cases hw
    simp [decodeWord_beat_seeking, hne]
  | fillIoerr | fillEos | fill =>
    obtain rfl : st = .decoding := by simpa [Instr.inContext] using hctx
    cases hw
    rw [decodeWord_beat_decoding]
    rfl
  | tsBadSync b0 h afc l f =>
    obtain ⟨rfl, hcheck⟩ : st = .decoding ∧ cfg.checkSync = true := by simpa [Instr.inContext] using hctx
    have hne : b0 ≠ Config.syncByte := by simpa [Instr.wf] using hwf
    cases hw
    rw [decodeWord_packet, decodePacket_of_badSync ((passesSyncCheck_eq_false_iff cfg b0).2 ⟨hcheck, hne⟩)]
  | tsReserved b0 h l f =>
    obtain ⟨rfl, hsync⟩  := packet_context hctx
    cases hw
    rw [decodeWord_packet, decodePacket_of_reserved hsync]
  | tsPayload b0 h l f =>
    obtain ⟨rfl, hsync⟩  := packet_context hctx
    cases hw
    rw [decodeWord_packet, decodePacket_of_payload hsync]
  | tsAfOnly b0 h f =>
    obtain ⟨rfl, hsync⟩  := packet_context hctx
    cases hw
    rw [decodeWord_packet, decodePacket_of_afOnly hsync, if_pos rfl]
  | tsAfOnlyBadlen b0 h l f =>
    obtain ⟨rfl, hsync⟩  := packet_context hctx
    have hne : l ≠ Config.afLenNoPayload := by simpa [Instr.wf] using hwf
    cases hw
    rw [decodeWord_packet, decodePacket_of_afOnly hsync, if_neg hne]
  | tsAfPayloadEmpty b0 h f =>
    obtain ⟨rfl, hsync⟩  := packet_context hctx
    cases hw
    rw [decodeWord_packet, decodePacket_of_afPayload hsync, if_pos rfl]
  | tsAfPayload b0 h l f =>
    obtain ⟨rfl, hsync⟩  := packet_context hctx
    obtain ⟨hlow, hhigh⟩ : 1#8 ≤ l ∧ l ≤ Config.afLenMaxWithPayload := by
      simpa only [Instr.wf, Bool.and_eq_true, decide_eq_true_eq] using hwf
    cases hw
    rw [decodeWord_packet, decodePacket_of_afPayload hsync, if_neg (ne_zero_of_one_le hlow), if_pos hhigh]
  | tsAfPayloadBadlen b0 h l f =>
    obtain ⟨rfl, hsync⟩  := packet_context hctx
    have hlow : Config.afLenNoPayload ≤ l := by simpa only [Instr.wf, decide_eq_true_eq] using hwf
    obtain ⟨hone, hbad⟩ := not_le_max_of_badlen hlow
    cases hw
    rw [decodeWord_packet, decodePacket_of_afPayload hsync, if_neg (ne_zero_of_one_le hone), if_neg hbad]
  | reset o n c =>
    cases hw
    rw [decodeWord_event_of_rst (getLsbD_eventWord_2 ..), getLsbD_eventWord_1, getLsbD_eventWord_0]
  | out =>
    have hhold : st.holding = true := hctx
    cases hw
    exact (decodeWord_event_of_not_rst (getLsbD_eventWord_2 ..)).2
      ⟨getLsbD_eventWord_1 .., getLsbD_eventWord_0 .., hhold, rfl⟩
  | findSync | decode | next | isPat | hasAf | hasPayload => cases hw

/-- A beat word in a state that accepts it selects a well-formed row of that state, whose word it is. -/
theorem encode_of_decodeBeat {st : St} {cfg : Cfg} {w : BitVec 10} {c : Byte} {i : Instr}
    (hi : decodeBeat st w c = .ok i) :
    i.wf = true ∧ i.inContext st cfg = true ∧ (encode i).map Word.bits = some (Word.beat w c).bits := by
  have hw := beatWord_fields w
  generalize beatErr w = e, beatEos w = o, beatData w = d at hw
  subst hw
  cases st with
  | seeking =>
    cases (decodeWord_beat_seeking cfg e o d c).symm.trans hi
    cases e with
    | true => exact ⟨rfl, rfl, rfl⟩
    | false =>
    cases o with
    | true => exact ⟨rfl, rfl, rfl⟩
    | false => by_cases hd : d = Config.syncByte <;> simp [hd, Instr.wf, Instr.inContext, encode, Word.bits]
  | decoding =>
    cases (decodeWord_beat_decoding cfg e o d c).symm.trans hi
    cases e with
    | true => exact ⟨rfl, rfl, rfl⟩
    | false => cases o <;> exact ⟨rfl, rfl, rfl⟩
  | yield | decodeFailed | seekFailed | terminated | fatal => cases hi

theorem encode_of_decodePacket (cfg : Cfg) (p : BitVec 48) :
    (decodePacket cfg p).wf = true ∧ (decodePacket cfg p).inContext .decoding cfg = true ∧
      encode (decodePacket cfg p) = some (.packet p) := by
  have hrow := prefixRow_decodePacket cfg (prefixSync p) (prefixHdr p) (prefixAfc p) (prefixLen p) (prefixFlags p)
  have hp := packPrefix_fields p
  rw [hp] at hrow
  generalize prefixSync p = b0, prefixHdr p = h, prefixAfc p = afc, prefixLen p = l, prefixFlags p = f,
    decodePacket cfg p = i at hrow hp
  subst hp
  cases hrow with
  | badSync hcheck hne => simp [Instr.wf, Instr.inContext, encode, hcheck, hne]
  | reserved hsync | payload hsync => simp [Instr.wf, Instr.inContext, encode, hsync]
  | afOnly hsync hlen | afOnlyBadlen hsync hlen | afPayloadEmpty hsync hlen =>
    simp [Instr.wf, Instr.inContext, encode, hsync, hlen]
  | afPayload hsync hlow hhigh => simp only [Instr.wf, Instr.inContext, encode, hsync, hlow, hhigh]; decide
  | afPayloadBadlen hsync hlow => simp only [Instr.wf, Instr.inContext, encode, hsync, hlow]; decide

/-- Settles O58, by cases on the format of the word. -/
theorem encodeOfDecodeIsTheWord : Obligations.EncodeOfDecodeIsTheWord := by
  intro st cfg w i hi
  cases w with
  | event w cfgPins =>
    cases hw : w.getLsbD 2 with
    | true =>
      cases (decodeWord_event_of_rst hw st cfg cfgPins).symm.trans hi
      have hbits := eventWord_bits w
      rw [hw] at hbits
      exact ⟨rfl, rfl, by rw [encode, hbits]; rfl⟩
    | false =>
      obtain ⟨h1, h0, hhold, rfl⟩ := (decodeWord_event_of_not_rst hw).1 hi
      have hbits := eventWord_bits w
      rw [hw, h1, h0] at hbits
      exact ⟨rfl, hhold, by rw [encode, hbits]; rfl⟩
  | beat w c => exact encode_of_decodeBeat hi
  | packet p =>
    rw [decodeWord] at hi
    split at hi
    · rename_i hst
      subst hst
      cases hi
      obtain ⟨hwf, hctx, henc⟩ := encode_of_decodePacket cfg p
      exact ⟨hwf, hctx, by rw [henc, Option.map_some]⟩
    · cases hi

/-! ## The first matching row -/

/-- Masking a beat word to all its bits, which are those of `SCAN_HIT` for a sync byte as data (R78). -/
theorem and_full_mask_eq_sync (e o : Bool) (d : Byte) :
    (beatWord e o d).setWidth 48 &&& 0x3FF#48 = 0x47#48 ↔ e = false ∧ o = false ∧ d = Config.syncByte := by
  constructor
  · intro h
    have hbit (i : Nat) (hi : i < 10) : (beatWord e o d).getLsbD i = (0x47#48).getLsbD i := by
      rw [← h, BitVec.getLsbD_and, BitVec.getLsbD_setWidth]
      interval_cases i <;> simp
    have hdata : prefixFlags ((beatWord e o d).setWidth 48) = Config.syncByte := by
      apply BitVec.eq_of_getLsbD_eq
      intro i hi
      rw [prefixFlags, BitVec.getLsbD_extractLsb', BitVec.getLsbD_setWidth, Nat.zero_add, hbit i (by omega)]
      interval_cases i <;> rfl
    have herr := hbit 9 (by decide)
    have heos := hbit 8 (by decide)
    rw [getLsbD_beatWord] at herr heos
    exact ⟨by simpa using herr, by simpa using heos, by rwa [data_beatWord] at hdata⟩
  · rintro ⟨rfl, rfl, rfl⟩
    rfl

theorem find_scanRows (cfg : Cfg) (e o : Bool) (d c : Byte) :
    (scanRows.find? (Row.applies cfg ((beatWord e o d).setWidth 48))).map Row.mnemonic =
      some (decodeScan (beatWord e o d) c).row.mnemonic := by
  rw [decodeScan_beatWord]
  cases e with
  | true => simp [scanRows, Row.applies, Instr.row, Side.holds, and_err_mask, place]
  | false =>
  cases o with
  | true => simp [scanRows, Row.applies, Instr.row, Side.holds, and_err_mask, and_kind_mask, place]
  | false =>
  by_cases hd : d = Config.syncByte
  · simp [scanRows, Row.applies, Instr.row, Side.holds, and_err_mask, and_kind_mask, and_full_mask_eq_sync, place, hd]
  · simp [scanRows, Row.applies, Instr.row, Side.holds, and_err_mask, and_kind_mask, and_full_mask_eq_sync,
      data_beatWord, place, hd]

theorem find_fillRows (cfg : Cfg) (e o : Bool) (d c : Byte) :
    (fillRows.find? (Row.applies cfg ((beatWord e o d).setWidth 48))).map Row.mnemonic =
      some (decodeFill (beatWord e o d) c).row.mnemonic := by
  rw [decodeFill_beatWord]
  cases e with
  | true => simp [fillRows, Row.applies, Instr.row, Side.holds, and_err_mask, place]
  | false => cases o <;> simp [fillRows, Row.applies, Instr.row, Side.holds, and_err_mask, and_kind_mask, place]

/-- The row `TS_BAD_SYNC` applies exactly when the sync check fails. -/
theorem applies_tsBadSync (cfg : Cfg) (p : BitVec 48) :
    (Instr.tsBadSync 0 .zero 0 0 0).row.applies cfg p = !passesSyncCheck cfg (prefixSync p) := by
  simp [Row.applies, Instr.row, Side.holds, passesSyncCheck, bne, Bool.and_comm]

/-- A row whose mask is the control bits. -/
theorem applies_afc_mask (cfg : Cfg) (p : BitVec 48) (m : String) (afc : BitVec 2) (side : Side) :
    Row.applies cfg p ⟨m, place 48 20 afc, 0x300000#48, side⟩ = (prefixAfc p == afc && side.holds cfg p) := by
  have hiff : place 48 20 (prefixAfc p) = place 48 20 afc ↔ prefixAfc p = afc := by
    generalize prefixAfc p = a
    revert a afc; decide
  rw [Bool.eq_iff_iff]
  simp [Row.applies, and_afc_mask, hiff]

/-- A row whose mask is the control bits and the length byte. -/
theorem applies_afc_len_mask (cfg : Cfg) (p : BitVec 48) (m : String) (afc : BitVec 2) (l : Byte) :
    Row.applies cfg p ⟨m, place 48 20 afc ||| place 48 8 l, 0x30FF00#48, .always⟩ =
      (prefixAfc p == afc && prefixLen p == l) := by
  have hafc (a : BitVec 2) (n : Byte) : prefixAfc (place 48 20 a ||| place 48 8 n) = a := by
    apply BitVec.eq_of_getLsbD_eq
    intro i hi
    rw [prefixAfc, BitVec.getLsbD_extractLsb', BitVec.getLsbD_or, getLsbD_place, getLsbD_place]
    interval_cases i <;> simp
  have hlen (a : BitVec 2) (n : Byte) : prefixLen (place 48 20 a ||| place 48 8 n) = n := by
    apply BitVec.eq_of_getLsbD_eq
    intro i hi
    rw [prefixLen, BitVec.getLsbD_extractLsb', BitVec.getLsbD_or, getLsbD_place, getLsbD_place]
    interval_cases i <;> simp
  have hiff : place 48 20 (prefixAfc p) ||| place 48 8 (prefixLen p) = place 48 20 afc ||| place 48 8 l ↔
      prefixAfc p = afc ∧ prefixLen p = l := by
    refine ⟨fun h => ⟨?_, ?_⟩, fun ⟨ha, hl⟩ => by rw [ha, hl]⟩
    · rw [← hafc (prefixAfc p) (prefixLen p), h, hafc]
    · rw [← hlen (prefixAfc p) (prefixLen p), h, hlen]
  rw [Bool.eq_iff_iff]
  simp [Row.applies, Side.holds, and_afc_len_mask, hiff]

theorem applies_tsReserved (cfg : Cfg) (p : BitVec 48) :
    (Instr.tsReserved 0 .zero 0 0).row.applies cfg p = (prefixAfc p == 0b00#2 && true) :=
  applies_afc_mask cfg p _ 0b00#2 .always

theorem applies_tsPayload (cfg : Cfg) (p : BitVec 48) :
    (Instr.tsPayload 0 .zero 0 0).row.applies cfg p = (prefixAfc p == 0b01#2 && true) :=
  applies_afc_mask cfg p _ 0b01#2 .always

theorem applies_tsAfOnly (cfg : Cfg) (p : BitVec 48) :
    (Instr.tsAfOnly 0 .zero 0).row.applies cfg p = (prefixAfc p == 0b10#2 && prefixLen p == 183#8) :=
  applies_afc_len_mask cfg p _ 0b10#2 183#8

theorem applies_tsAfOnlyBadlen (cfg : Cfg) (p : BitVec 48) :
    (Instr.tsAfOnlyBadlen 0 .zero 0 0).row.applies cfg p = (prefixAfc p == 0b10#2 && prefixLen p != 183#8) :=
  applies_afc_mask cfg p _ 0b10#2 .lenNot183

theorem applies_tsAfPayloadEmpty (cfg : Cfg) (p : BitVec 48) :
    (Instr.tsAfPayloadEmpty 0 .zero 0).row.applies cfg p = (prefixAfc p == 0b11#2 && prefixLen p == 0#8) :=
  applies_afc_len_mask cfg p _ 0b11#2 0#8

theorem applies_tsAfPayload (cfg : Cfg) (p : BitVec 48) :
    (Instr.tsAfPayload 0 .zero 0 0).row.applies cfg p =
      (prefixAfc p == 0b11#2 && (decide (1#8 ≤ prefixLen p) && decide (prefixLen p ≤ 182#8))) :=
  applies_afc_mask cfg p _ 0b11#2 .len1To182

theorem applies_tsAfPayloadBadlen (cfg : Cfg) (p : BitVec 48) :
    (Instr.tsAfPayloadBadlen 0 .zero 0 0).row.applies cfg p = (prefixAfc p == 0b11#2 && decide (183#8 ≤ prefixLen p)) :=
  applies_afc_mask cfg p _ 0b11#2 .lenFrom183

theorem find_packetRows (cfg : Cfg) (p : BitVec 48) :
    (packetRows.find? (Row.applies cfg p)).map Row.mnemonic = some (decodePacket cfg p).row.mnemonic := by
  have hrow := prefixRow_decodePacket cfg (prefixSync p) (prefixHdr p) (prefixAfc p) (prefixLen p) (prefixFlags p)
  have hp := packPrefix_fields p
  rw [hp] at hrow
  generalize prefixSync p = b0, prefixHdr p = h, prefixAfc p = afc, prefixLen p = l, prefixFlags p = f,
    decodePacket cfg p = i at hrow hp
  subst hp
  simp only [packetRows, List.find?_cons, applies_tsBadSync, applies_tsReserved, applies_tsPayload, applies_tsAfOnly,
    applies_tsAfOnlyBadlen, applies_tsAfPayloadEmpty, applies_tsAfPayload, applies_tsAfPayloadBadlen,
    prefixSync_packPrefix, prefixAfc_packPrefix, prefixLen_packPrefix]
  cases hrow with
  | badSync hcheck hne => rw [(passesSyncCheck_eq_false_iff cfg b0).2 ⟨hcheck, hne⟩]; rfl
  | reserved hsync | payload hsync => rw [hsync]; rfl
  | afOnly hsync hlen | afPayloadEmpty hsync hlen => rw [hsync, hlen]; rfl
  | afOnlyBadlen hsync hlen =>
    have hne : (l == 183#8) = false := beq_false_of_ne hlen
    rw [hsync, bne, hne]; rfl
  | afPayload hsync hlow hhigh =>
    have hzero : (l == 0#8) = false := beq_false_of_ne (ne_zero_of_one_le hlow)
    rw [hsync, hzero, decide_eq_true hlow, decide_eq_true hhigh]; rfl
  | afPayloadBadlen hsync hlow =>
    obtain ⟨hone, hbad⟩ := not_le_max_of_badlen hlow
    have hzero : (l == 0#8) = false := beq_false_of_ne (ne_zero_of_one_le hone)
    rw [hsync, hzero, decide_eq_true hone, decide_eq_false hbad, decide_eq_true hlow]; rfl

/-- The event rows of a state, for each of the eight event words. -/
theorem find_eventRows (st : St) (cfg cfgPins : Cfg) (rst outFire inFire : Bool) :
    ((eventRows st).find? (Row.applies cfg ((eventWord rst outFire inFire).setWidth 48))).map Row.mnemonic =
      (decodeWord st cfg (.event (eventWord rst outFire inFire) cfgPins)).toOption.map fun i => i.row.mnemonic := by
  unfold eventRows decodeWord decodeEvent
  cases st.holding <;> cases rst <;> cases outFire <;> cases inFire <;> rfl

/-- Settles O59: the beat rows by the fields of the beat word, the packet rows by those of the six bytes; the event
words are eight. -/
theorem decoderSelectsTheFirstMatchingRow : Obligations.DecoderSelectsTheFirstMatchingRow := by
  refine ⟨fun cfg w c => ?_, find_packetRows, fun st cfg cfgPins w => ?_⟩
  · rw [← beatWord_fields w]
    exact ⟨find_scanRows .., find_fillRows ..⟩
  · rw [← eventWord_bits w]
    exact find_eventRows ..

/-- Settles O60: each of the six words is decoded. -/
theorem wordsOfTheSpecDecode : Obligations.WordsOfTheSpecDecode := by
  exact ⟨rfl, rfl, rfl, rfl, rfl, rfl⟩

end Sys2Proof
end

section
/-! PROOFS. Unpacking and packing bytes 1 to 3 and the flag byte (R84, R121, R129, R145), and what follows for a decoded
packet: it is well formed (R142, R143) and its payload runs to the end of the window (R58). -/

namespace Sys2Proof.Machine

/-! ## Bits as digits -/

/-- A bit of a word is the digit of its weight. -/
theorem toNat_getLsbD {n : Nat} (b : BitVec n) (i : Nat) : (b.getLsbD i).toNat = b.toNat / 2 ^ i % 2 := by
  rw [BitVec.getLsbD, Nat.toNat_testBit]

/-- `pid` is the low five bits of byte 1 above byte 2 (R74). -/
theorem toNat_assemblePid (b1 b2 : Byte) : (assemblePid b1 b2).toNat = 256 * (b1.toNat % 32) + b2.toNat := by
  have hb1 := b1.isLt
  have hb2 := b2.isLt
  have hmask : b1.toNat &&& 31 = b1.toNat % 32 := Nat.and_two_pow_sub_one_eq_mod b1.toNat 5
  have hor : b1.toNat % 32 * 256 ||| b2.toNat = b1.toNat % 32 * 256 + b2.toNat := by
    rw [Nat.mul_comm]
    exact (Nat.two_pow_add_eq_or_of_lt (i := 8) hb2 _).symm
  have hm1 : b1.toNat % 65536 = b1.toNat := Nat.mod_eq_of_lt (by omega)
  have hm2 : b2.toNat % 65536 = b2.toNat := Nat.mod_eq_of_lt (by omega)
  have hm3 : b1.toNat % 32 * 256 % 65536 = b1.toNat % 32 * 256 := Nat.mod_eq_of_lt (by omega)
  simp [assemblePid, hm1, hm2, hmask, Nat.shiftLeft_eq, hm3, hor, Nat.mul_comm]

/-- Settles O24: each field is a digit, or a run of digits, of its byte. -/
theorem headerFieldsAreTheirBits : Obligations.HeaderFieldsAreTheirBits := by
  intro b1 b2 b3
  have hb1 := b1.isLt
  have hb2 := b2.isLt
  have hb3 := b3.isLt
  simp only [unpackHeader, toNat_getLsbD, toNat_assemblePid, BitVec.extractLsb'_toNat, Nat.shiftRight_eq_div_pow]
  refine ⟨?_, trivial, ?_⟩
  · omega
  · omega

theorem toNat_pid_le (b1 b2 b3 : Byte) : (unpackHeader b1 b2 b3).pid.toNat ≤ Config.pidMax := by
  have hb2 := b2.isLt
  have hpid : (unpackHeader b1 b2 b3).pid.toNat = _ := toNat_assemblePid b1 b2
  rw [hpid, Config.pidMax]
  omega

/-! ## Packing and unpacking are inverse -/

/-- The operand fields of a header made of operand fields. -/
theorem fieldsOf_headerOf (h : HdrFields) (afc : BitVec 2) : fieldsOf (headerOf h afc) = h := by
  simp [fieldsOf, headerOf]

theorem packHeader_unpackHeader (b1 b2 b3 : Byte) :
    packHeader (fieldsOf (unpackHeader b1 b2 b3)) (unpackHeader b1 b2 b3).afc = (b1, b2, b3) := by
  refine Prod.ext ?_ (Prod.ext ?_ ?_) <;> apply BitVec.eq_of_getLsbD_eq <;> intro i hi
  · rw [getLsbD_packHeader_1 _ _ _ hi]
    simp only [fieldsOf, unpackHeader, assemblePid, BitVec.getLsbD_setWidth, BitVec.getLsbD_or,
      BitVec.getLsbD_shiftLeft, BitVec.getLsbD_and]
    interval_cases i <;> simp
  · rw [getLsbD_packHeader_2 _ _ _ hi]
    simp only [fieldsOf, unpackHeader, assemblePid, BitVec.getLsbD_setWidth, BitVec.getLsbD_or,
      BitVec.getLsbD_shiftLeft, BitVec.getLsbD_and]
    interval_cases i <;> simp
  · rw [getLsbD_packHeader_3 _ _ _ hi]
    simp only [fieldsOf, unpackHeader, BitVec.getLsbD_extractLsb']
    interval_cases i <;> simp

/-- Settles O25: the header unpacked from packed fields is the header made of them. -/
theorem headerRoundTrip : Obligations.HeaderRoundTrip := by
  refine ⟨fun h afc => ?_, fun b1 b2 b3 => ⟨packHeader_unpackHeader b1 b2 b3, toNat_pid_le b1 b2 b3⟩⟩
  rw [← headerOf_eq_unpackHeader]
  exact ⟨fieldsOf_headerOf h afc, rfl⟩

/-- Bit `i` of packed flags (R84). -/
theorem getLsbD_packAfFlags (f : AfFlags) (i : Nat) (hi : i < 8) : (packAfFlags f).getLsbD i =
    [f.afe, f.tpd, f.sp, f.opcr, f.pcr, f.espi, f.rai, f.di].getD i false := by
  simp only [packAfFlags, BitVec.getLsbD_or, getLsbD_place, BitVec.getLsbD_ofBool]
  interval_cases i <;> simp

/-- Settles O26: a flag is the digit of its weight, and the packed bit of its place. -/
theorem afFlagsAreTheBitsOfTheByte : Obligations.AfFlagsAreTheBitsOfTheByte := by
  refine ⟨fun b => ⟨?_, ?_⟩, fun f => ?_⟩
  · have hb := b.isLt
    simp only [unpackAfFlags, toNat_getLsbD]
    omega
  · apply BitVec.eq_of_getLsbD_eq
    intro i hi
    rw [getLsbD_packAfFlags _ _ hi]
    interval_cases i <;> rfl
  · simp only [unpackAfFlags, getLsbD_packAfFlags _ _ (show 7 < 8 by decide),
      getLsbD_packAfFlags _ _ (show 6 < 8 by decide), getLsbD_packAfFlags _ _ (show 5 < 8 by decide),
      getLsbD_packAfFlags _ _ (show 4 < 8 by decide), getLsbD_packAfFlags _ _ (show 3 < 8 by decide),
      getLsbD_packAfFlags _ _ (show 2 < 8 by decide), getLsbD_packAfFlags _ _ (show 1 < 8 by decide),
      getLsbD_packAfFlags _ _ (show 0 < 8 by decide)]
    rfl

/-! ## A decoded packet -/

/-- A legal length: 183 without payload, at most 182 with one (R143). -/
theorem legalLength_cases {afc : BitVec 2} {l : Byte} (h : legalLength afc l = true) :
    (afc = 0b10#2 ∧ l = 183#8) ∨ (afc = 0b11#2 ∧ l ≤ 182#8) := by
  simp only [legalLength, Bool.or_eq_true, Bool.and_eq_true, beq_iff_eq, decide_eq_true_eq] at h
  exact h.symm

theorem packetOk_of_decode {cfg : Cfg} {buf : List Byte} {pkt : TransportPacket} (h : decode cfg buf = .ok pkt) :
    packetOk pkt = true := by
  obtain ⟨hhdr, hfield⟩ := decode_ok_fields h
  have hpid : pkt.header.pid.toNat ≤ Config.pidMax := by rw [hhdr]; exact toNat_pid_le ..
  obtain ⟨haf, hnone⟩ | ⟨haf, af, hsome, hdec⟩ := hfield
  · simp [packetOk, hpid, haf, hnone]
  · obtain ⟨hlegal, hlen, hflags⟩ := decodeAf_eq_ok_iff.1 hdec
    rw [← hlen] at hlegal hflags
    have hpresent : af.header.isSome = (af.length != 0#8) := by
      by_cases hzero : af.length = 0#8 <;> simp [hflags, hzero]
    obtain ⟨hafc, hl⟩ | ⟨hafc, hl⟩ := legalLength_cases hlegal
    · simp [packetOk, hpid, haf, hsome, hpresent, hafc, hl]
    · have hne : af.length ≠ 183#8 := by intro heq; rw [heq] at hl; exact absurd hl (by decide)
      have hle : af.length ≤ 183#8 := BitVec.le_def.2 ((BitVec.le_def.1 hl).trans (by decide))
      simp [packetOk, hpid, haf, hsome, hpresent, hafc, hne, hle]

/-- Loading a result that is well formed keeps that every result is. -/
theorem PacketsOk.load {s t : State} (h : PacketsOk s) (hem : t.emitted = s.emitted)
    (hres : ∀ r, t.res = some r → r.packetOk = true) : PacketsOk t := by
  intro r hr
  rw [hem, List.mem_append, Option.mem_toList] at hr
  obtain hr | hr := hr
  · exact h r (List.mem_append_left _ hr)
  · exact hres r hr

/-- Settles O50, by cases on the effect of the edge: only the completed window loads a packet, and it is the one that
`decode` answers. -/
theorem everyStepKeepsPacketsWellFormed : Obligations.EveryStepKeepsPacketsWellFormed := by
  intro s t hs h
  obtain ⟨-, rfl⟩ | ⟨p, ps, -, heff⟩ := step_cases h
  · exact hs
  cases heff with
  | reset => simp [PacketsOk]
  | out => simpa [PacketsOk] using hs
  | scanHit | scanSkip | scanEos | fill | idle => exact hs
  | fillLast _ _ hst _ _ _ hidx t ht =>
    rw [fillLast_eq hst hidx ht]
    refine PacketsOk.load hs (by simp) fun r hr => ?_
    have hlast : s.idx = 187#8 := BitVec.eq_of_toNat_eq hidx
    obtain ⟨pkt, hdec, hload⟩ | ⟨e, -, -, hload⟩ :=
      loadDecoded_cases (cfg := s.cfg) (idx_fill_last (s := { s with inputs := ps }) hlast p.inData)
    · rw [hload] at hr
      cases hr
      exact packetOk_of_decode hdec
    · rw [hload] at hr
      cases hr
      rfl
  | scanIoerr | fillEos | fillIoerr =>
    refine PacketsOk.load hs rfl fun r hr => ?_
    cases hr
    rfl

theorem hasPayload_iff (hdr : Header) : hdr.hasPayload = true ↔ hdr.afc.toNat % 2 = 1 := by
  have hbit : ∀ afc : BitVec 2, afc.getLsbD 0 = true ↔ afc.toNat % 2 = 1 := by decide
  exact hbit hdr.afc

/-- Settles O30, by the control bits: a packet with payload has no field, or one of at most 182 bytes. -/
theorem payloadFillsTheRestOfTheWindow : Obligations.PayloadFillsTheRestOfTheWindow := by
  intro cfg buf pkt hok
  obtain ⟨-, hfield⟩ := decode_ok_fields hok
  obtain hafc | hafc | hafc | hafc : pkt.header.afc = 0b00#2 ∨ pkt.header.afc = 0b01#2 ∨ pkt.header.afc = 0b10#2 ∨
      pkt.header.afc = 0b11#2 := afc_cases _
  · simp [Header.hasPayload, payloadRange, hafc]
  · simp [Header.hasPayload, payloadRange, hafc]
  · simp [Header.hasPayload, payloadRange, hafc]
  · obtain ⟨haf, -⟩ | ⟨-, af, hsome, hdec⟩ := hfield
    · simp [Header.hasAf, hafc] at haf
    · obtain ⟨hlegal, hlen, -⟩ := decodeAf_eq_ok_iff.1 hdec
      obtain ⟨hno, -⟩ | ⟨-, hle⟩ := legalLength_cases hlegal
      · rw [hafc] at hno; exact absurd hno (by decide)
      · rw [← hlen] at hle
        have hle' : af.length.toNat ≤ 182 := BitVec.le_def.1 hle
        have hrange : payloadRange pkt = (5 + af.length.toNat, 183 - af.length.toNat) := by
          simp [payloadRange, hafc, hsome]
        rw [hrange]
        refine ⟨fun _ => ⟨?_, ?_, ?_⟩, fun hno => ?_⟩
        · dsimp only; omega
        · dsimp only; omega
        · dsimp only; omega
        · simp [Header.hasPayload, hafc] at hno

end Sys2Proof.Machine
end

section
/-! PROOFS. The contract's functions: the search run again (R106), and the whole block as one function (R163), case by
case, with what holds of its results; and that the sync check never fails in the composed block (R124). -/

namespace Sys2Proof.Machine

/-! ## The search -/

theorem findSync_found_iff {S : Source} {p q : Nat} : findSync S p = .found q ↔
    p ≤ q ∧ S.bytes[q]? = some Config.syncByte ∧ ∀ r, p ≤ r → r < q → S.bytes[r]? ≠ some Config.syncByte :=
  findSync_eq_found.trans firstSync_drop_eq_some

theorem lt_length_of_found {S : Source} {p q : Nat} (h : findSync S p = .found q) : q < S.bytes.length := by
  obtain ⟨-, hat, -⟩ := findSync_found_iff.1 h
  exact (List.getElem?_eq_some_iff.1 hat).1

/-- A search that starts on a sync byte ends there. -/
theorem findSync_of_sync {S : Source} {q : Nat} (h : S.bytes[q]? = some Config.syncByte) : findSync S q = .found q :=
  findSync_found_iff.2 ⟨le_rfl, h, fun _ hle hlt => absurd hlt (Nat.not_lt.2 hle)⟩

/-- Settles O34: at the offset found stands a sync byte. -/
theorem findSyncIsIdempotent : Obligations.FindSyncIsIdempotent := by
  intro S p q h
  obtain ⟨hle, hat, -⟩ := findSync_found_iff.1 h
  exact ⟨findSync_of_sync hat, hle, lt_length_of_found h⟩

/-- A byte that is not the sync byte is passed over. -/
theorem findSync_succ {S : Source} {p : Nat} {d : Byte} (h : S.bytes[p]? = some d) (hd : d ≠ Config.syncByte) :
    findSync S p = findSync S (p + 1) := by
  obtain ⟨hlt, hat⟩ := List.getElem?_eq_some_iff.1 h
  rw [findSync, List.drop_eq_getElem_cons hlt, firstSync, hat, if_neg hd, findSync]

/-- Without a byte left the search answers the terminator. -/
theorem findSync_at_eos {S : Source} (h : S.term = .eos) : findSync S S.bytes.length = .endOfStream :=
  findSync_eq_endOfStream.2 ⟨by simp [firstSync], h⟩

theorem findSync_at_ioerr {S : Source} {c : Byte} (h : S.term = .ioerr c) : findSync S S.bytes.length = .io c :=
  findSync_eq_io.2 ⟨by simp [firstSync], h⟩

/-! ## `go(p)`, case by case -/

section Go

/-- What `find_sync` answers, and on a hit whether a whole window follows. -/
theorem findSync_cases (S : Source) (p : Nat) :
    (∃ q, findSync S p = .found q ∧ q + Config.packetLen ≤ S.bytes.length) ∨
      (∃ q, findSync S p = .found q ∧ S.bytes.length < q + Config.packetLen) ∨
      findSync S p = .endOfStream ∨ ∃ c, findSync S p = .io c := by
  cases h : findSync S p with
  | found q =>
    obtain hle | hlt := Nat.lt_or_ge S.bytes.length (q + Config.packetLen) |>.symm
    · exact .inl ⟨q, rfl, hle⟩
    · exact .inr (.inl ⟨q, rfl, hlt⟩)
  | endOfStream => exact .inr (.inr (.inl rfl))
  | io c => exact .inr (.inr (.inr ⟨c, rfl⟩))

/-- The window at offset `q` of a stream. -/
def Source.window (S : Source) (q : Nat) : List Byte := (S.bytes.drop q).take Config.packetLen

theorem Source.length_window {S : Source} {q : Nat} (h : q + Config.packetLen ≤ S.bytes.length) :
    (S.window q).length = 188 := by
  simp only [Source.window, Config.packetLen, List.length_take, List.length_drop] at h ⊢
  omega

/-- The result of the whole window at `q`. -/
def Source.windowResult (S : Source) (cfg : Cfg) (q : Nat) : Result :=
  (decode cfg (S.window q)).toResult q 188#8

/-- The result of a window at `q` that the stream's end cuts short (R166, R167). -/
def Source.shortResult (S : Source) (q : Nat) : Result :=
  match S.term with
  | .eos => .error .shortBuffer (BitVec.ofNat 8 (S.bytes.length - q)) 0#8 q
  | .ioerr c => .error .readIo 0#8 c S.bytes.length

/-- The run goes on after a result, which comes before those that follow. -/
def consResult (r : Result) (out : List Result × St) : List Result × St := (r :: out.1, out.2)

variable {S : Source} {cfg : Cfg} {fuel p q : Nat}

theorem iterateFrom_window (hf : findSync S p = .found q) (hn : q + Config.packetLen ≤ S.bytes.length) :
    iterateFrom S cfg (fuel + 1) p =
      if ((decode cfg (S.window q)).isOk || cfg.resync) = true
      then consResult (S.windowResult cfg q) (iterateFrom S cfg fuel (q + Config.packetLen))
      else ([S.windowResult cfg q], .fatal) := by
  simp only [iterateFrom, hf, if_pos hn, Source.windowResult]
  rw [← Source.window]
  cases decode cfg (S.window q) with
  | ok pkt => rfl
  | err e => cases cfg.resync <;> rfl

theorem iterateFrom_short (hf : findSync S p = .found q) (hn : S.bytes.length < q + Config.packetLen) :
    iterateFrom S cfg (fuel + 1) p = ([S.shortResult q], .fatal) := by
  simp only [iterateFrom, hf, if_neg (Nat.not_le.2 hn), Source.shortResult]
  cases S.term <;> rfl

theorem iterateFrom_end (hf : findSync S p = .endOfStream) : iterateFrom S cfg (fuel + 1) p = ([], .terminated) := by
  simp only [iterateFrom, hf]

theorem iterateFrom_io {c : Byte} (hf : findSync S p = .io c) :
    iterateFrom S cfg (fuel + 1) p = ([.error .syncIo 0#8 c S.bytes.length], .fatal) := by
  simp only [iterateFrom, hf]

/-- Fuel above the number of bytes left is enough: more changes nothing. -/
theorem iterateFrom_fuel {fuel' : Nat} (hp : p ≤ S.bytes.length) (hfuel : S.bytes.length < p + fuel)
    (hfuel' : S.bytes.length < p + fuel') : iterateFrom S cfg fuel p = iterateFrom S cfg fuel' p := by
  induction fuel generalizing p fuel' with
  | zero => omega
  | succ fuel ih =>
    cases fuel' with
    | zero => omega
    | succ fuel' =>
      obtain ⟨q, hf, hn⟩ | ⟨q, hf, hn⟩ | hf | ⟨c, hf⟩ := findSync_cases S p
      · obtain ⟨hpq, -, -⟩ := findSync_found_iff.1 hf
        simp only [Config.packetLen] at hn
        rw [iterateFrom_window hf hn, iterateFrom_window hf hn,
          ih (fuel' := fuel') hn (by omega) (by omega)]
      · rw [iterateFrom_short hf hn, iterateFrom_short hf hn]
      · rw [iterateFrom_end hf, iterateFrom_end hf]
      · rw [iterateFrom_io hf, iterateFrom_io hf]

/-! ## What holds of the results -/

@[simp] theorem offset_toResult (r : DecodeResult) (q : Nat) (n : Byte) : (r.toResult q n).offset = q := by
  cases r <;> rfl

/-- The result of a full window ends the run exactly when it is an error and the run does not resynchronise. -/
theorem endsRun_toResult {buf : List Byte} (hlen : buf.length = 188) (q : Nat) (n : Byte) :
    ((decode cfg buf).toResult q n).endsRun cfg = !((decode cfg buf).isOk || cfg.resync) := by
  cases hdec : decode cfg buf with
  | ok pkt => rfl
  | err e => exact endsRun_of_perPacket (decode_error_of_full hdec hlen).1 cfg _ _ q

/-- What holds of the results and the final state of a run from offset `p`. -/
def RunShape (cfg : Cfg) (p : Nat) (out : List Result × St) : Prop :=
  (out.2 = .terminated ∨ out.2 = .fatal) ∧ spaced out.1 = true ∧ (∀ r, out.1.head? = some r → p ≤ r.offset) ∧
    (out.2 = .fatal ↔ out.1.getLast?.map (Result.endsRun cfg) = some true) ∧
    (∀ r, r ∈ out.1.dropLast → r.endsRun cfg = false)

theorem RunShape.nil : RunShape cfg p ([], .terminated) := by
  simp [RunShape, spaced]

theorem RunShape.last {r : Result} (hends : r.endsRun cfg = true) (hp : p ≤ r.offset) :
    RunShape cfg p ([r], .fatal) := by
  simp [RunShape, spaced, hends, hp]

theorem RunShape.cons {out : List Result × St} {r : Result} (h : RunShape cfg (r.offset + Config.packetLen) out)
    (hends : r.endsRun cfg = false) (hp : p ≤ r.offset) : RunShape cfg p (consResult r out) := by
  obtain ⟨rs, st⟩ := out
  obtain ⟨hst, hspaced, hhead, hlast, hinit⟩ := h
  refine ⟨hst, ?_, ?_, ?_, ?_⟩
  · cases rs with
    | nil => rfl
    | cons r' rs => simpa [consResult, spaced] using ⟨hhead r' rfl, hspaced⟩
  · rintro _ ⟨⟩
    exact hp
  · cases rs with
    | nil => simpa [consResult, hends] using hlast
    | cons r' rs => simpa [consResult] using hlast
  · cases rs with
    | nil => simp [consResult]
    | cons r' rs => simpa [consResult, hends] using hinit

theorem runShape_iterateFrom (hp : p ≤ S.bytes.length) (hfuel : S.bytes.length < p + fuel) :
    RunShape cfg p (iterateFrom S cfg fuel p) := by
  induction fuel generalizing p with
  | zero => omega
  | succ fuel ih =>
    obtain ⟨q, hf, hn⟩ | ⟨q, hf, hn⟩ | hf | ⟨c, hf⟩ := findSync_cases S p
    · obtain ⟨hpq, -, -⟩ := findSync_found_iff.1 hf
      have hoff : (S.windowResult cfg q).offset = q := offset_toResult ..
      have hends : (S.windowResult cfg q).endsRun cfg = _ := endsRun_toResult (S.length_window hn) q 188#8
      rw [iterateFrom_window hf hn]
      split
      case isTrue hgo =>
        rw [hgo] at hends
        refine RunShape.cons ?_ hends (by rwa [hoff])
        rw [hoff]
        exact ih hn (by simp only [Config.packetLen]; omega)
      case isFalse hstop =>
        rw [Bool.not_eq_true] at hstop
        rw [hstop] at hends
        exact RunShape.last hends (by rwa [hoff])
    · obtain ⟨hpq, -, -⟩ := findSync_found_iff.1 hf
      rw [iterateFrom_short hf hn, Source.shortResult]
      cases S.term with
      | eos => exact RunShape.last rfl hpq
      | ioerr c => exact RunShape.last rfl hp
    · rw [iterateFrom_end hf]
      exact RunShape.nil
    · rw [iterateFrom_io hf]
      exact RunShape.last rfl hp

/-! ## The sync check in the composed block -/

/-- On a window that starts with the sync byte the sync check passes whatever `cfg.check_sync` is (R123). -/
theorem decode_checkSync_irrel {buf : List Byte} (h : byteAt buf 0 = Config.syncByte) (afc00Reject resync c c' : Bool) :
    decode ⟨afc00Reject, resync, c⟩ buf = decode ⟨afc00Reject, resync, c'⟩ buf := by
  simp [decode, h]

theorem decode_ne_badSync {buf : List Byte} (h : byteAt buf 0 = Config.syncByte) {e : DecodeError}
    (hdec : decode cfg buf = .err e) : e.code ≠ .badSync := by
  have hout := decode_outcome cfg buf
  rw [hdec] at hout
  cases hout with
  | badSync _ hsync => exact absurd h hsync.2
  | shortBuffer | reservedAfc | badLength => simp [DecodeError.code]

/-- A window found by the search starts with the sync byte. -/
theorem byteAt_window (hf : findSync S p = .found q) : byteAt (S.window q) 0 = Config.syncByte := by
  obtain ⟨-, hat, -⟩ := findSync_found_iff.1 hf
  simp [byteAt, Source.window, hat]

theorem iterateFrom_checkSync_irrel (afc00Reject resync : Bool) :
    iterateFrom S ⟨afc00Reject, resync, true⟩ fuel p = iterateFrom S ⟨afc00Reject, resync, false⟩ fuel p := by
  induction fuel generalizing p with
  | zero => rfl
  | succ fuel ih =>
    obtain ⟨q, hf, hn⟩ | ⟨q, hf, hn⟩ | hf | ⟨c, hf⟩ := findSync_cases S p
    · rw [iterateFrom_window hf hn, iterateFrom_window hf hn, Source.windowResult, Source.windowResult,
        decode_checkSync_irrel (byteAt_window hf) afc00Reject resync true false, ih]
    · rw [iterateFrom_short hf hn, iterateFrom_short hf hn]
    · rw [iterateFrom_end hf, iterateFrom_end hf]
    · rw [iterateFrom_io hf, iterateFrom_io hf]

theorem byteAt_windowBytes_of_open {s : State} (hidx : s.idx = 188#8) (h : WindowOpen s) :
    byteAt (windowBytes s) 0 = Config.syncByte := by
  rw [byteAt_windowBytes s 0 (by simp [hidx]), h.1]

theorem heldError_ne_badSync {s : State} (hs : StateInv s) : heldError s ≠ some .badSync := by
  obtain ⟨-, hrow⟩ := (stateInv_iff s).1 hs
  have hnone (hres : s.res = none) : heldError s ≠ some .badSync := by simp [heldError, hres]
  cases hst : s.st with
  | seeking => exact hnone ((rowInv_seeking hst).1 hrow).2
  | decoding => exact hnone ((rowInv_decoding hst).1 hrow).2.2.1
  | yield =>
    obtain ⟨pkt, hres⟩ := ((rowInv_yield hst).1 hrow).held
    simp [heldError, hres]
  | decodeFailed =>
    obtain ⟨hopen, -, ⟨-, -, hres⟩ | ⟨hidx, hok, hdec, -⟩⟩ := (rowInv_decodeFailed hst).1 hrow
    · simp [heldError, hres]
    · cases hd : decode s.cfg (windowBytes s) with
      | ok pkt => rw [hd] at hok; cases hok
      | err e =>
        have hne := decode_ne_badSync (byteAt_windowBytes_of_open hidx hopen) hd
        rw [ResultIsDecoded, hd] at hdec
        simpa [heldError, hdec, DecodeResult.toResult] using hne
  | seekFailed => obtain ⟨-, -, ⟨hcode, -⟩ | ⟨hcode, -⟩⟩ := (rowInv_seekFailed hst).1 hrow <;> simp [hcode]
  | terminated => exact hnone ((rowInv_terminated hst).1 hrow).2
  | fatal => exact hnone ((rowInv_fatal hst).1 hrow).2.1

end Go

/-- Settles O53: by induction on the fuel, which the number of bytes bounds. -/
theorem iterateEndsAndIsSpaced : Obligations.IterateEndsAndIsSpaced := by
  intro S cfg
  obtain ⟨hst, hspaced, -, hlast, hinit⟩ :=
    runShape_iterateFrom (S := S) (cfg := cfg) (fuel := S.bytes.length + 1) (Nat.zero_le _) (by omega)
  exact ⟨hst, hspaced, hlast, hinit⟩

/-- Settles O52: every window the block decodes starts with the sync byte the search found. -/
theorem composedBlockNeverRaisesBadSync : Obligations.ComposedBlockNeverRaisesBadSync :=
  ⟨fun _ => heldError_ne_badSync, fun _ afc00Reject resync => iterateFrom_checkSync_irrel afc00Reject resync⟩

end Sys2Proof.Machine
end

section
/-! PROOFS. Runs against a Source and a Consumer (R173): what is offered in a turn, and what a run has read of its
stream, which every edge keeps. -/

namespace Sys2Proof.Machine

/-! ## The beats of a source on the pins -/

/-- The beat that pins offer (R70). -/
def Pins.beat (p : Pins) : Beat := if p.inErr then .ioerr p.inCause else if p.inEos then .eos else .data p.inData

@[simp] theorem rst_turnPins (turn : Turn) (beats : List Beat) : (turnPins turn beats).rst = false := by
  cases beats with
  | nil => rfl
  | cons b beats => obtain ⟨source, consumer⟩ := turn; cases source <;> cases b <;> rfl

@[simp] theorem outReady_turnPins (turn : Turn) (beats : List Beat) :
    (turnPins turn beats).outReady = turn.consumer := by
  cases beats with
  | nil => rfl
  | cons b beats => obtain ⟨source, consumer⟩ := turn; cases source <;> rfl

/-- What is offered in a turn is the next beat. -/
theorem beats_of_inValid {turn : Turn} {beats : List Beat} (h : (turnPins turn beats).inValid = true) :
    ∃ rest, beats = (turnPins turn beats).beat :: rest := by
  cases beats with
  | nil => cases h
  | cons b beats =>
    obtain ⟨source, consumer⟩ := turn
    cases source with
    | false => cases h
    | true => cases b <;> exact ⟨beats, rfl⟩

theorem inValid_turnPins {turn : Turn} (hsource : turn.source = true) (b : Beat) (beats : List Beat) :
    (turnPins turn (b :: beats)).inValid = true := by
  cases b <;> simp [turnPins, hsource, Pins.offer]

variable {S : Source} {cfg : Cfg} {beats : List Beat} {s t : State} {p : Pins}

/-- The beat of a source at offset `n`: a byte of the stream, or the terminal beat after the last. -/
theorem beat_at {n : Nat} {b : Beat} {rest : List Beat} (hn : n ≤ S.bytes.length) (h : S.beats.drop n = b :: rest) :
    (∃ d, b = .data d ∧ S.bytes[n]? = some d) ∨ (n = S.bytes.length ∧ b = S.term.beat) := by
  have hat : S.beats[n]? = some b := by
    have h0 : (S.beats.drop n)[0]? = some b := by rw [h]; rfl
    simpa using h0
  obtain hlt | rfl := Nat.lt_or_eq_of_le hn
  · refine .inl ⟨S.bytes[n], ?_, List.getElem?_eq_getElem hlt⟩
    rw [Source.beats, List.getElem?_append_left (by simpa using hlt)] at hat
    simpa [List.getElem?_eq_getElem hlt, eq_comm] using hat
  · refine .inr ⟨rfl, ?_⟩
    simpa [Source.beats, eq_comm] using hat

theorem beats_ne_nil {n : Nat} (hn : n ≤ S.bytes.length) : ∃ b rest, S.beats.drop n = b :: rest := by
  cases h : S.beats.drop n with
  | nil =>
    have hlen := congrArg List.length h
    simp only [Source.beats, List.length_drop, List.length_append, List.length_map, List.length_singleton,
      List.length_nil] at hlen
    omega
  | cons b rest => exact ⟨b, rest, rfl⟩

/-! ## What a run has read -/

/-- What a run has read of its source: the first `POS` bytes, and the terminal beat when it is over or holds what a
terminal beat raises (`20_memory.md` R50, R65). Unless it is closed, the beats still to come are those from `POS` on. -/
structure ReadInv (S : Source) (beats : List Beat) (s : State) : Prop where
  pos_le : s.pos ≤ S.bytes.length
  stream_eq : s.stream = S.bytes.take s.pos
  beats_eq : closed s = false → beats = S.beats.drop s.pos
  terminated : s.st = .terminated → S.term = .eos ∧ s.pos = S.bytes.length
  shortBuffer : ∀ info c q, s.res = some (.error .shortBuffer info c q) → S.term = .eos ∧ s.pos = S.bytes.length
  io : ∀ e info c q, e = .syncIo ∨ e = .readIo → s.res = some (.error e info c q) →
    info = 0#8 ∧ q = S.bytes.length ∧ S.term = .ioerr c ∧ s.pos = S.bytes.length

/-- The beat accepted in a turn is the source's beat at offset `POS`. -/
theorem ReadInv.accepted {turn : Turn} (h : ReadInv S beats s) (hp : turnPins turn beats = p)
    (hfire : inFire s p = true) : beats.tail = S.beats.drop (s.pos + 1) ∧
      ((∃ d, p.beat = .data d ∧ S.bytes[s.pos]? = some d) ∨ (s.pos = S.bytes.length ∧ p.beat = S.term.beat)) := by
  have hbeats := h.beats_eq (closed_eq_false_of_inReady (inReady_of_inFire hfire))
  obtain ⟨rest, hrest⟩ := beats_of_inValid (by rw [hp]; exact inValid_of_inFire hfire)
  rw [hp] at hrest
  exact ⟨by rw [hbeats, List.tail_drop], beat_at h.pos_le (hbeats.symm.trans hrest)⟩

/-- An accepted `DATA` beat is the byte at `POS`. -/
theorem ReadInv.accepted_data {turn : Turn} (h : ReadInv S beats s) (hp : turnPins turn beats = p)
    (hfire : inFire s p = true) (herr : p.inErr = false) (heos : p.inEos = false) :
    S.bytes[s.pos]? = some p.inData ∧ beats.tail = S.beats.drop (s.pos + 1) := by
  have hbeat : p.beat = .data p.inData := by simp [Pins.beat, herr, heos]
  obtain ⟨htail, ⟨d, hd, hbyte⟩ | ⟨-, hterm⟩⟩ := h.accepted hp hfire
  · cases hbeat.symm.trans hd
    exact ⟨hbyte, htail⟩
  · rw [hbeat] at hterm
    cases hS : S.term <;> rw [hS] at hterm <;> cases hterm

/-- An accepted `EOS` beat is the end of the stream. -/
theorem ReadInv.accepted_eos {turn : Turn} (h : ReadInv S beats s) (hp : turnPins turn beats = p)
    (hfire : inFire s p = true) (herr : p.inErr = false) (heos : p.inEos = true) :
    S.term = .eos ∧ s.pos = S.bytes.length := by
  have hbeat : p.beat = .eos := by simp [Pins.beat, herr, heos]
  obtain ⟨-, ⟨d, hd, -⟩ | ⟨hpos, hterm⟩⟩ := h.accepted hp hfire
  · cases hbeat.symm.trans hd
  · rw [hbeat] at hterm
    cases hS : S.term <;> rw [hS] at hterm <;> cases hterm
    exact ⟨rfl, hpos⟩

/-- An accepted `IOERR` beat is the failure at the end of the stream. -/
theorem ReadInv.accepted_ioerr {turn : Turn} (h : ReadInv S beats s) (hp : turnPins turn beats = p)
    (hfire : inFire s p = true) (herr : p.inErr = true) :
    S.term = .ioerr p.inCause ∧ s.pos = S.bytes.length := by
  have hbeat : p.beat = .ioerr p.inCause := by simp [Pins.beat, herr]
  obtain ⟨-, ⟨d, hd, -⟩ | ⟨hpos, hterm⟩⟩ := h.accepted hp hfire
  · cases hbeat.symm.trans hd
  · rw [hbeat] at hterm
    cases hS : S.term <;> rw [hS] at hterm <;> cases hterm
    exact ⟨rfl, hpos⟩

/-- A byte accepted: the run has read one more. -/
theorem take_succ_of_getElem? {l : List Byte} {n : Nat} {d : Byte} (h : l[n]? = some d) :
    n + 1 ≤ l.length ∧ l.take n ++ [d] = l.take (n + 1) := by
  obtain ⟨hlt, rfl⟩ := List.getElem?_eq_some_iff.1 h
  exact ⟨hlt, List.take_concat_get' l n hlt⟩

/-- Accepting a byte, after which a per-packet error or no error is held. -/
theorem ReadInv.data {turn : Turn} (h : ReadInv S beats s) (hp : turnPins turn beats = p)
    (hfire : inFire s p = true) (herr : p.inErr = false) (heos : p.inEos = false) (hpos : t.pos = s.pos + 1)
    (hstream : t.stream = s.stream ++ [p.inData]) (hst : t.st ≠ .terminated)
    (hres : ∀ e info c q, t.res = some (.error e info c q) → e = .badSync ∨ e = .invalidAfLength ∨ e = .reservedAfc) :
    ReadInv S (if inFire s p then beats.tail else beats) t := by
  obtain ⟨hbyte, htail⟩ := h.accepted_data hp hfire herr heos
  obtain ⟨hle, htake⟩ := take_succ_of_getElem? hbyte
  rw [if_pos hfire]
  refine ⟨hpos ▸ hle, by rw [hstream, h.stream_eq, htake, hpos], fun _ => hpos ▸ htail, fun hno => absurd hno hst,
    fun info c q hno => ?_, fun e info c q he hno => ?_⟩
  · simpa using hres _ _ _ _ hno
  · obtain rfl | rfl := he <;> simpa using hres _ _ _ _ hno

theorem ReadInv.raise_shortBuffer {beats' : List Beat} (h : ReadInv S beats s) (hterm : S.term = .eos)
    (hpos : s.pos = S.bytes.length) (info c : Byte) (q : Nat) : ReadInv S beats' (raise .shortBuffer info c q s) := by
  refine ⟨h.pos_le, h.stream_eq, fun hopen => ?_, nofun, fun _ _ _ _ => ⟨hterm, hpos⟩, ?_⟩
  · rw [closed_raise (.inr (.inr rfl))] at hopen; cases hopen
  · rintro _ _ _ _ (rfl | rfl) ⟨⟩

theorem ReadInv.raise_io {beats' : List Beat} {e : ErrCode} {c : Byte} (h : ReadInv S beats s)
    (he : e = .syncIo ∨ e = .readIo) (hterm : S.term = .ioerr c) (hpos : s.pos = S.bytes.length) :
    ReadInv S beats' (raise e 0#8 c s.pos s) := by
  refine ⟨h.pos_le, h.stream_eq, fun hopen => ?_, ?_, ?_, ?_⟩
  · rw [closed_raise (by obtain rfl | rfl := he <;> simp)] at hopen; cases hopen
  · obtain rfl | rfl := he <;> nofun
  · obtain rfl | rfl := he <;> nofun
  · rintro _ _ _ _ - ⟨⟩
    exact ⟨rfl, hpos, hterm, hpos⟩

theorem res_eq_none_of_inReady (hs : StateInv s) (h : inReady s = true) : s.res = none := by
  obtain ⟨-, hrow⟩ := (stateInv_iff s).1 hs
  obtain hst | hst := (inReady_iff s).1 h
  · exact ((rowInv_seeking hst).1 hrow).2
  · exact ((rowInv_decoding hst).1 hrow).2.2.1

theorem afterOut_ne_terminated (hov : outValid s = true) : afterOut s ≠ .terminated := by
  rw [afterOut_of_outValid hov]
  split <;> nofun

/-- Every edge of a turn keeps what the run has read. -/
theorem EdgeEffect.keeps_readInv {turn : Turn} (heff : EdgeEffect s p t) (hs : StateInv s)
    (h : ReadInv S beats s) (hp : turnPins turn beats = p) :
    ReadInv S (if inFire s p then beats.tail else beats) t := by
  have hrst : p.rst = false := by rw [← hp]; exact rst_turnPins turn beats
  have hnone (hfire : inFire s p = true) (e : ErrCode) (info c : Byte) (q : Nat)
      (hno : s.res = some (.error e info c q)) : e = .badSync ∨ e = .invalidAfLength ∨ e = .reservedAfc := by
    rw [res_eq_none_of_inReady hs (inReady_of_inFire hfire)] at hno; cases hno
  have hclosed (ht : closed t = false) : closed s = false :=
    Bool.eq_false_iff.2 fun hc => by simp [heff.closed_of_closed hrst hc] at ht
  cases heff with
  | reset hr => simp [hr] at hrst
  | out _ hout =>
    rw [inFire_eq_false_of_outFire hout]
    exact ⟨h.pos_le, h.stream_eq, fun ht => h.beats_eq (hclosed ht),
      fun ht => absurd ht (afterOut_ne_terminated (outValid_of_outFire hout)), nofun, nofun⟩
  | scanHit _ hfire hst herr heos hd =>
    exact h.data hp hfire herr heos rfl (by simp [hd]) nofun (hnone hfire)
  | scanSkip _ hfire hst herr heos hd =>
    exact h.data hp hfire herr heos rfl rfl (by simp [hst]) (hnone hfire)
  | scanEos _ hfire hst herr heos =>
    refine ⟨h.pos_le, h.stream_eq, by simp [closed, ended], fun _ => h.accepted_eos hp hfire herr heos, ?_, ?_⟩
    · simp [res_eq_none_of_inReady hs (inReady_of_inFire hfire)]
    · simp [res_eq_none_of_inReady hs (inReady_of_inFire hfire)]
  | scanIoerr _ hfire hst herr =>
    obtain ⟨hterm, hpos⟩ := h.accepted_ioerr hp hfire herr
    exact h.raise_io (.inl rfl) hterm hpos
  | fill _ hfire hst herr heos =>
    exact h.data hp hfire herr heos rfl rfl (by simp [hst]) (hnone hfire)
  | fillLast _ hfire hst herr heos _ hidx t ht =>
    obtain ⟨-, ⟨pkt, rfl⟩ | ⟨e, info, he, rfl⟩⟩ := completeWindow_next ht
    · exact h.data hp hfire herr heos rfl rfl nofun nofun
    · refine h.data hp hfire herr heos rfl rfl ?_ ?_
      · rcases he with rfl | rfl | rfl <;> nofun
      · rintro _ _ _ _ ⟨⟩
        exact he
  | fillEos _ hfire hst herr heos =>
    obtain ⟨hterm, hpos⟩ := h.accepted_eos hp hfire herr heos
    exact h.raise_shortBuffer hterm hpos ..
  | fillIoerr _ hfire hst herr =>
    obtain ⟨hterm, hpos⟩ := h.accepted_ioerr hp hfire herr
    exact h.raise_io (.inr rfl) hterm hpos
  | idle _ _ hin =>
    rw [hin]
    exact h

end Sys2Proof.Machine
end

section
/-! PROOFS. The events realise the function (R173): what a run has still to emit is `go` from its frontier. And every
finite stream reaches an end (R238): each turn in which both sides are ready brings it nearer. -/

namespace Sys2Proof.Machine

section Runs

variable {S : Source} {cfg : Cfg} {beats : List Beat} {s t : State} {p q : Nat}

/-! ## `go(p)` with enough fuel -/

/-- `go(p)` of R163, with fuel for every stream. -/
def iterateAt (S : Source) (cfg : Cfg) (p : Nat) : List Result × St := iterateFrom S cfg (S.bytes.length + 1) p

theorem iterateAt_window (hf : findSync S p = .found q) (hn : q + Config.packetLen ≤ S.bytes.length) :
    iterateAt S cfg p = if ((decode cfg (S.window q)).isOk || cfg.resync) = true
      then consResult (S.windowResult cfg q) (iterateAt S cfg (q + Config.packetLen))
      else ([S.windowResult cfg q], .fatal) := by
  rw [iterateAt, iterateFrom_window hf hn, iterateAt,
    iterateFrom_fuel (fuel' := S.bytes.length + 1) hn (by simp only [Config.packetLen]; omega) (by omega)]

/-- What `go` answers depends on what the search answers. -/
theorem iterateAt_congr {p' : Nat} (h : findSync S p = findSync S p') : iterateAt S cfg p = iterateAt S cfg p' := by
  simp only [iterateAt, iterateFrom, h]

/-! ## The held result is the next one of `go` -/

/-- The valid bytes of an open window are a piece of the stream. -/
theorem windowBytes_of_open (hpos : s.pos = s.stream.length) (h : WindowOpen s) :
    windowBytes s = (s.stream.drop s.pktOff).take s.idx.toNat := by
  obtain ⟨-, hoff, hread⟩ := h
  apply List.ext_getElem
  · simp only [length_windowBytes, List.length_take, List.length_drop]
    omega
  · intro i hi hi'
    have hlt : i < s.idx.toNat := by simpa using hi
    have hin : s.pktOff + i < s.stream.length := by omega
    simp [windowBytes, hread i hlt, hin]

/-- At the offset of an open window the stream has a sync byte. -/
theorem findSync_of_open (hr : ReadInv S beats s) (hpos : s.pos = s.stream.length) (h : WindowOpen s)
    (hidx : 1 ≤ s.idx.toNat) : findSync S s.pktOff = .found s.pktOff := by
  obtain ⟨hsync, hoff, hread⟩ := h
  have hlt : s.pktOff < s.stream.length := by omega
  have hat := hread 0 hidx
  rw [hsync, Nat.add_zero, List.getD_eq_getElem _ _ hlt] at hat
  have hat' : s.stream[s.pktOff]? = some Config.syncByte := by rw [List.getElem?_eq_getElem hlt, hat]
  rw [hr.stream_eq, List.getElem?_take, if_pos (by omega)] at hat'
  exact findSync_of_sync hat'

/-- A full open window is the stream's window at its offset. -/
theorem windowBytes_of_full (hr : ReadInv S beats s) (hpos : s.pos = s.stream.length) (h : WindowOpen s)
    (hidx : s.idx = 188#8) : windowBytes s = S.window s.pktOff := by
  have hoff := pos_of_full hidx h
  rw [windowBytes_of_open hpos h, hr.stream_eq, List.drop_take, List.take_take, hidx, Source.window]
  congr 1
  simp only [Config.packetLen, BitVec.toNat_ofNat]
  omega

/-- A held result is the next one that `go` answers from the frontier, and `OUT` leads where `go` goes on or stops;
where it stops, `POS` is what R173 says was read. -/
def HeldIsNext (S : Source) (cfg : Cfg) (s : State) (r : Result) : Prop :=
  (afterOut s = .seeking ∧ iterateAt S cfg (frontier s) = consResult r (iterateAt S cfg s.pos)) ∨
    (afterOut s = .fatal ∧ iterateAt S cfg (frontier s) = ([r], .fatal) ∧
      ∀ l, s.pos = readAtEnd S (l ++ [r]) .fatal)

theorem heldIsNext_of_full (hs : StateInv s) (hr : ReadInv S beats s) (hov : outValid s = true)
    (hfront : frontier s = s.pktOff) (hidx : s.idx = 188#8) (hopen : WindowOpen s) (hres : ResultIsDecoded s) :
    HeldIsNext S s.cfg s ((decode s.cfg (windowBytes s)).toResult s.pktOff s.idx) := by
  obtain ⟨⟨-, hpos, -⟩, -⟩ := (stateInv_iff s).1 hs
  have hoff : s.pktOff + Config.packetLen = s.pos := pos_of_full hidx hopen
  have hf := findSync_of_open hr hpos hopen (by simp [hidx])
  have hn : s.pktOff + Config.packetLen ≤ S.bytes.length := hoff ▸ hr.pos_le
  obtain ⟨r, hr', -, hcase⟩ := exists_held hs hov
  rw [ResultIsDecoded, windowBytes_of_full hr hpos hopen hidx, hidx] at hres
  rw [windowBytes_of_full hr hpos hopen hidx, hidx]
  cases hres.symm.trans hr'
  rw [endsRun_toResult (S.length_window hn)] at hcase
  have hgo := iterateAt_window (cfg := s.cfg) hf hn
  rw [hoff] at hgo
  obtain ⟨hends, hfatal⟩ | ⟨hends, hseek, -⟩ := hcase
  · refine .inr ⟨hfatal, ?_, fun l => ?_⟩
    · rw [hfront, hgo, if_neg (by simpa using hends)]
      rfl
    · cases hdec : decode s.cfg (S.window s.pktOff) with
      | ok pkt => rw [hdec] at hends; cases hends
      | err e =>
        obtain ⟨hcode, -⟩ := decode_error_of_full hdec (S.length_window hn)
        rw [readAtEnd, if_pos rfl, List.getLast?_concat, DecodeResult.toResult]
        rcases hcode with hcode | hcode | hcode <;> rw [hcode] <;> exact hoff.symm
  · refine .inl ⟨hseek, ?_⟩
    rw [hfront, hgo, if_pos (by rwa [Bool.not_eq_false'] at hends)]
    rfl

/-- A window the end of the stream cuts short: the held error is the one `go` answers. -/
theorem heldIsNext_of_short (hs : StateInv s) (hr : ReadInv S beats s) (hfront : frontier s = s.pktOff)
    (hafter : afterOut s = .fatal) (hend : s.pos = S.bytes.length) (hlow : 1 ≤ s.idx.toNat) (hhigh : s.idx.toNat ≤ 187)
    (hopen : WindowOpen s) (hread : ∀ l, readAtEnd S (l ++ [S.shortResult s.pktOff]) .fatal = S.bytes.length) :
    HeldIsNext S cfg s (S.shortResult s.pktOff) := by
  obtain ⟨⟨-, hpos, -⟩, -⟩ := (stateInv_iff s).1 hs
  obtain ⟨-, hoff, -⟩ := id hopen
  have hf := findSync_of_open hr hpos hopen hlow
  refine .inr ⟨hafter, ?_, fun l => by rw [hend, hread]⟩
  rw [hfront, iterateAt, iterateFrom_short hf (by simp only [Config.packetLen]; omega)]

theorem readAtEnd_shortResult (S : Source) (q : Nat) (l : List Result) :
    readAtEnd S (l ++ [S.shortResult q]) .fatal = S.bytes.length := by
  rw [readAtEnd, if_pos rfl, List.getLast?_concat, Source.shortResult]
  cases S.term <;> rfl

theorem heldIsNext (hs : StateInv s) (hr : ReadInv S beats s) (hov : outValid s = true) :
    ∃ r, s.res = some r ∧ HeldIsNext S s.cfg s r := by
  obtain ⟨-, hrow⟩ := (stateInv_iff s).1 hs
  obtain hst | hst | hst := (outValid_iff s).1 hov
  · obtain ⟨hidx, hopen, -, hres⟩ := (rowInv_yield hst).1 hrow
    exact ⟨_, hres, heldIsNext_of_full hs hr hov (by rw [frontier, hst]) hidx hopen hres⟩
  · have hfront : frontier s = s.pktOff := by rw [frontier, hst]
    obtain ⟨hopen, -, ⟨hlow, hhigh, hres⟩ | ⟨hidx, -, hres, -⟩⟩ := (rowInv_decodeFailed hst).1 hrow
    · obtain ⟨hterm, hend⟩ := hr.shortBuffer _ _ _ hres
      obtain ⟨-, hoff, -⟩ := id hopen
      have hshort : S.shortResult s.pktOff = .error .shortBuffer s.idx 0#8 s.pktOff := by
        have hlen : S.bytes.length - s.pktOff = s.idx.toNat := by omega
        rw [Source.shortResult, hterm, hlen, BitVec.ofNat_toNat, BitVec.setWidth_eq]
      have hafter : afterOut s = .fatal := by simp [afterOut, hst, heldError, hres]
      rw [← hshort] at hres
      exact ⟨_, hres, heldIsNext_of_short hs hr hfront hafter hend hlow hhigh hopen (readAtEnd_shortResult S _)⟩
    · exact ⟨_, hres, heldIsNext_of_full hs hr hov hfront hidx hopen hres⟩
  · have hafter : afterOut s = .fatal := by simp [afterOut, hst]
    obtain ⟨-, -, ⟨hcode, hidx⟩ | ⟨hcode, hlow, hhigh, hopen⟩⟩ := (rowInv_seekFailed hst).1 hrow
    · obtain ⟨info, c, q, hres⟩ := heldError_eq_some.1 hcode
      obtain ⟨rfl, rfl, hterm, hend⟩ := hr.io _ _ _ _ (.inl rfl) hres
      refine ⟨_, hres, .inr ⟨hafter, ?_, fun l => ?_⟩⟩
      · have hf := findSync_at_ioerr hterm
        have hfront : frontier s = S.bytes.length := by rw [frontier, hst, hidx, ← hend]; rfl
        rw [hfront, iterateAt, iterateFrom_io hf]
      · rw [readAtEnd, if_pos rfl, List.getLast?_concat, hend]
    · obtain ⟨info, c, q, hres⟩ := heldError_eq_some.1 hcode
      obtain ⟨rfl, rfl, hterm, hend⟩ := hr.io _ _ _ _ (.inr rfl) hres
      obtain ⟨-, hoff, -⟩ := id hopen
      have hshort : S.shortResult s.pktOff = .error .readIo 0#8 c S.bytes.length := by
        rw [Source.shortResult, hterm]
      have hfront : frontier s = s.pktOff := by rw [frontier, hst, ← hoff]; exact Nat.add_sub_cancel ..
      rw [← hshort] at hres
      exact ⟨_, hres, heldIsNext_of_short hs hr hfront hafter hend hlow hhigh hopen (readAtEnd_shortResult S _)⟩

/-! ## What a run has emitted and has still to emit -/

/-- What has been emitted and what `go` answers from the frontier are together what `iterate` answers. -/
def EmitInv (S : Source) (cfg : Cfg) (s : State) : Prop :=
  (s.st ≠ .fatal → iterate S cfg =
    (s.emitted ++ (iterateAt S cfg (frontier s)).1, (iterateAt S cfg (frontier s)).2)) ∧
  (s.st = .fatal → iterate S cfg = (s.emitted, .fatal) ∧ s.pos = readAtEnd S s.emitted .fatal)

theorem emitInv_takeResult (hs : StateInv s) (hr : ReadInv S beats s) (hov : outValid s = true)
    (h : EmitInv S s.cfg s) : EmitInv S s.cfg (takeResult s) := by
  have hst := st_ne_fatal_of_outValid hov
  obtain ⟨r, hres, hnext⟩ := heldIsNext hs hr hov
  have hit := h.1 hst
  obtain ⟨hseek, hgo⟩ | ⟨hfatal, hgo, hread⟩ := hnext
  · have hfront : frontier (takeResult s) = s.pos := by rw [frontier, takeResult_st, hseek]; rfl
    refine ⟨fun _ => ?_, fun hno => ?_⟩
    · rw [hit, hgo, hfront]
      simp [consResult, hres]
    · rw [takeResult_st, hseek] at hno; cases hno
  · refine ⟨fun hno => absurd hfatal hno, fun _ => ?_⟩
    rw [hit, hgo, takeResult_emitted, hres]
    exact ⟨rfl, hread _⟩

theorem EdgeEffect.keeps_emitInv {pins : Pins} {turn : Turn} (heff : EdgeEffect s pins t) (hs : StateInv s)
    (hr : ReadInv S beats s) (hp : turnPins turn beats = pins) (h : EmitInv S s.cfg s) : EmitInv S s.cfg t := by
  obtain ⟨hno, -⟩ | ⟨-, hfire, rfl⟩ | ⟨hrst, hfire⟩ | ⟨-, -, -, rfl⟩ := heff.kind
  · rw [← hp, rst_turnPins] at hno; cases hno
  · exact emitInv_takeResult hs hr (outValid_of_outFire hfire) h
  · obtain ⟨ht, hfront⟩ := heff.frontier_of_inFire hs hrst hfire
    have hst := st_ne_fatal_of_inReady (inReady_of_inFire hfire)
    refine ⟨fun _ => ?_, fun hno => absurd hno ht⟩
    rw [heff.emitted_of_inFire hrst hfire, h.1 hst]
    obtain hfront | ⟨hseek, herr, heos, hd, rfl⟩ := hfront
    · rw [hfront]
    · obtain ⟨hbyte, -⟩ := hr.accepted_data hp hfire herr heos
      have hfront : frontier s = s.pos ∧ frontier (acceptByte pins.inData s) = s.pos + 1 := by
        simp [frontier, hseek]
      rw [hfront.1, hfront.2, iterateAt_congr (findSync_succ hbyte hd)]
  · exact h

/-! ## Turn by turn -/

theorem drive_cons {turn : Turn} {turns : List Turn} : drive (turn :: turns) beats s = .next t ↔
    ∃ u, EdgeEffect { s with inputs := [] } (turnPins turn beats) u ∧
      drive turns (if inFire s (turnPins turn beats) then beats.tail else beats) u = .next t := by
  simp only [drive, andThen_eq_next,
    step_eq_next (s := { s with inputs := [turnPins turn beats] }) (p := turnPins turn beats) (ps := []) rfl]

/-- All that holds of a run against a source under `cfg`, with the beats still to come. -/
structure DriveInv (S : Source) (cfg : Cfg) (beats : List Beat) (s : State) : Prop where
  state : StateInv s
  cfg_eq : s.cfg = cfg
  read : ReadInv S beats s
  emit : EmitInv S cfg s

theorem driveInv_resetWith (S : Source) (cfg : Cfg) : DriveInv S cfg S.beats (State.resetWith cfg) where
  state := stateInv_resetWith cfg
  cfg_eq := rfl
  read := ⟨Nat.zero_le _, rfl, fun _ => rfl, nofun, nofun, nofun⟩
  emit := ⟨fun _ => rfl, nofun⟩

/-- No predicate of a run speaks of the clock edges still to come. -/
theorem DriveInv.withInputs (h : DriveInv S cfg beats s) (ps : List Pins) :
    DriveInv S cfg beats { s with inputs := ps } :=
  ⟨h.state, h.cfg_eq, ⟨h.read.pos_le, h.read.stream_eq, h.read.beats_eq, h.read.terminated, h.read.shortBuffer,
    h.read.io⟩, h.emit⟩

theorem DriveInv.step {turn : Turn} (h : DriveInv S cfg beats s) (heff : EdgeEffect s (turnPins turn beats) t) :
    DriveInv S cfg (if inFire s (turnPins turn beats) then beats.tail else beats) t := by
  have hcfg := h.cfg_eq
  subst hcfg
  exact ⟨heff.keeps_stateInv h.state, heff.keeps_cfg (rst_turnPins turn beats),
    heff.keeps_readInv h.state h.read rfl, heff.keeps_emitInv h.state h.read rfl h.emit⟩

theorem driveInv_of_drive {turns : List Turn} (h : DriveInv S cfg beats s) (hd : drive turns beats s = .next t) :
    ∃ beats', DriveInv S cfg beats' t := by
  induction turns generalizing beats s with
  | nil => cases hd; exact ⟨beats, h⟩
  | cons turn turns ih =>
    obtain ⟨u, heff, hrest⟩ := drive_cons.1 hd
    exact ih ((h.withInputs []).step heff) hrest

/-- A run that has ended has emitted what `iterate` answers. -/
theorem DriveInv.of_ended (h : DriveInv S cfg beats s) (hend : ended s = true) :
    (s.emitted, s.st) = iterate S cfg ∧ s.pos = readAtEnd S (iterate S cfg).1 (iterate S cfg).2 := by
  obtain hst | hst := (ended_iff s).1 hend
  · obtain ⟨hterm, hpos⟩ := h.read.terminated hst
    have hf := findSync_at_eos hterm
    have hfront : frontier s = S.bytes.length := by rw [frontier, hst, hpos]
    have hit := h.emit.1 (by simp [hst])
    rw [hfront, iterateAt, iterateFrom_end hf, List.append_nil] at hit
    rw [hit, hst]
    exact ⟨rfl, hpos⟩
  · obtain ⟨hit, hpos⟩ := h.emit.2 hst
    rw [hit, hst]
    exact ⟨rfl, hpos⟩

/-! ## Every run ends -/

/-- A bound on the turns a run still needs in which both sides are ready: two for each byte, and those that end it. -/
def turnsLeft (S : Source) (s : State) : Nat :=
  if ended s then 0
  else if closed s then 1
  else if outValid s then 2 * (S.bytes.length - s.pos) + 3
  else 2 * (S.bytes.length - s.pos) + 2

theorem turnsLeft_of_ended (h : ended s = true) : turnsLeft S s = 0 := by
  rw [turnsLeft, if_pos h]

theorem turnsLeft_of_closed (h : closed s = true) : turnsLeft S s ≤ 1 := by
  rw [turnsLeft, if_pos h]
  split <;> omega

theorem turnsLeft_le (S : Source) (s : State) : turnsLeft S s ≤ 2 * (S.bytes.length - s.pos) + 3 := by
  rw [turnsLeft]
  split_ifs <;> omega

theorem turnsLeft_of_inReady (h : inReady s = true) : turnsLeft S s = 2 * (S.bytes.length - s.pos) + 2 := by
  simp [turnsLeft, ended_eq_false_of_inReady h, closed_eq_false_of_inReady h, outValid_eq_false_of_inReady h]

theorem turnsLeft_eq_zero : turnsLeft S s = 0 ↔ ended s = true := by
  refine ⟨fun h => ?_, turnsLeft_of_ended⟩
  by_contra hend
  rw [turnsLeft, if_neg hend] at h
  split_ifs at h

/-- An accepted beat brings the end nearer: a byte by two turns at least but for the one the held result costs, a
terminal beat to the last turn. -/
theorem EdgeEffect.turnsLeft_lt_of_inFire {pins : Pins} {turn : Turn} (heff : EdgeEffect s pins t)
    (hr : ReadInv S beats s) (hp : turnPins turn beats = pins) (hfire : inFire s pins = true) :
    turnsLeft S t < turnsLeft S s := by
  have hrst : pins.rst = false := by rw [← hp]; exact rst_turnPins turn beats
  rw [turnsLeft_of_inReady (inReady_of_inFire hfire)]
  by_cases hterm : pins.inErr = true ∨ pins.inEos = true
  · have hle := turnsLeft_of_closed (S := S) (heff.closed_of_terminal hrst hfire hterm)
    omega
  · simp only [not_or, Bool.not_eq_true] at hterm
    obtain ⟨herr, heos⟩ := hterm
    obtain ⟨hbyte, -⟩ := hr.accepted_data hp hfire herr heos
    have hlt : s.pos < S.bytes.length := (List.getElem?_eq_some_iff.1 hbyte).1
    have hpos : t.pos = s.pos + 1 := by simp [heff.pos_eq, hrst, hfire, herr, heos]
    have hle := turnsLeft_le S t
    omega

/-- Taking the held result brings the end nearer by a turn at least. -/
theorem turnsLeft_takeResult_lt (hov : outValid s = true) : turnsLeft S (takeResult s) < turnsLeft S s := by
  have hend := ended_eq_false_of_outValid hov
  have hpos : 0 < turnsLeft S s := Nat.pos_of_ne_zero fun hzero => by simp [turnsLeft_eq_zero.1 hzero] at hend
  have hfatal (h : afterOut s = .fatal) : turnsLeft S (takeResult s) < turnsLeft S s := by
    rwa [turnsLeft_of_ended ((ended_iff _).2 (.inr h))]
  by_cases hclosed : closed s = true
  · exact hfatal (afterOut_of_closed hclosed hov)
  · have hleft : turnsLeft S s = 2 * (S.bytes.length - s.pos) + 3 := by simp [turnsLeft, hend, hclosed, hov]
    by_cases hseek : afterOut s = .seeking
    · rw [hleft, turnsLeft_of_inReady ((inReady_iff _).2 (.inl hseek)), takeResult_pos]
      omega
    · refine hfatal ?_
      rw [afterOut_of_outValid hov] at hseek ⊢
      exact if_neg fun hc => hseek (if_pos hc)

/-- When both sides are ready something happens, unless the run has ended. -/
theorem fires_of_ready {turn : Turn} (hr : ReadInv S beats s) (hready : turn = ⟨true, true⟩)
    (hout : outFire s (turnPins turn beats) = false) (hin : inFire s (turnPins turn beats) = false) :
    ended s = true := by
  subst hready
  obtain ⟨hir, -⟩ | ⟨-, hov, -⟩ | ⟨-, -, hend⟩ := kind_cases s
  · obtain ⟨b, rest, hb⟩ := beats_ne_nil hr.pos_le
    rw [hr.beats_eq (closed_eq_false_of_inReady hir), hb, inFire, hir, inValid_turnPins rfl] at hin
    cases hin
  · rw [outFire, hov, outReady_turnPins] at hout
    cases hout
  · exact hend

/-- A turn never takes the end further away, and brings it nearer when both sides are ready. -/
theorem DriveInv.turnsLeft_step {turn : Turn} (h : DriveInv S cfg beats s)
    (heff : EdgeEffect s (turnPins turn beats) t) :
    turnsLeft S t ≤ turnsLeft S s - if turn = ⟨true, true⟩ then 1 else 0 := by
  obtain ⟨hno, -⟩ | ⟨-, hfire, rfl⟩ | ⟨-, hfire⟩ | ⟨-, hout, hin, rfl⟩ := heff.kind
  · rw [rst_turnPins] at hno; cases hno
  · have hlt := turnsLeft_takeResult_lt (S := S) (outValid_of_outFire hfire)
    split <;> omega
  · have hlt := heff.turnsLeft_lt_of_inFire h.read rfl hfire
    split <;> omega
  · split
    case isTrue hready => rw [turnsLeft_of_ended (fires_of_ready h.read hready hout hin)]
    case isFalse => exact le_rfl

/-- No turn stops by a fault or a refusal (R214): the window index is in range, and a byte offered is one of the
stream's. -/
theorem DriveInv.exists_edge {turn : Turn} (h : DriveInv S cfg beats s) (hn : S.bytes.length < 2 ^ 64) :
    ∃ t, EdgeEffect s (turnPins turn beats) t := by
  obtain ⟨-, hrow⟩ := (stateInv_iff s).1 h.state
  refine exists_edgeEffect (fun hst => ((rowInv_decoding hst).1 hrow).2.1) fun hfire herr heos => ?_
  obtain ⟨hbyte, -⟩ := h.read.accepted_data rfl hfire herr heos
  have hlt : s.pos < S.bytes.length := (List.getElem?_eq_some_iff.1 hbyte).1
  simp only [Config.streamLimit]
  omega

theorem DriveInv.drive_next {turns : List Turn} (h : DriveInv S cfg beats s) (hn : S.bytes.length < 2 ^ 64) :
    ∃ t, drive turns beats s = .next t ∧ turnsLeft S t ≤ turnsLeft S s - turns.count ⟨true, true⟩ := by
  induction turns generalizing beats s with
  | nil => exact ⟨s, rfl, le_rfl⟩
  | cons turn turns ih =>
    have h0 := h.withInputs []
    obtain ⟨u, heff⟩ := h0.exists_edge (turn := turn) hn
    obtain ⟨t, hdrive, hleft⟩ := ih (h0.step heff)
    refine ⟨t, drive_cons.2 ⟨u, heff, hdrive⟩, ?_⟩
    have hstep : turnsLeft S u ≤ turnsLeft S s - _ := h0.turnsLeft_step heff
    rw [List.count_cons]
    simp only [beq_iff_eq]
    omega

end Runs

/-- Settles O54: what holds of every run holds of one that has ended. -/
theorem eventsRealiseTheFunction : Obligations.EventsRealiseTheFunction := by
  intro S cfg turns t _ hd hend
  obtain ⟨beats, h⟩ := driveInv_of_drive (driveInv_resetWith S cfg) hd
  exact h.of_ended hend

/-- Settles O55: a run from reset needs at most two turns for each byte and two to end. -/
theorem everyFiniteStreamReachesAnEnd : Obligations.EveryFiniteStreamReachesAnEnd := by
  intro S cfg turns hn
  obtain ⟨t, hdrive, hleft⟩ := (driveInv_resetWith S cfg).drive_next (turns := turns) hn
  refine ⟨t, hdrive, fun hcount => (turnsLeft_eq_zero (S := S)).1 ?_⟩
  have hstart : turnsLeft S (State.resetWith cfg) = 2 * (S.bytes.length - 0) + 2 := turnsLeft_of_inReady rfl
  omega

end Sys2Proof.Machine
end

section
/-! PROOFS. Stops by name (logs 4, 7, 18), the accessors, the terminal states and the output and status pins
(`10_state.md` R33, R43, R44). -/

namespace Sys2Proof.Machine

/-! ## Stops -/

theorem exec_fill_of_idx_gt {d : Byte} {s : State} (hst : s.st = .decoding) (hidx : 188 ≤ s.idx.toNat) :
    exec (.fill d) s = .fault .windowOffset := by
  have hno : ¬ s.idx.toNat < Config.packetLen := Nat.not_lt.2 hidx
  simp only [exec, execFill, hst, hno, if_false]
  rfl

/-- Outside the moment of a full window every packet form stops. -/
theorem runForm_of_not_full {s : State} (h : windowFull s = false) (i : Instr) :
    runForm i s = .fault .eventNotEnabled := by
  cases i <;> simp [runForm, execTsBadSync, execTsReserved, execTsPayload, execTsAfOnly, execTsAfOnlyBadlen,
    execTsAfPayloadEmpty, execTsAfPayload, execTsAfPayloadBadlen, h]

/-- Settles O6: each of these meanings tests that its event is enabled before anything else. -/
theorem eventOutsideItsStateStops : Obligations.EventOutsideItsStateStops := by
  intro s
  refine ⟨fun hst e d c => ?_, fun hst e d c => ?_, fun hst hidx d => exec_fill_of_idx_gt hst hidx, fun hov => ?_,
    fun hfull cfg p => ?_⟩
  · have hoff : (s.st == .seeking) = false := beq_false_of_ne hst
    simp [exec, execScanIoerr, execScanEos, execScanHit, execScanSkip, execFindSync, hoff]
  · have hoff : (s.st == .decoding) = false := beq_false_of_ne hst
    simp [exec, execFillIoerr, execFillEos, execFill, hoff]
  · simp [exec, execOut, hov]
  · have hoff : windowFull s = false := by
      exact Bool.eq_false_iff.2 fun h => hfull ((windowFull_iff s).1 h)
    rw [← runForm_decodePacket, runForm_of_not_full hoff]

theorem whenRoom_eq_refused {s t : State} : whenRoom s (.next t) = .refused .streamTooLong ↔ 2 ^ 64 ≤ s.pos + 1 := by
  by_cases h : s.pos + 1 < Config.streamLimit
  · rw [whenRoom_of_lt h]
    exact ⟨nofun, fun hle => absurd h (Nat.not_lt.2 hle)⟩
  · rw [whenRoom, if_neg h]
    exact ⟨fun _ => Nat.not_lt.1 h, fun _ => rfl⟩

/-- Settles O15: behind the refusal each of the three beats answers a next state. -/
theorem streamOfTooManyBytesIsRefused : Obligations.StreamOfTooManyBytesIsRefused := by
  intro s d
  refine ⟨fun hst => ⟨?_, ?_⟩, fun hst hidx => ?_⟩
  · simp only [exec, execScanHit, hst]
    exact whenRoom_eq_refused
  · simp only [exec, execScanSkip, hst]
    exact whenRoom_eq_refused
  · have hin : s.idx.toNat < Config.packetLen := hidx
    simp only [exec, execFill, hst, if_pos hin]
    by_cases hlast : s.idx.toNat + 1 = Config.packetLen
    · have hidx' : s.idx = 187#8 := BitVec.eq_of_toNat_eq (Nat.succ_injective hlast)
      have hfull : windowFull (acceptByte d (storeByte d s)) = true :=
        (windowFull_iff _).2 ⟨hst, idx_fill_last hidx' d⟩
      rw [if_pos hlast, completeWindow_eq _ hfull]
      exact whenRoom_eq_refused
    · rw [if_neg hlast]
      exact whenRoom_eq_refused

/-! ## Terminal states -/

/-- Settles O42: in a terminal state neither handshake is enabled. -/
theorem terminalStatesAreLeftByResetOnly : Obligations.TerminalStatesAreLeftByResetOnly := by
  intro s hst
  obtain ⟨hin, hov⟩ := (ended_iff_not_enabled s).1 ((ended_iff s).2 hst)
  refine ⟨hin, hov, outPins_of_outValid_false hov, fun p ps hinputs hrst => ?_, fun p ps hinputs hrst => ?_⟩
  · have hof : outFire { s with inputs := ps } p = false := by
      have : outValid { s with inputs := ps } = false := hov
      simp [outFire, this]
    have hif : inFire { s with inputs := ps } p = false := by
      have : inReady { s with inputs := ps } = false := hin
      simp [inFire, this]
    exact (step_eq_next hinputs).2 (.idle hrst hof hif)
  · exact ⟨_, (step_eq_next hinputs).2 (.reset hrst), rfl, rfl⟩

/-! ## The combinational operations -/

/-- Settles O31: `DECODE` is the function `decode` on the valid bytes of the window. -/
theorem decodeOperationWritesNothing : Obligations.DecodeOperationWritesNothing := by
  intro s
  rw [exec, execDecode, windowBytes]
  rfl

theorem outPins_of_packet {s : State} {pkt : TransportPacket} {q : Nat} (hov : outValid s = true)
    (hres : s.res = some (.packet pkt q)) : outPins s = packetPins pkt q := by
  simp [outPins, hov, hres]

theorem outPins_of_error {s : State} {e : ErrCode} {info cause : Byte} {q : Nat} (hov : outValid s = true)
    (hres : s.res = some (.error e info cause q)) : outPins s = errorPins e info cause q := by
  simp [outPins, hov, hres]

/-- The accessors' pins are those of the output port, whatever is offered. -/
theorem accessor_pins (s : State) :
    outIsPat s = (outPins s).isPat ∧ outHasAf s = (outPins s).hasAf ∧ outHasPayload s = (outPins s).hasPayload := by
  simp only [outIsPat, outHasAf, outHasPayload, offeredPacket, outPins]
  cases outValid s with
  | false => exact ⟨rfl, rfl, rfl⟩
  | true =>
    cases s.res with
    | none => exact ⟨rfl, rfl, rfl⟩
    | some r => cases r <;> exact ⟨rfl, rfl, rfl⟩

theorem isPat_iff (hdr : Header) : hdr.isPat = true ↔ hdr.pid = 0#16 := by
  simp [Header.isPat]

/-- Settles O32: the accessors answer their pins, which are 0 unless a packet is offered. -/
theorem accessorsReadTheOfferedPacket : Obligations.AccessorsReadTheOfferedPacket := by
  intro s
  obtain ⟨hpat, haf, hpay⟩ := accessor_pins s
  refine ⟨?_, ?_, ?_, fun pkt q hov hres => ?_, fun hno => ?_⟩
  · rw [← hpat]; rfl
  · rw [← haf]; rfl
  · rw [← hpay]; rfl
  · rw [outPins_of_packet hov hres]
    exact ⟨isPat_iff _, hasAf_iff _, hasPayload_iff _⟩
  · cases hov : outValid s with
    | false => rw [outPins_of_outValid_false hov]; exact ⟨rfl, rfl, rfl⟩
    | true =>
      have hno' : ∀ pkt q, s.res ≠ some (.packet pkt q) := by
        obtain hno | hno := hno
        · rw [hov] at hno; cases hno
        · exact hno
      cases hres : s.res with
      | none => simp [outPins, hov, hres, OutPins.zero]
      | some r =>
        cases r with
        | packet pkt q => exact absurd hres (hno' pkt q)
        | error e info cause q => rw [outPins_of_error hov hres]; exact ⟨rfl, rfl, rfl⟩

/-! ## The output port -/

/-- While a result is held and not taken, an edge without `rst` changes nothing. -/
theorem EdgeEffect.eq_of_held {s t : State} {p : Pins} (h : EdgeEffect s p t) (hrst : p.rst = false)
    (hov : outValid s = true) (hready : p.outReady = false) : t = s := by
  obtain ⟨hno, -⟩ | ⟨-, hfire, -⟩ | ⟨-, hfire⟩ | ⟨-, -, -, heq⟩ := h.kind
  · simp [hrst] at hno
  · simp [outFire, hready] at hfire
  · have hno := inReady_eq_false_of_outValid hov
    rw [inReady_of_inFire hfire] at hno; cases hno
  · exact heq

/-- The flag pins of a packet without flags. -/
theorem packetFlags_of_none {hdr : Header} {af : Option AdaptationField} (h : af = none ∨ ∃ l, af = some ⟨l, none⟩) :
    packetFlags ⟨hdr, af⟩ = unpackAfFlags 0#8 := by
  obtain rfl | ⟨l, rfl⟩ := h <;> rfl

/-- Settles O44: an edge on which the result stays changes nothing; the pins are those of the packet or error held. -/
theorem outputPinsAreStableWhileHeld : Obligations.OutputPinsAreStableWhileHeld := by
  refine ⟨fun s t p ps hin hrst hov hready h => ?_, fun s hdr af q hov hres => ?_, fun s e info cause q hov hres => ?_⟩
  · have ht := (edgeEffect_of_step hin h).eq_of_held hrst hov hready
    subst ht
    exact ⟨rfl, fun _ => rfl⟩
  · rw [outPins_of_packet hov hres]
    refine ⟨rfl, rfl, rfl, rfl, rfl, BitVec.toNat_ofNat .., rfl, rfl, rfl, rfl, rfl, rfl, rfl, isPat_iff hdr,
      hasAf_iff hdr, hasPayload_iff hdr, ?_, ?_, fun hno => ?_, ?_⟩
    · rintro rfl; exact ⟨rfl, rfl⟩
    · rintro l h rfl; exact ⟨rfl, rfl⟩
    · have hflags := packetFlags_of_none (hdr := hdr) hno
      simp only [packetPins, hflags]
      obtain rfl | ⟨l, rfl⟩ := hno <;> exact ⟨rfl, rfl, rfl, rfl, rfl, rfl, rfl, rfl, rfl⟩
    · rintro l f rfl; exact ⟨rfl, rfl, rfl, rfl, rfl, rfl, rfl, rfl, rfl⟩
  · rw [outPins_of_error hov hres]
    refine ⟨?_, BitVec.toNat_ofNat .., rfl⟩
    cases e <;> rfl

/-! ## The status pins -/

/-- A concatenation as a number. -/
theorem toNat_append_eq_add {m n : Nat} (x : BitVec m) (y : BitVec n) :
    (x ++ y).toNat = x.toNat * 2 ^ n + y.toNat := by
  rw [BitVec.toNat_append, ← Nat.shiftLeft_add_eq_or_of_lt y.isLt, Nat.shiftLeft_eq]

/-- `STATUS` is its three fields, the lowest last (R33). -/
theorem statusWord_eq_append (s : State) :
    statusWord s = s.idx ++ (optErrCode s.lastErr ++ stCode s.st) := by
  apply BitVec.eq_of_getLsbD_eq
  intro i hi
  simp only [statusWord, BitVec.getLsbD_or, getLsbD_place, BitVec.getLsbD_append]
  interval_cases i <;> simp

theorem stCode_injective {a b : St} (h : stCode a = stCode b) : a = b := by
  revert h; cases a <;> cases b <;> decide

theorem optErrCode_injective {a b : Option ErrCode} (h : optErrCode a = optErrCode b) : a = b := by
  revert h
  rcases a with _ | a <;> rcases b with _ | b
  · decide
  · cases b <;> decide
  · cases a <;> decide
  · cases a <;> cases b <;> decide

/-- Settles O46: the three fields are digits of `STATUS`, and their codes are injective. -/
theorem statusPinsHoldTheirFields : Obligations.StatusPinsHoldTheirFields := by
  intro s
  have hfield (u : State) : (statusWord u).toNat % 8 = (stCode u.st).toNat ∧
      (statusWord u).toNat / 8 % 8 = (optErrCode u.lastErr).toNat ∧ (statusWord u).toNat / 64 = u.idx.toNat := by
    have hst := (stCode u.st).isLt
    have herr := (optErrCode u.lastErr).isLt
    rw [statusWord_eq_append, toNat_append_eq_add, toNat_append_eq_add]
    omega
  obtain ⟨hst, herr, hidx⟩ := hfield s
  refine ⟨hst.trans ?_, herr.trans ?_, hidx, fun u hu => ?_, BitVec.toNat_ofNat .., BitVec.toNat_ofNat ..⟩
  · cases s.st <;> rfl
  · rcases s.lastErr with _ | e
    · rfl
    · cases e <;> rfl
  · obtain ⟨hst', herr', hidx'⟩ := hfield u
    rw [← hu] at hst' herr' hidx'
    exact ⟨stCode_injective (BitVec.eq_of_toNat_eq (hst.symm.trans hst')),
      optErrCode_injective (BitVec.eq_of_toNat_eq (herr.symm.trans herr')),
      BitVec.eq_of_toNat_eq (hidx.symm.trans hidx')⟩

end Sys2Proof.Machine
end

section
/-! PROOFS. Nothing about earlier packets influences later results (`10_state.md` R41): two states alike in what a rule
reads stay alike, edge by edge, and take the same results. -/

namespace Sys2Proof.Machine

section Alike

variable {s u t : State} {p : Pins}

/-- Alike in what the rules read: `ST`, `IDX`, `POS`, `RES` and `CFG`, and while a window is open its offset and its
valid bytes. The rest of the window, `PKT_OFF` at other times, `LAST_ERR` and the records may differ. -/
structure Alike (s u : State) : Prop where
  st : u.st = s.st
  idx : u.idx = s.idx
  pos : u.pos = s.pos
  res : u.res = s.res
  cfg : u.cfg = s.cfg
  wf_left : Memory.wf s.w = true
  wf_right : Memory.wf u.w = true
  window : s.st = .decoding → u.pktOff = s.pktOff ∧ ∀ i < s.idx.toNat, Memory.read u.w i = Memory.read s.w i

theorem Alike.withInputs (h : Alike s u) (ps : List Pins) :
    Alike { s with inputs := ps } { u with inputs := ps } :=
  ⟨h.st, h.idx, h.pos, h.res, h.cfg, h.wf_left, h.wf_right, h.window⟩

theorem Alike.inFire_eq (h : Alike s u) (p : Pins) : inFire u p = inFire s p := by
  simp [inFire, inReady, h.st]

theorem Alike.outFire_eq (h : Alike s u) (p : Pins) : outFire u p = outFire s p := by
  simp [outFire, outValid, h.st]

theorem Alike.afterOut_eq (h : Alike s u) : afterOut u = afterOut s := by
  have hheld : heldError u = heldError s := by rw [heldError, h.res, heldError]
  rw [afterOut, h.st, hheld, h.cfg, afterOut]

theorem Alike.takeResult (h : Alike s u) (hov : outValid s = true) : Alike (takeResult s) (takeResult u) := by
  refine ⟨h.afterOut_eq, rfl, h.pos, rfl, h.cfg, h.wf_left, h.wf_right, fun hst => ?_⟩
  rw [takeResult_st, afterOut_of_outValid hov] at hst
  split at hst <;> cases hst

theorem Alike.openWindow (h : Alike s u) (d : Byte) :
    Alike (acceptByte d (openWindow s)) (acceptByte d (openWindow u)) := by
  refine ⟨rfl, rfl, by simp [h.pos], h.res, h.cfg, Memory.wf_write h.wf_left, Memory.wf_write h.wf_right,
    fun _ => ⟨h.pos, fun i hi => ?_⟩⟩
  obtain rfl : i = 0 := Nat.lt_one_iff.1 hi
  exact (Memory.read_write_same h.wf_right).trans (Memory.read_write_same h.wf_left).symm

theorem Alike.storeByte (h : Alike s u) (hst : s.st = .decoding) (hidx : s.idx.toNat ≤ 187) (d : Byte) :
    Alike (acceptByte d (storeByte d s)) (acceptByte d (storeByte d u)) := by
  obtain ⟨hoff, hread⟩ := h.window hst
  refine ⟨h.st, by simp [h.idx], by simp [h.pos], h.res, h.cfg, Memory.wf_write h.wf_left, Memory.wf_write h.wf_right,
    fun _ => ⟨hoff, fun i hi => ?_⟩⟩
  have hnext : (s.idx + 1#8).toNat = s.idx.toNat + 1 := by bv_omega
  simp only [acceptByte_idx, storeByte_idx, hnext] at hi
  simp only [acceptByte_w, storeByte_w, h.idx]
  obtain hlt | rfl := Nat.lt_or_eq_of_le (Nat.le_of_lt_succ hi)
  · rw [Memory.read_write_other hlt.ne, Memory.read_write_other hlt.ne, hread i hlt]
  · rw [Memory.read_write_same h.wf_right, Memory.read_write_same h.wf_left]

/-- Of two windows alike `decode` answers the same. -/
theorem Alike.windowBytes_eq (h : Alike s u) (hst : s.st = .decoding) : windowBytes u = windowBytes s := by
  obtain ⟨-, hread⟩ := h.window hst
  rw [windowBytes, windowBytes, h.idx]
  exact List.map_congr_left fun i hi => hread i (List.mem_range.1 hi)

/-- Raising the same error, of no open window. -/
theorem Alike.raise (h : Alike s u) {e : ErrCode} {info info' cause : Byte} {q q' : Nat} (hinfo : info' = info)
    (hq : q' = q) : Alike (raise e info cause q s) (raise e info' cause q' u) := by
  refine ⟨rfl, h.idx, h.pos, by simp [hinfo, hq], h.cfg, h.wf_left, h.wf_right, fun hst => ?_⟩
  cases e <;> cases hst

theorem Alike.loadDecoded (h : Alike s u) (hst : s.st = .decoding) (r : DecodeResult) :
    Alike (loadDecoded r s) (loadDecoded r u) := by
  obtain ⟨hoff, -⟩ := h.window hst
  cases r with
  | ok pkt =>
    exact ⟨rfl, h.idx, h.pos, by simp [Machine.loadDecoded, hoff], h.cfg, h.wf_left, h.wf_right, nofun⟩
  | err e =>
    simp only [Machine.loadDecoded, h.idx]
    exact h.raise rfl hoff

/-- An edge leads two states alike to two states alike, and they take the same result or none. -/
theorem Alike.step (h : Alike s u) (heff : EdgeEffect s p t) (hrst : p.rst = false) :
    ∃ v rs, EdgeEffect u p v ∧ Alike t v ∧ t.emitted = s.emitted ++ rs ∧ v.emitted = u.emitted ++ rs := by
  have hin := h.inFire_eq p
  have hout := h.outFire_eq p
  cases heff with
  | reset hr => simp [hrst] at hr
  | out _ hfire =>
    exact ⟨_, _, .out hrst (hout.trans hfire), h.takeResult (outValid_of_outFire hfire), rfl, by
      rw [takeResult_emitted, h.res]⟩
  | scanHit _ hfire hst herr heos hd hroom =>
    exact ⟨_, [], .scanHit hrst (hin.trans hfire) (h.st.trans hst) herr heos hd (h.pos ▸ hroom), h.openWindow _,
      by simp, by simp⟩
  | scanSkip _ hfire hst herr heos hd hroom =>
    refine ⟨_, [], .scanSkip hrst (hin.trans hfire) (h.st.trans hst) herr heos hd (h.pos ▸ hroom), ?_, by simp, by simp⟩
    exact ⟨h.st, h.idx, by simp [h.pos], h.res, h.cfg, h.wf_left, h.wf_right, h.window⟩
  | scanEos _ hfire hst herr heos =>
    refine ⟨_, [], .scanEos hrst (hin.trans hfire) (h.st.trans hst) herr heos, ?_, by simp, by simp⟩
    exact ⟨rfl, h.idx, h.pos, h.res, h.cfg, h.wf_left, h.wf_right, nofun⟩
  | scanIoerr _ hfire hst herr =>
    exact ⟨_, [], .scanIoerr hrst (hin.trans hfire) (h.st.trans hst) herr, h.raise rfl h.pos, by simp, by simp⟩
  | fill _ hfire hst herr heos hroom hidx =>
    exact ⟨_, [], .fill hrst (hin.trans hfire) (h.st.trans hst) herr heos (h.pos ▸ hroom) (h.idx ▸ hidx),
      h.storeByte hst hidx.le _, by simp, by simp⟩
  | fillLast _ hfire hst herr heos hroom hidx t ht =>
    have hfull := h.storeByte hst hidx.le p.inData
    have hlast : u.idx = 187#8 := by rw [h.idx]; exact BitVec.eq_of_toNat_eq hidx
    refine ⟨_, [], .fillLast hrst (hin.trans hfire) (h.st.trans hst) herr heos (h.pos ▸ hroom) (h.idx ▸ hidx) _
      (completeWindow_eq _ ((windowFull_iff _).2 ⟨h.st.trans hst, idx_fill_last hlast _⟩)), ?_, ?_, ?_⟩
    · rw [fillLast_eq hst hidx ht, hfull.windowBytes_eq hst, acceptByte_cfg, storeByte_cfg, h.cfg]
      exact hfull.loadDecoded hst _
    · simp [fillLast_eq hst hidx ht]
    · simp
  | fillEos _ hfire hst herr heos =>
    obtain ⟨hoff, -⟩ := h.window hst
    exact ⟨_, [], .fillEos hrst (hin.trans hfire) (h.st.trans hst) herr heos, h.raise h.idx hoff, by simp, by simp⟩
  | fillIoerr _ hfire hst herr =>
    exact ⟨_, [], .fillIoerr hrst (hin.trans hfire) (h.st.trans hst) herr, h.raise rfl h.pos, by simp, by simp⟩
  | idle _ ho hi => exact ⟨_, [], .idle hrst (hout.trans ho) (hin.trans hi), h, by simp, by simp⟩

theorem Alike.drive (h : Alike s u) {turns : List Turn} {beats : List Beat} (hd : drive turns beats s = .next t) :
    ∃ v rs, Machine.drive turns beats u = .next v ∧ Alike t v ∧ t.emitted = s.emitted ++ rs ∧
      v.emitted = u.emitted ++ rs := by
  induction turns generalizing beats s u with
  | nil => cases hd; exact ⟨u, [], rfl, h, by simp, by simp⟩
  | cons turn turns ih =>
    obtain ⟨a, heff, hrest⟩ := drive_cons.1 hd
    obtain ⟨b, rs, heff', hab, hs, hu⟩ := (h.withInputs []).step heff (rst_turnPins turn beats)
    obtain ⟨v, rs', hdrive, htv, ht, hv⟩ := ih hab hrest
    refine ⟨v, rs ++ rs', drive_cons.2 ⟨b, heff', ?_⟩, htv, by rw [ht, hs, List.append_assoc],
      by rw [hv, hu, List.append_assoc]⟩
    rw [h.inFire_eq]
    exact hdrive

end Alike

/-- Settles O56: two states that seek at one offset under one `CFG` are alike. -/
theorem noHistoryInfluencesLaterResults : Obligations.NoHistoryInfluencesLaterResults := by
  intro s u turns beats t hs hu hsidx huidx hsres hures hpos hcfg hsw huw hd
  have halike : Alike s u := ⟨hu.trans hs.symm, huidx.trans hsidx.symm, hpos.symm, hures.trans hsres.symm, hcfg.symm,
    hsw, huw, fun hno => by rw [hs] at hno; cases hno⟩
  obtain ⟨v, rs, hdrive, htv, ht, hv⟩ := halike.drive hd
  exact ⟨v, rs, hdrive, htv.st, htv.pos, htv.idx, htv.res, ht, hv⟩

end Sys2Proof.Machine
end

section
/-! PROOFS. The contract-level operations `FIND_SYNC` and `NEXT` as runs of edges (R90): that `NEXT` completes and
delivers at most one result (R162), and that `FIND_SYNC` does what `find_sync` says (R105). Answers: logs 10, 11. -/

namespace Sys2Proof.Machine

/-! ## Runs of edges -/

section Edges

/-- Whether a run of edges stops does not depend on the edges still to come. -/
def IgnoresInputs (stop : State → Bool) : Prop := ∀ s ps, stop { s with inputs := ps } = stop s

variable {stop : State → Bool} {s t : State} {p : Pins} {ps : List Pins}

/-- A run takes its edges from its list only. -/
theorem runEdges_inputs (hstop : IgnoresInputs stop) (ps qs : List Pins) (s : State) :
    runEdges stop ps { s with inputs := qs } = runEdges stop ps s := by
  cases ps with
  | nil => rfl
  | cons p ps => simp only [runEdges, hstop s]

theorem runEdges_of_stop (h : stop s = true) (ps : List Pins) :
    runEdges stop ps s = .next { s with inputs := ps } := by
  cases ps with
  | nil => rfl
  | cons p ps => rw [runEdges, h]; rfl

theorem runEdges_cons (h : stop s = false) (hrst : p.rst = false) (heff : EdgeEffect { s with inputs := ps } p t) :
    runEdges stop (p :: ps) s = runEdges stop ps t := by
  rw [runEdges, h, hrst, clockEdge_eq_next.2 heff]
  rfl

/-- What taking an edge off keeps, and every effect but `RESET` on a state in which the run goes on, a run keeps. -/
theorem runEdges_keeps_of_go {P : State → Prop} (hstop : IgnoresInputs stop)
    (hin : ∀ u qs, P u → P { u with inputs := qs })
    (hedge : ∀ u q v, P u → stop u = false → q.rst = false → EdgeEffect u q v → P v)
    (hp : P s) (h : runEdges stop ps s = .next t) : P t := by
  induction ps generalizing s with
  | nil => cases h; exact hin _ _ hp
  | cons p ps ih =>
    simp only [runEdges] at h
    split at h
    · cases h; exact hin _ _ hp
    · rename_i hgo
      simp only [Bool.or_eq_true, not_or, Bool.not_eq_true] at hgo
      obtain ⟨u, hu, hrest⟩ := andThen_eq_next.1 h
      exact ih (hedge _ _ _ (hin s ps hp) ((hstop s ps).trans hgo.1) hgo.2 (clockEdge_eq_next.1 hu)) hrest

/-- No edge is left, or a `RESET` comes (log 11). -/
def OutOfEdges (s : State) : Prop := s.inputs = [] ∨ ∃ p ps, s.inputs = p :: ps ∧ p.rst = true

theorem EdgeEffect.pos_le (h : EdgeEffect s p t) : t.pos ≤ s.pos + 1 := by
  rw [h.pos_eq]
  split_ifs <;> omega

/-- From a state of the invariant with room for a byte on every edge, a run of edges completes: it stops where it is
told to, or is out of edges. -/
theorem runEdges_completes (hstop : IgnoresInputs stop) (hs : StateInv s) (hroom : s.pos + ps.length < 2 ^ 64) :
    ∃ t, runEdges stop ps s = .next t ∧ t.pos + t.inputs.length ≤ s.pos + ps.length ∧
      (stop t = true ∨ OutOfEdges t) := by
  induction ps generalizing s with
  | nil => exact ⟨_, rfl, le_rfl, .inr (.inl rfl)⟩
  | cons p ps ih =>
    rw [List.length_cons] at hroom ⊢
    by_cases hgo : (stop s || p.rst) = true
    · refine ⟨{ s with inputs := p :: ps }, by rw [runEdges, if_pos hgo], le_rfl, ?_⟩
      obtain hs' | hrst := Bool.or_eq_true_iff.1 hgo
      · exact .inl ((hstop s _).trans hs')
      · exact .inr (.inr ⟨p, ps, rfl, hrst⟩)
    · simp only [Bool.or_eq_true, not_or, Bool.not_eq_true] at hgo
      obtain ⟨-, hrow⟩ := (stateInv_iff s).1 hs
      obtain ⟨u, heff⟩ : ∃ u, EdgeEffect { s with inputs := ps } p u :=
        exists_edgeEffect (fun hst => ((rowInv_decoding hst).1 hrow).2.1) fun _ _ _ => by
          simp only [Config.streamLimit]; omega
      have hpos : u.pos ≤ s.pos + 1 := heff.pos_le
      obtain ⟨t, hrun, hleft, hend⟩ := ih (s := u) (heff.keeps_stateInv hs) (by omega)
      exact ⟨t, (runEdges_cons hgo.1 hgo.2 heff).trans hrun, by omega, hend⟩

end Edges

/-! ## `NEXT` delivers at most one result -/

section Next

variable {s t held : State}

theorem runToResult_keeps_stateInv (hs : StateInv s) (h : runToResult s = .next held) : StateInv held :=
  runEdges_keeps_stateInv h hs

/-- Until a result is held no result is taken. -/
theorem runToResult_emitted (h : runToResult s = .next held) : held.emitted = s.emitted := by
  refine runEdges_keeps_of_go (P := fun u => u.emitted = s.emitted) (fun _ _ => rfl) (fun _ _ hu => hu) ?_ rfl h
  intro u q v hu hgo hrst heff
  have hir : inReady u = true := by simpa using hgo
  obtain ⟨hno, -⟩ | ⟨-, hfire, -⟩ | ⟨-, hfire⟩ | ⟨-, -, -, rfl⟩ := heff.kind
  · simp [hrst] at hno
  · have hno := inReady_eq_false_of_outValid (outValid_of_outFire hfire)
    rw [hir] at hno; cases hno
  · exact (heff.emitted_of_inFire hrst hfire).trans hu
  · exact hu

/-- The Consumer's turn: the result is still held, or it has been taken. -/
def HeldOrTaken (held u : State) : Prop :=
  (outValid u = true ∧ u.res = held.res ∧ u.emitted = held.emitted) ∨
    (outValid u = false ∧ u.emitted = held.emitted ++ held.res.toList)

theorem outValid_takeResult (hov : outValid s = true) : outValid (takeResult s) = false := by
  simp only [outValid, St.holding, takeResult_st, afterOut_of_outValid hov]
  split <;> rfl

theorem heldOrTaken_of_runToTaken (hov : outValid held = true) (h : runToTaken held = .next t) :
    HeldOrTaken held t := by
  refine runEdges_keeps_of_go (P := HeldOrTaken held) (fun _ _ => rfl) (fun _ _ hu => hu) ?_
    (.inl ⟨hov, rfl, rfl⟩) h
  intro u q v hu hgo hrst heff
  have hov' : outValid u = true := by simpa using hgo
  obtain ⟨-, hres, hem⟩ | ⟨hno, -⟩ := hu
  · cases hready : q.outReady with
    | false => rw [heff.eq_of_held hrst hov' hready]; exact .inl ⟨hov', hres, hem⟩
    | true =>
      obtain ⟨hno, -⟩ | ⟨-, -, rfl⟩ | ⟨-, hfire⟩ | ⟨-, hout, -⟩ := heff.kind
      · simp [hrst] at hno
      · exact .inr ⟨outValid_takeResult hov', by rw [takeResult_emitted, hem, hres]⟩
      · have hfire' : outFire u q = true := by simp [outFire, hov', hready]
        simp [outFire_eq_false_of_inFire hfire] at hfire'
      · simp [outFire, hov', hready] at hout
  · rw [hov'] at hno; cases hno

theorem execNext_of_held (hrun : runToResult s = .next held) (hov : outValid held = true)
    (htake : runToTaken held = .next t) : execNext s = .next (answerWith (takenAnswer held t) t) := by
  rw [execNext, hrun, andThen_next, if_pos hov, htake, andThen_next]

theorem execNext_of_not_held (hrun : runToResult s = .next held) (hov : outValid held = false) :
    execNext s = .next (answerWith (if ended held then .ended else .waiting) held) := by
  rw [execNext, hrun, andThen_next, hov]
  rfl

/-- Settles O36: the first half of `NEXT` ends with a result held, at an end, or out of edges; the second takes the
result or is out of edges. -/
theorem nextDeliversAtMostOneResult : Obligations.NextDeliversAtMostOneResult := by
  intro s hs hroom
  obtain ⟨held, hrun, hleft, hend⟩ :=
    runEdges_completes (stop := fun u => !inReady u) (fun _ _ => rfl) hs hroom
  have hem := runToResult_emitted hrun
  have hheld := runToResult_keeps_stateInv hs hrun
  obtain ⟨hir, hov, hnot⟩ | ⟨-, hov, -⟩ | ⟨-, hov, hfin⟩ := kind_cases held
  · refine ⟨_, execNext_of_not_held hrun hov, .inr (.inr ⟨by simp [hnot], hem, ?_⟩)⟩
    obtain hno | hout := hend
    · simp [hir] at hno
    · exact hout
  · obtain ⟨r, hres, -⟩ := exists_held hheld hov
    obtain ⟨t, htake, -, hend'⟩ := runEdges_completes (stop := fun u => !outValid u) (ps := held.inputs)
      (fun _ _ => rfl) hheld (by omega)
    refine ⟨_, execNext_of_held hrun hov htake, ?_⟩
    obtain ⟨hov', -, hsame⟩ | ⟨hov', htaken⟩ := heldOrTaken_of_runToTaken hov htake
    · refine .inr (.inr ⟨by simp [takenAnswer, hov'], hsame.trans hem, ?_⟩)
      obtain hno | hout := hend'
      · simp [hov'] at hno
      · exact hout
    · exact .inl ⟨r, by simp [takenAnswer, hov', hres], by
        rw [answerWith_emitted, htaken, hem, hres, Option.toList_some]⟩
  · exact ⟨_, execNext_of_not_held hrun hov, .inr (.inl ⟨by simp [hfin], hfin, hem⟩)⟩

end Next

/-! ## The beats of SEEKING, one an edge -/

section Scan

variable {stop : State → Bool} {S : Source} {s : State} {p q : Nat}

/-- The edges on which a Source offers bytes. -/
def byteEdges (bs : List Byte) : List Pins := (bs.map Beat.data).map Pins.offer

theorem byteEdges_cons (b : Byte) (bs : List Byte) :
    byteEdges (b :: bs) = Pins.offer (.data b) :: byteEdges bs := rfl

/-- Bytes read and not kept. -/
def skipBytes (bs : List Byte) (s : State) : State := { s with pos := s.pos + bs.length, stream := s.stream ++ bs }

theorem skipBytes_cons (b : Byte) (bs : List Byte) (s : State) :
    skipBytes (b :: bs) s = skipBytes bs (acceptByte b s) := by
  simp [skipBytes, acceptByte, Nat.add_assoc, Nat.add_comm]

theorem inFire_offer (h : inReady s = true) (b : Beat) : inFire s (Pins.offer b) = true := by
  cases b <;> simp [inFire, h, Pins.offer]

theorem rst_offer (b : Beat) : (Pins.offer b).rst = false := by
  cases b <;> rfl

/-- Bytes other than the sync byte are skipped one by one. -/
theorem runEdges_skip (hstop : IgnoresInputs stop) (hgo : ∀ u : State, u.st = .seeking → stop u = false)
    {bs : List Byte} (hbs : Config.syncByte ∉ bs) (hst : s.st = .seeking) (hroom : s.pos + bs.length < 2 ^ 64)
    (ps : List Pins) : runEdges stop (byteEdges bs ++ ps) s = runEdges stop ps (skipBytes bs s) := by
  induction bs generalizing s with
  | nil => simp [byteEdges, skipBytes]
  | cons b bs ih =>
    rw [List.mem_cons, not_or] at hbs
    rw [List.length_cons] at hroom
    have hfire : inFire s (Pins.offer (.data b)) = true := inFire_offer ((inReady_iff s).2 (.inl hst)) _
    have heff : EdgeEffect { s with inputs := byteEdges bs ++ ps } (Pins.offer (.data b))
        { acceptByte b s with inputs := byteEdges bs ++ ps } :=
      .scanSkip rfl hfire hst rfl rfl (Ne.symm hbs.1) (by simp only [Config.streamLimit]; omega)
    rw [skipBytes_cons, ← ih hbs.2 (s := acceptByte b s) hst (by rw [acceptByte_pos]; omega), byteEdges_cons,
      List.cons_append, runEdges_cons (hgo s hst) (rst_offer _) heff, runEdges_inputs hstop]

/-- The sync byte opens the window. -/
theorem runEdges_hit (hstop : IgnoresInputs stop) (hgo : ∀ u : State, u.st = .seeking → stop u = false)
    (hst : s.st = .seeking) (hroom : s.pos + 1 < 2 ^ 64) (ps : List Pins) :
    runEdges stop (Pins.offer (.data Config.syncByte) :: ps) s =
      runEdges stop ps (acceptByte Config.syncByte (openWindow s)) := by
  have heff : EdgeEffect { s with inputs := ps } (Pins.offer (.data Config.syncByte))
      { acceptByte Config.syncByte (openWindow s) with inputs := ps } :=
    .scanHit rfl (inFire_offer ((inReady_iff s).2 (.inl hst)) _) hst rfl rfl rfl hroom
  rw [runEdges_cons (hgo s hst) (rst_offer _) heff, runEdges_inputs hstop]

/-- The terminal beat in SEEKING: a clean end, or `SyncIo` at `POS`. -/
def scanEnd (term : Terminator) (s : State) : State :=
  match term with
  | .eos => { s with st := .terminated }
  | .ioerr c => raise .syncIo 0#8 c s.pos s

theorem runEdges_scanEnd (hstop : IgnoresInputs stop) (hgo : ∀ u : State, u.st = .seeking → stop u = false)
    (hst : s.st = .seeking) (term : Terminator) (ps : List Pins) :
    runEdges stop (Pins.offer term.beat :: ps) s = runEdges stop ps (scanEnd term s) := by
  have hfire : inFire s (Pins.offer term.beat) = true := inFire_offer ((inReady_iff s).2 (.inl hst)) _
  have heff : EdgeEffect { s with inputs := ps } (Pins.offer term.beat) { scanEnd term s with inputs := ps } := by
    cases term with
    | eos => exact .scanEos rfl hfire hst rfl rfl
    | ioerr c => exact .scanIoerr rfl hfire hst rfl
  rw [runEdges_cons (hgo s hst) (rst_offer _) heff, runEdges_inputs hstop]

/-- The bytes from `p` on, split at the sync byte found. -/
theorem bytes_split_of_found (hf : findSync S p = .found q) : ∃ pre, Config.syncByte ∉ pre ∧ p + pre.length = q ∧
    S.bytes.drop p = pre ++ Config.syncByte :: S.bytes.drop (q + 1) := by
  obtain ⟨hpq, hat, hbelow⟩ := findSync_found_iff.1 hf
  obtain ⟨hlt, hsync⟩ := List.getElem?_eq_some_iff.1 hat
  refine ⟨(S.bytes.drop p).take (q - p), fun hmem => ?_, ?_, ?_⟩
  · obtain ⟨i, hi, hi'⟩ := List.mem_iff_getElem.1 hmem
    simp only [List.length_take, List.length_drop] at hi
    rw [List.getElem_take, List.getElem_drop] at hi'
    exact hbelow (p + i) (Nat.le_add_right p i) (by omega) (by rw [List.getElem?_eq_getElem (by omega), hi'])
  · rw [List.length_take, List.length_drop]
    omega
  · rw [← hsync, ← List.drop_eq_getElem_cons hlt]
    conv_lhs => rw [← List.take_append_drop (q - p) (S.bytes.drop p), List.drop_drop, Nat.add_sub_cancel' hpq]

theorem sync_not_mem_of_not_found (hf : firstSync (S.bytes.drop p) p = none) : Config.syncByte ∉ S.bytes.drop p := by
  rw [firstSync_eq_none] at hf
  rw [List.mem_iff_getElem?, not_exists]
  exact hf

theorem beats_drop (hp : p ≤ S.bytes.length) :
    S.beats.drop p = (S.bytes.drop p).map Beat.data ++ [S.term.beat] := by
  rw [Source.beats, List.drop_append_of_le_length (by simpa using hp), List.map_drop]

/-- A search that ends on a sync byte opens the window behind the bytes skipped. -/
theorem runEdges_search_found (hstop : IgnoresInputs stop) (hgo : ∀ u : State, u.st = .seeking → stop u = false)
    (hst : s.st = .seeking) (hn : S.bytes.length < 2 ^ 64) {pre : List Byte} (hpre : Config.syncByte ∉ pre)
    (hq : s.pos + pre.length < S.bytes.length) (ps : List Pins) :
    runEdges stop (byteEdges (pre ++ [Config.syncByte]) ++ ps) s =
      runEdges stop ps (acceptByte Config.syncByte (openWindow (skipBytes pre s))) := by
  have hedges : byteEdges (pre ++ [Config.syncByte]) ++ ps =
      byteEdges pre ++ Pins.offer (.data Config.syncByte) :: ps := by simp [byteEdges]
  rw [hedges, runEdges_skip hstop hgo hpre hst (by omega),
    runEdges_hit (s := skipBytes pre s) hstop hgo hst (by simp only [skipBytes]; omega)]

/-- A search without a sync byte ends on the source's terminal beat. -/
theorem runEdges_search_end (hstop : IgnoresInputs stop) (hgo : ∀ u : State, u.st = .seeking → stop u = false)
    (hst : s.st = .seeking) (hn : S.bytes.length < 2 ^ 64) (hp : s.pos ≤ S.bytes.length)
    (hf : firstSync (S.bytes.drop s.pos) s.pos = none) (ps : List Pins) :
    runEdges stop ((S.beats.drop s.pos).map Pins.offer ++ ps) s =
      runEdges stop ps (scanEnd S.term (skipBytes (S.bytes.drop s.pos) s)) := by
  have hedges : (S.beats.drop s.pos).map Pins.offer ++ ps =
      byteEdges (S.bytes.drop s.pos) ++ Pins.offer S.term.beat :: ps := by simp [beats_drop hp, byteEdges]
  rw [hedges, runEdges_skip hstop hgo (sync_not_mem_of_not_found hf) hst (by rw [List.length_drop]; omega),
    runEdges_scanEnd (s := skipBytes _ s) hstop hgo hst]

theorem pos_skipBytes_drop (hp : s.pos ≤ S.bytes.length) :
    (skipBytes (S.bytes.drop s.pos) s).pos = S.bytes.length := by
  simp only [skipBytes, List.length_drop]
  omega

end Scan

/-- Settles O35, by what the search finds: the run skips the bytes before it and stops behind it. -/
theorem findSyncOperationAgreesWithTheFunction : Obligations.FindSyncOperationAgreesWithTheFunction := by
  intro S s rest hst hp hn hwf hin
  have hstop : IgnoresInputs fun u => u.st != .seeking := fun _ _ => rfl
  have hgo (u : State) (hu : u.st = .seeking) : (u.st != .seeking) = false := by simp [hu]
  have hop {u : State} (hrun : runEdges (fun u => u.st != .seeking) s.inputs s = .next u) :
      exec .findSync s = .next (answerWith (syncAnswer u) u) := by
    simp [exec, execFindSync, hst, hrun]
  cases hf : firstSync (S.bytes.drop s.pos) s.pos with
  | some q =>
    have hfound := findSync_eq_found.2 hf
    obtain ⟨pre, hpre, hq, hsplit⟩ := bytes_split_of_found hfound
    have hlt := lt_length_of_found hfound
    have hedges : s.inputs =
        byteEdges (pre ++ [Config.syncByte]) ++ ((S.beats.drop (q + 1)).map Pins.offer ++ rest) := by
      rw [hin, beats_drop hp, beats_drop hlt, hsplit]
      simp [byteEdges]
    have hrun := runEdges_search_found hstop hgo hst hn hpre (hq ▸ hlt) ((S.beats.drop (q + 1)).map Pins.offer ++ rest)
    rw [← hedges] at hrun
    refine ⟨_, hop (hrun.trans (runEdges_of_stop rfl _)), ?_⟩
    rw [hfound]
    refine ⟨by simp [syncAnswer, skipBytes, hq], rfl, rfl, ?_, nofun, nofun⟩
    rintro _ ⟨⟩
    exact ⟨rfl, hq, congrArg (· + 1) hq, rfl, Memory.read_write_same hwf, rfl, rfl, rfl⟩
  | none =>
    have hpos := pos_skipBytes_drop hp
    have hrun := runEdges_search_end hstop hgo hst hn hp hf rest
    rw [← hin] at hrun
    cases hterm : S.term with
    | eos =>
      have hend := findSync_eq_endOfStream.2 ⟨hf, hterm⟩
      rw [hterm] at hrun
      refine ⟨_, hop (hrun.trans (runEdges_of_stop rfl _)), ?_⟩
      rw [hend]
      exact ⟨rfl, rfl, rfl, nofun, fun _ => ⟨rfl, hpos, rfl, rfl, rfl, rfl, rfl⟩, nofun⟩
    | ioerr c =>
      have hio := findSync_eq_io.2 ⟨hf, hterm⟩
      rw [hterm] at hrun
      refine ⟨_, hop (hrun.trans (runEdges_of_stop rfl _)), ?_⟩
      rw [hio]
      refine ⟨rfl, rfl, rfl, nofun, nofun, ?_⟩
      rintro _ ⟨⟩
      refine ⟨rfl, hpos, rfl, rfl, ?_, rfl, rfl⟩
      simp [scanEnd, hpos]

end Sys2Proof.Machine
end

section
/-! PROOFS. `NEXT` over the beats of a source (R162 (a) to (c)): the search, the window and the Consumer's turn, and
what the state then holds of the stream (answers: logs 10, 11). -/

namespace Sys2Proof.Machine

/-! ## The beats of DECODING, one an edge -/

section Fill

variable {stop : State → Bool} {s : State}

/-- Bytes stored in the window. -/
def fillBytes : List Byte → State → State
  | [], s => s
  | b :: bs, s => fillBytes bs (acceptByte b (storeByte b s))

/-- What storing bytes leaves, and where it moves `POS` and `IDX`. -/
theorem fillBytes_fields {bs : List Byte} (hidx : s.idx.toNat + bs.length ≤ 187) :
    (fillBytes bs s).st = s.st ∧ (fillBytes bs s).pktOff = s.pktOff ∧ (fillBytes bs s).pos = s.pos + bs.length ∧
      (fillBytes bs s).stream = s.stream ++ bs ∧ (fillBytes bs s).idx.toNat = s.idx.toNat + bs.length := by
  induction bs generalizing s with
  | nil => simp [fillBytes]
  | cons b bs ih =>
    rw [List.length_cons] at hidx
    have hnext : (s.idx + 1#8).toNat = s.idx.toNat + 1 := by bv_omega
    obtain ⟨hst, hoff, hpos, hstream, hi⟩ := ih (s := acceptByte b (storeByte b s))
      (by rw [acceptByte_idx, storeByte_idx, hnext]; omega)
    refine ⟨hst, hoff, hpos.trans ?_, hstream.trans ?_, hi.trans ?_⟩
    · rw [acceptByte_pos, storeByte_pos, List.length_cons]; omega
    · simp
    · rw [acceptByte_idx, storeByte_idx, hnext, List.length_cons]; omega

/-- Bytes below offset 187 are stored one by one. -/
theorem runEdges_fill (hstop : IgnoresInputs stop) (hgo : ∀ u : State, u.st = .decoding → stop u = false)
    {bs : List Byte} (hst : s.st = .decoding) (hidx : s.idx.toNat + bs.length ≤ 187)
    (hroom : s.pos + bs.length < 2 ^ 64) (ps : List Pins) :
    runEdges stop (byteEdges bs ++ ps) s = runEdges stop ps (fillBytes bs s) := by
  induction bs generalizing s with
  | nil => rfl
  | cons b bs ih =>
    rw [List.length_cons] at hidx hroom
    have hnext : (s.idx + 1#8).toNat = s.idx.toNat + 1 := by bv_omega
    have hfire : inFire s (Pins.offer (.data b)) = true := inFire_offer ((inReady_iff s).2 (.inr hst)) _
    have heff : EdgeEffect { s with inputs := byteEdges bs ++ ps } (Pins.offer (.data b))
        { acceptByte b (storeByte b s) with inputs := byteEdges bs ++ ps } :=
      .fill rfl hfire hst rfl rfl (by simp only [Config.streamLimit]; omega) (show s.idx.toNat < 187 by omega)
    rw [fillBytes, ← ih (s := acceptByte b (storeByte b s)) hst (by rw [acceptByte_idx, storeByte_idx, hnext]; omega)
      (by rw [acceptByte_pos, storeByte_pos]; omega), byteEdges_cons, List.cons_append,
      runEdges_cons (hgo s hst) (rst_offer _) heff, runEdges_inputs hstop]

/-- The byte at offset 187 loads the answer of `decode`. -/
theorem runEdges_fillLast (hstop : IgnoresInputs stop) (hgo : ∀ u : State, u.st = .decoding → stop u = false)
    (hst : s.st = .decoding) (hidx : s.idx.toNat = 187) (hroom : s.pos + 1 < 2 ^ 64) (d : Byte) (ps : List Pins) :
    runEdges stop (Pins.offer (.data d) :: ps) s =
      runEdges stop ps (loadDecoded (decode s.cfg (windowBytes (acceptByte d (storeByte d s))))
        (acceptByte d (storeByte d s))) := by
  have hlast : s.idx = 187#8 := BitVec.eq_of_toNat_eq hidx
  have hfire : inFire s (Pins.offer (.data d)) = true := inFire_offer ((inReady_iff s).2 (.inr hst)) _
  generalize hr : decode s.cfg (windowBytes (acceptByte d (storeByte d s))) = r
  have heff : EdgeEffect { s with inputs := ps } (Pins.offer (.data d))
      { loadDecoded r (acceptByte d (storeByte d s)) with inputs := ps } := by
    refine .fillLast (s := { s with inputs := ps }) rfl hfire hst rfl rfl hroom hidx _ ?_
    have hfull : windowFull (acceptByte d (storeByte d { s with inputs := ps })) = true :=
      (windowFull_iff _).2 ⟨hst, idx_fill_last (s := { s with inputs := ps }) hlast d⟩
    refine (completeWindow_eq _ hfull).trans ?_
    have hr' : decode s.cfg (windowBytes (acceptByte d (storeByte d { s with inputs := ps }))) = r := hr
    rw [acceptByte_cfg, storeByte_cfg, hr']
    cases r <;> rfl
  rw [runEdges_cons (hgo s hst) (rst_offer _) heff, runEdges_inputs hstop]

/-- The terminal beat in DECODING: `ShortBuffer`, or `ReadIo` at `POS`. -/
def fillEnd (term : Terminator) (s : State) : State :=
  match term with
  | .eos => raise .shortBuffer s.idx 0#8 s.pktOff s
  | .ioerr c => raise .readIo 0#8 c s.pos s

theorem runEdges_fillEnd (hstop : IgnoresInputs stop) (hgo : ∀ u : State, u.st = .decoding → stop u = false)
    (hst : s.st = .decoding) (term : Terminator) (ps : List Pins) :
    runEdges stop (Pins.offer term.beat :: ps) s = runEdges stop ps (fillEnd term s) := by
  have hfire : inFire s (Pins.offer term.beat) = true := inFire_offer ((inReady_iff s).2 (.inr hst)) _
  have heff : EdgeEffect { s with inputs := ps } (Pins.offer term.beat) { fillEnd term s with inputs := ps } := by
    cases term with
    | eos => exact .fillEos rfl hfire hst rfl rfl
    | ioerr c => exact .fillIoerr rfl hfire hst rfl
  rw [runEdges_cons (hgo s hst) (rst_offer _) heff, runEdges_inputs hstop]

end Fill

/-! ## The two halves of `NEXT` -/

section Next

variable {S : Source} {s held : State} {q : Nat} {rest : List Pins}

theorem ignoresInputs_not_inReady : IgnoresInputs fun u => !inReady u := fun _ _ => rfl

theorem goes_on_seeking (u : State) (h : u.st = .seeking) : (!inReady u) = false := by
  simp [inReady, h]

theorem goes_on_decoding (u : State) (h : u.st = .decoding) : (!inReady u) = false := by
  simp [inReady, h]

/-- The Consumer takes the held result at once, and `NEXT` answers it. -/
theorem exec_next_of_held (hrun : runToResult s = .next held) (hin : held.inputs = Pins.take :: rest)
    (hov : outValid held = true) {r : Result} (hres : held.res = some r) :
    exec .next s = .next (answerWith (.item r) { takeResult held with inputs := rest }) := by
  have hfire : outFire held Pins.take = true := by simp [outFire, hov, Pins.take]
  have heff : EdgeEffect { held with inputs := rest } Pins.take { takeResult held with inputs := rest } :=
    .out rfl hfire
  have htaken : outValid { takeResult held with inputs := rest } = false := outValid_takeResult hov
  have hdone : (!outValid { takeResult held with inputs := rest }) = true := by rw [htaken]; rfl
  have htake : runToTaken held = .next { takeResult held with inputs := rest } := by
    rw [runToTaken, hin, runEdges_cons (by rw [hov]; rfl) rfl heff]
    exact runEdges_of_stop hdone rest
  have hans : takenAnswer held { takeResult held with inputs := rest } = .item r := by
    rw [takenAnswer, htaken, hres]
    rfl
  rw [← hans]
  exact execNext_of_held hrun hov htake

/-- The window that `NEXT` opens at the offset found, with the bytes `body` after the sync byte. -/
def openedWindow (pre body : List Byte) (s : State) : State :=
  fillBytes body (acceptByte Config.syncByte (openWindow (skipBytes pre s)))

theorem openedWindow_fields {pre body : List Byte} (hbody : body.length ≤ 186) :
    (openedWindow pre body s).st = .decoding ∧ (openedWindow pre body s).pktOff = s.pos + pre.length ∧
      (openedWindow pre body s).pos = s.pos + pre.length + 1 + body.length ∧
      (openedWindow pre body s).stream = s.stream ++ (pre ++ Config.syncByte :: body) ∧
      (openedWindow pre body s).idx.toNat = 1 + body.length := by
  obtain ⟨hst, hoff, hpos, hstream, hidx⟩ :=
    fillBytes_fields (bs := body) (s := acceptByte Config.syncByte (openWindow (skipBytes pre s)))
      (by simp only [acceptByte_idx, openWindow_idx, BitVec.toNat_ofNat]; omega)
  exact ⟨hst, hoff, hpos, hstream.trans (by simp [skipBytes]), hidx⟩

/-- Searching and reading up to offset 186 of the window. -/
theorem runToResult_open (hst : s.st = .seeking) (hn : S.bytes.length < 2 ^ 64) {pre body : List Byte}
    (hpre : Config.syncByte ∉ pre) (hbody : body.length ≤ 186)
    (hlen : s.pos + pre.length + 1 + body.length ≤ S.bytes.length) {ps : List Pins}
    (hin : s.inputs = byteEdges (pre ++ Config.syncByte :: body) ++ ps) :
    runToResult s = runEdges (fun u => !inReady u) ps (openedWindow pre body s) := by
  have hedges : s.inputs = byteEdges (pre ++ [Config.syncByte]) ++ (byteEdges body ++ ps) := by
    rw [hin]; simp [byteEdges]
  rw [runToResult, hedges,
    runEdges_search_found ignoresInputs_not_inReady goes_on_seeking hst hn hpre (by omega),
    runEdges_fill ignoresInputs_not_inReady goes_on_decoding rfl
      (by simp only [acceptByte_idx, openWindow_idx, BitVec.toNat_ofNat]; omega)
      (by simp only [acceptByte_pos, openWindow_pos, skipBytes]; omega)]
  rfl

/-- A whole window over a source's beats: `NEXT`'s first half ends with the answer of `decode` on it held. -/
theorem runToResult_of_window (hst : s.st = .seeking) (hp : s.pos ≤ S.bytes.length)
    (hn : S.bytes.length < 2 ^ 64) (hf : findSync S s.pos = .found q) (hq : q + 188 ≤ S.bytes.length) {ps : List Pins}
    (hin : s.inputs = ((S.beats.drop s.pos).take (q + 188 - s.pos)).map Pins.offer ++ ps) :
    ∃ held, runToResult s = .next held ∧ held.inputs = ps ∧ outValid held = true ∧ held.pos = q + 188 ∧
      held.pktOff = q ∧ held.idx = 188#8 ∧ held.stream = s.stream ++ (S.bytes.drop s.pos).take (q + 188 - s.pos) := by
  obtain ⟨pre, hpre, hpos, hsplit⟩ := bytes_split_of_found hf
  have htail : ((S.bytes.drop (q + 1)).take 187).length = 187 := by
    rw [List.length_take, List.length_drop]; omega
  obtain ⟨body, d, hbody⟩ : ∃ body d, (S.bytes.drop (q + 1)).take 187 = body ++ [d] := by
    obtain hnil | hcons := List.eq_nil_or_concat ((S.bytes.drop (q + 1)).take 187)
    · rw [hnil] at htail; cases htail
    · simpa using hcons
  have hlen : body.length = 186 := by rw [hbody] at htail; simpa using htail
  have hread : (S.bytes.drop s.pos).take (q + 188 - s.pos) = pre ++ Config.syncByte :: (body ++ [d]) := by
    have hcount : q + 188 - s.pos = pre.length + (187 + 1) := by omega
    rw [hsplit, hcount, List.take_length_add_append, List.take_succ_cons, hbody]
  have hin' : s.inputs = byteEdges (pre ++ Config.syncByte :: body) ++ (Pins.offer (.data d) :: ps) := by
    have htake : q + 188 - s.pos ≤ ((S.bytes.drop s.pos).map Beat.data).length := by
      rw [List.length_map, List.length_drop]; omega
    rw [hin, beats_drop hp, List.take_append_of_le_length htake, ← List.map_take, hread]
    simp [byteEdges]
  obtain ⟨hwst, hwoff, hwpos, hwstream, hwidx⟩ := openedWindow_fields (pre := pre) (s := s) hlen.le
  have hidx : (openedWindow pre body s).idx = 187#8 := BitVec.eq_of_toNat_eq (by rw [hwidx, hlen]; rfl)
  have hrun := runToResult_open hst hn hpre hlen.le (by omega) hin'
  rw [runEdges_fillLast ignoresInputs_not_inReady goes_on_decoding hwst (by rw [hwidx, hlen]) (by omega)] at hrun
  have hfull := idx_fill_last hidx d
  have hov := outValid_loadDecoded_of_full (cfg := (openedWindow pre body s).cfg) hfull
  have hstops : (!inReady _) = true := congrArg not (inReady_eq_false_of_outValid hov)
  refine ⟨_, hrun.trans (runEdges_of_stop hstops _), rfl, hov, ?_, ?_, ?_, ?_⟩
  · simp [hwpos, hlen]; omega
  · simpa [hwoff] using hpos
  · simp [hidx]
  · rw [hread]; simp [hwstream]

/-- A full held window has been decoded. -/
theorem decoded_of_full (hs : StateInv s) (hov : outValid s = true) (hidx : s.idx = 188#8) :
    WindowOpen s ∧ ResultIsDecoded s := by
  obtain ⟨-, hrow⟩ := (stateInv_iff s).1 hs
  have hfull : s.idx.toNat = 188 := by rw [hidx]; rfl
  obtain hst | hst | hst := (outValid_iff s).1 hov
  · obtain ⟨-, hopen, -, hres⟩ := (rowInv_yield hst).1 hrow
    exact ⟨hopen, hres⟩
  · obtain ⟨hopen, -, ⟨-, hhigh, -⟩ | ⟨-, -, hres, -⟩⟩ := (rowInv_decodeFailed hst).1 hrow
    · omega
    · exact ⟨hopen, hres⟩
  · obtain ⟨-, -, ⟨-, hzero⟩ | ⟨-, -, hhigh, -⟩⟩ := (rowInv_seekFailed hst).1 hrow
    · rw [hzero] at hidx; cases hidx
    · omega

/-- The window held after reading `S` from offset `n` to the end of the window at `q` is the stream's window at `q`. -/
theorem windowBytes_of_read {n : Nat} {old : List Byte} (hs : StateInv held) (hopen : WindowOpen held)
    (hidx : held.idx = 188#8) (hoff : held.pktOff = q) (hold : old.length = n) (hnq : n ≤ q)
    (hstream : held.stream = old ++ (S.bytes.drop n).take (q + 188 - n)) : windowBytes held = S.window q := by
  obtain ⟨⟨-, hpos, -⟩, -⟩ := (stateInv_iff held).1 hs
  have hcount : q + 188 - n - (q - n) = 188 := by omega
  rw [windowBytes_of_open hpos hopen, hoff, hidx, hstream, List.drop_append, List.drop_eq_nil_of_le (by omega),
    List.nil_append, hold, List.drop_take, List.drop_drop, Nat.add_sub_cancel' hnq, hcount, List.take_take]
  rfl

end Next

/-- The first clause of R162: a whole window, its answer taken. -/
theorem exec_next_of_window {S : Source} {s : State} {q : Nat} {rest : List Pins} (hs : StateInv s)
    (hst : s.st = .seeking) (hp : s.pos ≤ S.bytes.length) (hn : S.bytes.length < 2 ^ 64)
    (hf : findSync S s.pos = .found q) (hq : q + 188 ≤ S.bytes.length)
    (hin : s.inputs = ((S.beats.drop s.pos).take (q + 188 - s.pos)).map Pins.offer ++ Pins.take :: rest) :
    ∃ t, exec .next s = .next t ∧ t.inputs = rest ∧ t.pos = q + 188 ∧ t.pktOff = q ∧
      t.answer = some (.item (S.windowResult s.cfg q)) ∧
      t.st = if (decode s.cfg (S.window q)).isOk || s.cfg.resync then .seeking else .fatal := by
  obtain ⟨held, hrun, hinputs, hov, hpos, hoff, hidx, hstream⟩ := runToResult_of_window hst hp hn hf hq hin
  have hheld := runToResult_keeps_stateInv hs hrun
  have hcfg : held.cfg = s.cfg := runEdges_keeps_cfg hrun
  obtain ⟨⟨-, hlen, -⟩, -⟩ := (stateInv_iff s).1 hs
  obtain ⟨hpq, -, -⟩ := findSync_found_iff.1 hf
  obtain ⟨hopen, hres⟩ := decoded_of_full hheld hov hidx
  rw [ResultIsDecoded, windowBytes_of_read hheld hopen hidx hoff hlen.symm hpq hstream, hcfg, hoff, hidx] at hres
  refine ⟨_, exec_next_of_held hrun hinputs hov hres, rfl, hpos, hoff, rfl, ?_⟩
  have hends : (S.windowResult s.cfg q).endsRun s.cfg = _ := endsRun_toResult (S.length_window hq) q 188#8
  obtain ⟨r, hr, -, hcase⟩ := exists_held hheld hov
  cases hres.symm.trans hr
  rw [hcfg, ← Source.windowResult, hends] at hcase
  change afterOut held = _
  obtain ⟨hstop, hafter⟩ | ⟨hgo, hafter, -⟩ := hcase
  · rw [Bool.not_eq_true'] at hstop
    rw [hafter, hstop]
    rfl
  · rw [Bool.not_eq_false'] at hgo
    rw [hafter, hgo]
    rfl

/-- The second clause: the stream ends inside the window. -/
theorem exec_next_of_short {S : Source} {s : State} {q : Nat} {rest : List Pins}
    (hst : s.st = .seeking) (hp : s.pos ≤ S.bytes.length) (hn : S.bytes.length < 2 ^ 64)
    (hf : findSync S s.pos = .found q) (hq : S.bytes.length < q + 188)
    (hin : s.inputs = (S.beats.drop s.pos).map Pins.offer ++ Pins.take :: rest) :
    ∃ t, exec .next s = .next t ∧ t.inputs = rest ∧ t.pos = S.bytes.length ∧ t.st = .fatal ∧
      t.answer = some (.item (S.shortResult q)) := by
  obtain ⟨pre, hpre, hpos, hsplit⟩ := bytes_split_of_found hf
  have hlt := lt_length_of_found hf
  have hbody : (S.bytes.drop (q + 1)).length = S.bytes.length - (q + 1) := List.length_drop
  have hin' : s.inputs = byteEdges (pre ++ Config.syncByte :: S.bytes.drop (q + 1)) ++
      (Pins.offer S.term.beat :: Pins.take :: rest) := by
    rw [hin, beats_drop hp, hsplit]
    simp [byteEdges]
  obtain ⟨hwst, hwoff, hwpos, -, hwidx⟩ :=
    openedWindow_fields (s := s) (pre := pre) (body := S.bytes.drop (q + 1)) (by omega)
  have hrun := runToResult_open hst hn hpre (by omega) (by omega) hin'
  rw [runEdges_fillEnd ignoresInputs_not_inReady goes_on_decoding hwst] at hrun
  generalize openedWindow pre (S.bytes.drop (q + 1)) s = w at *
  have hend : w.pos = S.bytes.length := by omega
  have hidx : w.idx = BitVec.ofNat 8 (S.bytes.length - q) := by
    have hcount : S.bytes.length - q = w.idx.toNat := by omega
    rw [hcount, BitVec.ofNat_toNat, BitVec.setWidth_eq]
  have hres : (fillEnd S.term w).res = some (S.shortResult q) := by
    cases hterm : S.term with
    | eos => simp [fillEnd, Source.shortResult, hterm, hidx, hwoff, hpos]
    | ioerr c => simp [fillEnd, Source.shortResult, hterm, hend]
  have hclosed : closed (fillEnd S.term w) = true := by
    cases S.term with
    | eos => exact closed_raise (.inr (.inr rfl)) ..
    | ioerr c => exact closed_raise (.inr (.inl rfl)) ..
  have hov : outValid (fillEnd S.term w) = true := by cases S.term <;> rfl
  have hwend : (fillEnd S.term w).pos = w.pos := by cases S.term <;> rfl
  have hstops : (!inReady (fillEnd S.term w)) = true := congrArg not (inReady_eq_false_of_outValid hov)
  rw [runEdges_of_stop hstops] at hrun
  exact ⟨_, exec_next_of_held hrun rfl hov hres, rfl, hwend.trans hend, afterOut_of_closed hclosed hov, rfl⟩

/-- Settles O37, a clause for each answer of the search. -/
theorem nextDeliversTheNextWindow : Obligations.NextDeliversTheNextWindow := by
  intro S s rest hs hst hp hn
  have hpos := pos_skipBytes_drop hp
  refine ⟨fun q hf hq hin => exec_next_of_window hs hst hp hn hf hq hin, fun q hf hq hin => ?_, fun hf hin => ?_,
    fun c hf hin => ?_⟩
  · obtain ⟨t, hex, hinputs, htpos, htst, hans⟩ := exec_next_of_short hst hp hn hf hq hin
    refine ⟨t, hex, hinputs, htpos, htst, hans.trans ?_⟩
    unfold Source.shortResult
    cases S.term <;> rfl
  · obtain ⟨hnone, hterm⟩ := findSync_eq_endOfStream.1 hf
    have hrun : runToResult s = _ :=
      hin ▸ runEdges_search_end ignoresInputs_not_inReady goes_on_seeking hst hn hp hnone rest
    rw [hterm, runEdges_of_stop rfl] at hrun
    exact ⟨_, execNext_of_not_held hrun rfl, rfl, hpos, rfl, rfl, rfl⟩
  · obtain ⟨hnone, hterm⟩ := findSync_eq_io.1 hf
    have hrun : runToResult s = _ :=
      hin ▸ runEdges_search_end ignoresInputs_not_inReady goes_on_seeking hst hn hp hnone (Pins.take :: rest)
    rw [hterm, runEdges_of_stop rfl] at hrun
    exact ⟨_, exec_next_of_held hrun rfl rfl rfl, rfl, hpos, rfl, by rw [← hpos]; rfl⟩

end Sys2Proof.Machine
end
